-- ==== Sys2Proof/Word.lean ====
section
/-! DEFINITION. The word types of the machine: bytes, the 32-bit COUNT word and the 3-bit length field. -/

namespace Sys2Proof

/-- One byte: the unit of the DATA, RESULT, TX and RX spaces (20_memory.md R50). -/
abbrev Byte := BitVec 8

/-- The COUNT field of an operation descriptor, COUNT_WIDTH = 32 bits, unsigned (00_scope.md R9). -/
abbrev Count := BitVec 32

/-- The length byte `L` of a short engine command, `0 ≤ L ≤ 7`: it clocks `L + 1` cycles
(30_encoding.md R76, R80). -/
abbrev LenField := BitVec 3

end Sys2Proof
end

