-- ==== Sys2Proof/Config.lean ====
section
/-! DEFINITION. What a model instance fixes: the constants of R9, the OPEN parameters as one record that the
machine takes as an argument (R10), and the free values, which have no body. -/

namespace Sys2Proof

/-- Where the engine puts the captured bits of a partial-byte reply (00_scope.md R9, 40_engine_commands.md
R109). OPEN. -/
inductive Justify where
  | left
  | right
deriving DecidableEq, Repr

/-- The parameters of one model instance (00_scope.md R9, 10_state.md R33, 46_client_procedures.md R221). No
step changes one. The engine's opcodes, the justification and the timeout are OPEN: nothing may assume more
of them than `Params.wf` says (R10). -/
structure Params where
  opcTmsOut : Byte
  opcTmsInout : Byte
  opcBytesOut : Byte
  opcBytesInout : Byte
  opcBitsOut : Byte
  opcBitsInout : Byte
  captureJustify : Justify
  readTimeout : Nat
  maxDeviceCount : Nat
  idleCycles : Nat
  irScanBits : Nat
deriving DecidableEq, Repr

/-- The six opcode bytes, in the order of the table of R9. -/
def Params.opcodes (p : Params) : List Byte :=
  [p.opcTmsOut, p.opcTmsInout, p.opcBytesOut, p.opcBytesInout, p.opcBitsOut, p.opcBitsInout]

/-- The six opcodes are distinct (30_encoding.md R84). -/
abbrev Params.distinct (p : Params) : Prop := p.opcodes.Nodup

/-- The legal values: six distinct opcodes, a positive timeout (10_state.md R33), at least one device
(46_client_procedures.md R221). -/
abbrev Params.wf (p : Params) : Prop := p.distinct ∧ 0 < p.readTimeout ∧ 0 < p.maxDeviceCount

/-- The defaults of R9. The opcodes and the justification are the spec's [from general knowledge] defaults;
DESIGN CHOICE (log 28): READ_TIMEOUT 50, which no rule reads. -/
def Params.default : Params where
  opcTmsOut := 0x4B
  opcTmsInout := 0x6B
  opcBytesOut := 0x19
  opcBytesInout := 0x39
  opcBitsOut := 0x1B
  opcBitsInout := 0x3B
  captureJustify := .left
  readTimeout := 50
  maxDeviceCount := 8
  idleCycles := 0
  irScanBits := 256

namespace Config

/-- TMS_GROUP_MAX: most TMS clocks one TMS command carries (R9). -/
def tmsGroupMax : Nat := 8

/-- BULK_MAX_BYTES: most payload bytes one bytes command carries (R9). -/
def bulkMaxBytes : Nat := 65536

/-- BITS_MAX: most clocks of one bits command as the block uses it (R9). -/
def bitsMax : Nat := 7

/-- RESET_TMS_BYTES: TMS bytes of all ones that `reset` issues (R9). -/
def resetTmsBytes : Nat := 5

/-- IR_WIDTH_MAX: the client's widest chain IR value (R9). -/
def irWidthMax : Nat := 32

/-- FREE VALUE (log 8): the bits of a partial reply byte that carry no sample, "any value" (R109), for the
given draw. -/
opaque freeFill : (draw : Nat) → Byte

/-- FREE VALUE (log 5, log 9): the engine's TMS level after host initialisation or after a transport error
(R101, R111). -/
opaque freeLevel : (draw : Nat) → Bool

/-- FREE VALUE (log 9, log 10): the state index of a TAP after a loopback clock or a transport error (R111,
R201). -/
opaque freeTapState : (draw tap : Nat) → Nat

/-- FREE VALUE (log 9, log 10): a register of a TAP after a loopback clock or a transport error (R111,
R201), cut to the register's width where it is used. -/
opaque freeRegister : (draw tap register : Nat) → Nat

/-- FREE VALUE (log 9): what the engine's buffer 0 (TX bytes not yet executed) or 1 (reply bytes not yet read)
holds after a transport error, "any value, any length" (R111). -/
opaque freeBytes : (draw buffer : Nat) → List Byte

/-- FREE VALUE (log 29): the result of a register access whose length is not the width of the target's data
register, "any value for the result" (93_implementation_defined.md I14), cut to its length where it is used. -/
opaque freeResult : (draw : Nat) → Nat

end Config

end Sys2Proof
end

