-- ==== Sys2Proof/Syntax.lean ====
section
/-! DEFINITION. The instructions: the operations the block takes on its command port, and the commands the
engine takes on TX. -/

namespace Sys2Proof

/-- One constructor per row of spec/opcode_table.json. The first ten are operation descriptors
(30_encoding.md R71 to R74), the last six engine commands (R75 to R81). -/
inductive Instr where
  /-- `shift_tms(bits, count)`, R131. -/
  | shiftTms (count : Count) (data : List Byte)
  /-- `shift_tdi(bits, count)`, R134. -/
  | shiftTdi (count : Count) (data : List Byte)
  /-- `transfer_tdi(bits, count)`, R136. -/
  | transferTdi (count : Count) (data : List Byte)
  /-- `reset()`, R162; COUNT and DATA are ignored. -/
  | tapReset
  /-- `idle(cycles)`, R163; DATA is ignored. -/
  | idle (cycles : Count)
  /-- `shift_ir(data, bits)`, R164. -/
  | shiftIr (count : Count) (data : List Byte)
  /-- `transfer_ir(data, bits)`, R165. -/
  | transferIr (count : Count) (data : List Byte)
  /-- `shift_dr(data, bits)`, R166. -/
  | shiftDr (count : Count) (data : List Byte)
  /-- `transfer_dr(data, bits)`, R167. -/
  | transferDr (count : Count) (data : List Byte)
  /-- A descriptor whose OP is reserved, R73. -/
  | reservedOp (op : Byte) (count : Count) (data : List Byte)
  /-- `TMS_OUT L D`, R76. -/
  | tmsOut (l : LenField) (d : Byte)
  /-- `TMS_INOUT L D`, R77. -/
  | tmsInout (l : LenField) (d : Byte)
  /-- `BYTES_OUT` with its payload, R78. -/
  | bytesOut (payload : List Byte)
  /-- `BYTES_INOUT` with its payload, R79. -/
  | bytesInout (payload : List Byte)
  /-- `BITS_OUT L D`, R80. -/
  | bitsOut (l : LenField) (d : Byte)
  /-- `BITS_INOUT L D`, R81. -/
  | bitsInout (l : LenField) (d : Byte)
deriving DecidableEq, Repr

/-- The two encodings of R70: descriptors on the command port, commands on TX. -/
inductive Space where
  | port
  | tx
deriving DecidableEq, Repr

/-- Where an instruction is encoded. -/
def Instr.space : Instr → Space
  | .shiftTms _ _ => .port
  | .shiftTdi _ _ => .port
  | .transferTdi _ _ => .port
  | .tapReset => .port
  | .idle _ => .port
  | .shiftIr _ _ => .port
  | .transferIr _ _ => .port
  | .shiftDr _ _ => .port
  | .transferDr _ _ => .port
  | .reservedOp _ _ _ => .port
  | .tmsOut _ _ => .tx
  | .tmsInout _ _ => .tx
  | .bytesOut _ => .tx
  | .bytesInout _ => .tx
  | .bitsOut _ _ => .tx
  | .bitsInout _ _ => .tx

end Sys2Proof
end

