-- ==== Sys2Proof/WellFormed.lean ====
section
/-! DEFINITION. When an instruction is one the encodings can hold. -/

namespace Sys2Proof

/-- OP values that encode no operation (30_encoding.md R73): 0x00, 0x04 to 0x0F, 0x16 to 0xFF. -/
def isReservedOp (op : Byte) : Bool :=
  op.toNat == 0 || (4 ≤ op.toNat && op.toNat ≤ 15) || 22 ≤ op.toNat

/-- A bytes command carries 1 to BULK_MAX_BYTES payload bytes (30_encoding.md R78). -/
def isBulkPayload (payload : List Byte) : Bool :=
  1 ≤ payload.length && payload.length ≤ Config.bulkMaxBytes

/-- Well-formedness: a reserved descriptor holds a reserved OP, and a payload fits its length field. Every
other field's type holds exactly what its encoding admits. -/
def Instr.wf : Instr → Bool
  | .shiftTms _ _ => true
  | .shiftTdi _ _ => true
  | .transferTdi _ _ => true
  | .tapReset => true
  | .idle _ => true
  | .shiftIr _ _ => true
  | .transferIr _ _ => true
  | .shiftDr _ _ => true
  | .transferDr _ _ => true
  | .reservedOp op _ _ => isReservedOp op
  | .tmsOut _ _ => true
  | .tmsInout _ _ => true
  | .bytesOut payload => isBulkPayload payload
  | .bytesInout payload => isBulkPayload payload
  | .bitsOut _ _ => true
  | .bitsInout _ _ => true

end Sys2Proof
end

