-- ==== Sys2Proof/Decode.lean ====
section
/-! DEFINITION. The decoders of the two encodings (30_encoding.md R70), total on any bytes and rejecting by
name, the encoder, and the decoder of the opcode table's words. -/

namespace Sys2Proof

/-- Why bytes decode to no instruction. -/
inductive DecodeError where
  /-- The bytes end before the instruction does. -/
  | truncated
  /-- A TX byte where an opcode stands that is none of the six (30_encoding.md R84). -/
  | unknownOpcode (b : Byte)
  /-- A short command whose length byte is above 7 (30_encoding.md R76, R80). -/
  | lengthOutOfRange (l : Byte)
deriving DecidableEq, Repr

/-! ## Descriptors -/

/-- The operation a descriptor encodes (30_encoding.md R72), none for a reserved OP, which the decoder
refuses (R73). -/
def decodeOperation (op : Byte) (count : Count) (data : List Byte) : Option Instr :=
  if op = 0x01 then some (.shiftTms count data)
  else if op = 0x02 then some (.shiftTdi count data)
  else if op = 0x03 then some (.transferTdi count data)
  else if op = 0x10 then some .tapReset
  else if op = 0x11 then some (.idle count)
  else if op = 0x12 then some (.shiftIr count data)
  else if op = 0x13 then some (.transferIr count data)
  else if op = 0x14 then some (.shiftDr count data)
  else if op = 0x15 then some (.transferDr count data)
  else none

/-- A descriptor on the command port: an operation, or the row RESERVED_OP where the decoder refuses it. -/
def decodeRequest (op : Byte) (count : Count) (data : List Byte) : Instr :=
  (decodeOperation op count data).getD (.reservedOp op count data)

/-- COUNT from its four bytes, lowest first (DESIGN CHOICE, log 1). -/
def countOfBytes (c0 c1 c2 c3 : Byte) : Count := c3 ++ c2 ++ c1 ++ c0

/-- The four bytes of COUNT, lowest first (DESIGN CHOICE, log 1). -/
def countBytes (c : Count) : List Byte :=
  [c.extractLsb' 0 8, c.extractLsb' 8 8, c.extractLsb' 16 8, c.extractLsb' 24 8]

/-- A descriptor's three fields from its bytes: OP, then COUNT, then DATA to the end (DESIGN CHOICE, log 1). -/
def descriptorFields : List Byte → Option (Byte × Count × List Byte)
  | op :: c0 :: c1 :: c2 :: c3 :: data => some (op, countOfBytes c0 c1 c2 c3, data)
  | _ => none

/-- A descriptor laid out as bytes. -/
def decodeDescriptor (bytes : List Byte) : Except DecodeError Instr :=
  match descriptorFields bytes with
  | some (op, count, data) => .ok (decodeRequest op count data)
  | none => .error .truncated

/-! ## Engine commands -/

/-- The short layout after its opcode: `L`, `D` (30_encoding.md R75). -/
def decodeShort (mk : LenField → Byte → Instr) : List Byte → Except DecodeError (Instr × List Byte)
  | l :: d :: rest =>
    if l.toNat ≤ 7 then .ok (mk (l.setWidth 3) d, rest) else .error (.lengthOutOfRange l)
  | _ => .error .truncated

/-- The bulk layout after its opcode: `LL`, `LH`, then `LH * 256 + LL + 1` payload bytes (30_encoding.md R78,
R85). -/
def decodeBulk (mk : List Byte → Instr) : List Byte → Except DecodeError (Instr × List Byte)
  | ll :: lh :: rest =>
    let m := lh.toNat * 256 + ll.toNat + 1
    if m ≤ rest.length then .ok (mk (rest.take m), rest.drop m) else .error .truncated
  | _ => .error .truncated

/-- The first command of a TX byte stream and the bytes after it (30_encoding.md R85). -/
def decodeCommand (p : Params) : List Byte → Except DecodeError (Instr × List Byte)
  | [] => .error .truncated
  | b :: rest =>
    if b = p.opcTmsOut then decodeShort .tmsOut rest
    else if b = p.opcTmsInout then decodeShort .tmsInout rest
    else if b = p.opcBytesOut then decodeBulk .bytesOut rest
    else if b = p.opcBytesInout then decodeBulk .bytesInout rest
    else if b = p.opcBitsOut then decodeShort .bitsOut rest
    else if b = p.opcBitsInout then decodeShort .bitsInout rest
    else .error (.unknownOpcode b)

/-- The decoder of either encoding: the first instruction and the bytes after it. A descriptor takes all of
its bytes. -/
def decode (p : Params) (space : Space) (bytes : List Byte) : Except DecodeError (Instr × List Byte) :=
  match space with
  | .tx => decodeCommand p bytes
  | .port =>
    match decodeDescriptor bytes with
    | .ok i => .ok (i, [])
    | .error e => .error e

/-! ## The encoder -/

/-- A descriptor's bytes. -/
def encodeDescriptor (op : Byte) (count : Count) (data : List Byte) : List Byte :=
  op :: (countBytes count ++ data)

/-- A short command's bytes (30_encoding.md R75). -/
def encodeShort (opc : Byte) (l : LenField) (d : Byte) : List Byte := [opc, l.setWidth 8, d]

/-- A bulk command's bytes: the length field holds the payload's byte count minus one, low byte first
(30_encoding.md R75, R78, R83). -/
def encodeBulk (opc : Byte) (payload : List Byte) : List Byte :=
  let m1 := payload.length - 1
  opc :: BitVec.ofNat 8 m1 :: BitVec.ofNat 8 (m1 / 256) :: payload

/-- The bytes of an instruction (30_encoding.md R72, R75 to R81). Ignored fields are written as zero and
empty (R74). -/
def encode (p : Params) : Instr → List Byte
  | .shiftTms count data => encodeDescriptor 0x01 count data
  | .shiftTdi count data => encodeDescriptor 0x02 count data
  | .transferTdi count data => encodeDescriptor 0x03 count data
  | .tapReset => encodeDescriptor 0x10 0 []
  | .idle cycles => encodeDescriptor 0x11 cycles []
  | .shiftIr count data => encodeDescriptor 0x12 count data
  | .transferIr count data => encodeDescriptor 0x13 count data
  | .shiftDr count data => encodeDescriptor 0x14 count data
  | .transferDr count data => encodeDescriptor 0x15 count data
  | .reservedOp op count data => encodeDescriptor op count data
  | .tmsOut l d => encodeShort p.opcTmsOut l d
  | .tmsInout l d => encodeShort p.opcTmsInout l d
  | .bytesOut payload => encodeBulk p.opcBytesOut payload
  | .bytesInout payload => encodeBulk p.opcBytesInout payload
  | .bitsOut l d => encodeShort p.opcBitsOut l d
  | .bitsInout l d => encodeShort p.opcBitsInout l d

/-! ## Words of the opcode table -/

/-- The `nbits` low bits of a word as bytes, the first at bits 7..0. -/
def tableBytes (nbits w : Nat) : List Byte :=
  (List.range ((nbits + 7) / 8)).map fun k => BitVec.ofNat 8 (w / 2 ^ (8 * k))

/-- Zero bytes added up to a length. -/
def padTo (n : Nat) (bytes : List Byte) : List Byte :=
  bytes ++ List.replicate (n - bytes.length) 0

/-- Whether a first byte stands in an engine command row of the table, under the parameters. -/
def isEngineOpcode (p : Params) (b : Byte) : Bool := p.opcodes.contains b

/-- Whether a first byte is the opcode of a bulk command. -/
def isBulkOpcode (p : Params) (b : Byte) : Bool := b == p.opcBytesOut || b == p.opcBytesInout

/-- Which of the two encodings a table word belongs to (DESIGN CHOICE, log 1): the nine operation codes are
descriptors, a byte that is one of the six engine opcodes is a command, any other byte is a descriptor with a
reserved OP. -/
def tableSpace (p : Params) (b : Byte) : Space :=
  if isReservedOp b && isEngineOpcode p b then .tx else .port

/-- A table word as the bytes of one whole instruction, the bits above `nbits` zero: a descriptor has at
least its OP and COUNT, a short command three bytes, a bulk command its payload. -/
def layTableWord (p : Params) (nbits w : Nat) : List Byte :=
  let bytes := padTo 3 (tableBytes nbits w)
  let head := bytes.getD 0 0
  match tableSpace p head with
  | .port => padTo 5 bytes
  | .tx =>
    if isBulkOpcode p head then padTo (4 + (bytes.getD 2 0).toNat * 256 + (bytes.getD 1 0).toNat) bytes
    else bytes

/-- The descriptor fields of a table word that is a descriptor: DATA is what the word's own bytes hold after
OP and COUNT. -/
def tableDescriptor (nbits w : Nat) : Byte × Count × List Byte :=
  let bytes := padTo 5 (tableBytes nbits w)
  (descriptorFields bytes).getD (0, 0, [])

/-- The instruction the decoder reads from a table word, under the default parameters. A short command's word
longer than its three bytes is no instruction of the table. -/
def decodeTableWord (nbits w : Nat) : Option Instr :=
  let p := Params.default
  let bytes := layTableWord p nbits w
  match tableSpace p (bytes.getD 0 0) with
  | .port => let f := tableDescriptor nbits w; some (decodeRequest f.1 f.2.1 f.2.2)
  | .tx =>
    match decodeCommand p bytes with
    | .ok (i, []) => some i
    | _ => none

end Sys2Proof
end

