-- ==== Sys2Proof/Machine/State.lean ====
section
/-! DEFINITION. The machine's state as plain data: the block, its command port, the engine, the chain, the
host's program, the client, the parameters and the environment's draws. -/

namespace Sys2Proof.Machine

open Sys2Proof

/-- The 16 TAP states, in the order of 10_state.md R24. -/
inductive TapState where
  | tlr | rti | selDr | capDr | shDr | ex1Dr | paDr | ex2Dr | upDr
  | selIr | capIr | shIr | ex1Ir | paIr | ex2Ir | upIr
deriving DecidableEq, Repr

/-- A set of TAP states: bit `k` stands for the state of index `k` (10_state.md R20, R24). -/
abbrev TapSet := BitVec 16

/-- The TMS level as far as the block knows it: 0, 1 or unknown (10_state.md R20). -/
inductive TmsLevel where
  | low
  | high
  | x
deriving DecidableEq, Repr

/-- The contract faults of 60_exceptions.md R262: five of the block, two of the client. -/
inductive ContractFault where
  | illegalOperation
  | resyncRequired
  | zeroCount
  | bufferTooShort
  | tapStateIndeterminate
  | irWidthExceeded
  | zeroLength
deriving DecidableEq, Repr

/-- The recoverable errors of 60_exceptions.md R261, with the two subcauses of ProtocolDataError. -/
inductive ErrorKind where
  | transportIoError
  | transportTimeout
  | excessBytes
  | invalidIrBoundary
  | addressOutOfRange
  | targetNotSelected
  | targetNotFound
deriving DecidableEq, Repr

/-- How the transport answers one read (40_engine_commands.md R110, R111; log 7). -/
inductive ReadDraw where
  /-- Everything the engine has queued. -/
  | full
  /-- Only the first `k` queued bytes arrive in time. -/
  | short (k : Nat)
  /-- The first `k` queued bytes arrive and the read reports an I/O error. -/
  | ioError (k : Nat)
  /-- A string of the environment's own, whatever the engine queued. -/
  | bytes (s : List Byte)
deriving DecidableEq, Repr

/-- A TAP of the reference chain: its parameters (45_reference_target.md R191) and its state (R192). -/
structure Tap where
  idcode : BitVec 32
  irLength : Nat
  idcodeInstr : Nat
  echoInstr : Option Nat
  echoLen : Nat
  state : TapState
  ir : Nat
  irSr : Nat
  drSr : Nat
  echo : Nat
deriving DecidableEq, Repr

/-- A TAP at its power-up values (45_reference_target.md R192). -/
def Tap.powerUp (idcode : BitVec 32) (irLength : Nat) (idcodeInstr : Nat := 1)
    (echoInstr : Option Nat := none) (echoLen : Nat := 32) : Tap where
  idcode := idcode
  irLength := irLength
  idcodeInstr := idcodeInstr
  echoInstr := echoInstr
  echoLen := echoLen
  state := .tlr
  ir := idcodeInstr
  irSr := 0
  drSr := 0
  echo := 0

/-- `TapDescriptor` (46_client_procedures.md R222). -/
structure TapDescriptor where
  idcode : BitVec 32
  irLength : Nat
deriving DecidableEq, Repr

/-- `ChainParameters` (46_client_procedures.md R222). -/
structure ChainParameters where
  irPre : Nat
  irPost : Nat
  drPre : Nat
  drPost : Nat
  irLength : Nat
deriving DecidableEq, Repr

/-- The client's procedures (46_client_procedures.md R223, R228, R229, R233). -/
inductive ClientProc where
  | scan
  | selectTarget (idcode : BitVec 32)
  | readRegister (address len : Nat)
  | writeRegister (address data len : Nat)
  | readRegister32 (address : Nat)
  | writeRegister32 (address : Nat) (value : BitVec 32)
deriving DecidableEq, Repr

/-- What a client procedure returned (46_client_procedures.md, 60_exceptions.md R261, R262). -/
inductive ClientReply where
  /-- No procedure has returned. -/
  | none
  | descriptors (taps : List TapDescriptor)
  | selected
  | value (v : Nat)
  | written
  /-- An error, as the pair of a code and a subcause. -/
  | error (code subcause : Byte)
  | contractFault (kind : ContractFault)
deriving DecidableEq, Repr

/-- Actions of the host on the transport and on the block's power. -/
inductive HostAction where
  /-- Empty the engine's buffers and clear `desync` (70_reset_and_hazards.md R294). -/
  | purge
  /-- Switch the engine's loopback mode (40_engine_commands.md R112). -/
  | setLoopback (on : Bool)
  /-- Bring up the transport and power the block up (70_reset_and_hazards.md R290, R292). -/
  | powerUp
deriving DecidableEq, Repr

/-- One request of the host: an operation descriptor (30_encoding.md R71), a host action, or a client
procedure. -/
inductive Request where
  | operation (op : Byte) (count : Count) (data : List Byte)
  | action (a : HostAction)
  | procedure (p : ClientProc)
deriving DecidableEq, Repr

/-- Why the machine takes no step. -/
inductive Fault where
  /-- Raised by every operation while the block's `fault` is set: "no step: the block is stuck"
  (41_bit_engine_encoder.md R130, 10_state.md R31). Safe: the machine stops. -/
  | blockStuck (kind : ContractFault)
  /-- Raised by every client procedure after a client fault (60_exceptions.md R262). Safe: the machine
  stops. -/
  | clientStuck (kind : ContractFault)
deriving DecidableEq, Repr

/-- What the machine does not run. -/
inductive Refusal where
  /-- Raised by an arm of `exec` whose instruction has no meaning yet. Safe. -/
  | notModelled (mnemonic : String)
  /-- Raised when the engine meets a byte that is none of the six opcodes (30_encoding.md R84,
  93_implementation_defined.md I21: refuse). Safe. -/
  | unknownEngineOpcode (b : Byte)
  /-- Raised when the engine meets a short command whose length byte is above 7 (30_encoding.md R76, R80).
  Safe. -/
  | engineLengthOutOfRange (l : Byte)
  /-- Raised by a scan with MAX_DEVICE_COUNT = 0 (93_implementation_defined.md I18: refuse). Safe. -/
  | badClientConfiguration
  /-- Raised when a client procedure needs a bit count that the 32-bit COUNT cannot hold (log 20). Safe. -/
  | countNotEncodable (n : Nat)
deriving DecidableEq, Repr

/-- The machine's state. INVENTORY.md lists each field with its rule and its reset value. -/
structure State where
  /-- R20: the TAP states the chain may be in. -/
  tapShadow : TapSet
  /-- R20: the level of the engine's TMS line as the block last set it. -/
  tmsShadow : TmsLevel
  /-- R20: the streams may be out of step with the engine. -/
  desync : Bool
  /-- R20: the sticky contract fault. -/
  fault : Option ContractFault
  /-- R20: every byte passed to the transport's write. -/
  txLog : List Byte
  /-- R20: every byte the transport's read returned. -/
  rxLog : List Byte
  /-- R21: OP of the operation on the port. -/
  op : Byte
  /-- R21: COUNT of the operation on the port. -/
  count : Count
  /-- R21: DATA of the operation on the port. -/
  data : List Byte
  /-- R21: STATUS of the last reply. -/
  status : Byte
  /-- R261: the subcause that goes with STATUS, 0 where there is none. -/
  subcause : Byte
  /-- R21: RESULT of the last reply. -/
  result : List Byte
  /-- R101: the engine's TMS output latch. -/
  tmsPin : Bool
  /-- R101: the engine's loopback mode. -/
  loopback : Bool
  /-- R101: TX bytes received and not yet executed. -/
  cmdQueue : List Byte
  /-- R101: reply bytes not yet read. -/
  replyQueue : List Byte
  /-- R190: the chain, index 0 nearest TDO. -/
  taps : List Tap
  /-- R22: the requests the host has still to issue. -/
  pending : List Request
  /-- R22: how many requests have returned. -/
  position : Nat
  /-- R221: the client's selected target. -/
  selection : Option ChainParameters
  /-- R262: the client's contract fault. -/
  clientFault : Option ContractFault
  /-- What the last client procedure returned. -/
  clientReply : ClientReply
  /-- R9: the parameters of the instance. -/
  params : Params
  /-- The model's own (log 7): how many writes succeed before each failing one. -/
  writeFails : List Nat
  /-- The model's own (log 7): the answers of the coming reads. -/
  readDraws : List ReadDraw
  /-- The model's own (log 8): how many free values have been drawn. -/
  freeCount : Nat
deriving DecidableEq, Repr

/-- The machine at power-up with given parameters and a given chain (70_reset_and_hazards.md R290,
40_engine_commands.md R101). The values the spec does not give are DESIGN CHOICES of the logs 4, 5, 7, 14 and
19. -/
def State.powerOn (params : Params) (taps : List Tap) : State where
  tapShadow := 0xFFFF
  tmsShadow := .x
  desync := false
  fault := none
  txLog := []
  rxLog := []
  op := 0
  count := 0
  data := []
  status := 0
  subcause := 0
  result := []
  tmsPin := false
  loopback := false
  cmdQueue := []
  replyQueue := []
  taps := taps
  pending := []
  position := 0
  selection := none
  clientFault := none
  clientReply := .none
  params := params
  writeFails := []
  readDraws := []
  freeCount := 0

/-- The machine right after reset: the default parameters (log 3) and the empty chain (log 6). -/
def State.reset : State := State.powerOn Params.default []

end Sys2Proof.Machine
end

