-- ==== Sys2Proof/Machine/Operands.lean ====
section
/-! DEFINITION. Bit buffers and their bytes: the operands of the operations (00_scope.md R11 to R13,
20_memory.md R51 to R54). -/

namespace Sys2Proof.Machine

open Sys2Proof

/-- `ceil(n / 8)` (00_scope.md R11). -/
def ceilDiv8 (n : Nat) : Nat := (n + 7) / 8

/-- Bit `i` of a bit buffer: `buf[i div 8][i mod 8]` (00_scope.md R12). A bit past the buffer's end is read by
no operation (log 23). -/
def bufBit (buf : List Byte) (i : Nat) : Bool := (buf.getD (i / 8) 0).getLsbD (i % 8)

/-- The first `n` bits of a bit buffer, in time order. -/
def bufBits (buf : List Byte) (n : Nat) : List Bool := (List.range n).map (bufBit buf)

/-- `MemRead(addr, n)`: `n` bytes of DATA from byte offset `addr` (00_scope.md R13). -/
def memRead (data : List Byte) (addr n : Nat) : List Byte := (data.drop addr).take n

/-- `MemWrite(addr, n, v)`: the bytes `v` written over a buffer from byte offset `addr` (00_scope.md R13). -/
def memWrite (buf : List Byte) (addr : Nat) (v : List Byte) : List Byte :=
  buf.take addr ++ v ++ buf.drop (addr + v.length)

/-- The byte at an offset of DATA, `MemRead(k, 1)`. -/
def memByte (data : List Byte) (k : Nat) : Byte := data.getD k 0

/-- `zext_8(v[n-1 : 0])`: the low `n` bits of a byte, the others 0 (00_scope.md R11). -/
def lowBits (n : Nat) (v : Byte) : Byte := BitVec.ofNat 8 (v.toNat % 2 ^ n)

/-- The field `v[hi : lo]` of a byte as a number (00_scope.md R11). -/
def byteField (v : Byte) (hi lo : Nat) : Nat := v.toNat / 2 ^ lo % 2 ^ (hi + 1 - lo)

/-- The low `n` bits of a byte, bit 0 first. -/
def byteBits (n : Nat) (v : Byte) : List Bool := (List.range n).map v.getLsbD

/-- The bits of a payload in time order: clock `8k + j` carries bit `j` of byte `k` (30_encoding.md R78). -/
def payloadBits (payload : List Byte) : List Bool := payload.flatMap (byteBits 8)

/-- The number whose bit `i` is the `i`-th entry of a list. -/
def natOfBits : List Bool → Nat
  | [] => 0
  | b :: bs => b.toNat + 2 * natOfBits bs

/-- The byte whose bit `i` is the `i`-th entry of a list. -/
def byteOfBits (bs : List Bool) : Byte := BitVec.ofNat 8 (natOfBits bs)

/-- The little-endian bytes of a number (20_memory.md R54). -/
def natBytes : (len : Nat) → (v : Nat) → List Byte
  | 0, _ => []
  | n + 1, v => BitVec.ofNat 8 v :: natBytes n (v / 256)

/-- The number in `w` bits of a bit buffer from bit offset `o`: `Σ_{i<w} bit(buf, o+i) · 2^i` (20_memory.md
R54). -/
def bufNat (buf : List Byte) (o w : Nat) : Nat := natOfBits ((List.range w).map fun i => bufBit buf (o + i))

/-- `B`, the whole bytes of a data shift of `n` bits (41_bit_engine_encoder.md R133). -/
def wholeBytes (n : Nat) : Nat := (n - 1) / 8

/-- `r`, the 1 to 8 remaining bits of a data shift of `n` bits (41_bit_engine_encoder.md R133). -/
def remainderBits (n : Nat) : Nat := n - 8 * wholeBytes n

/-- `E`, the reply bytes of a capturing data shift of `n` bits (41_bit_engine_encoder.md R137). -/
def replyCount (n : Nat) : Nat := wholeBytes n + (if 2 ≤ remainderBits n then 1 else 0) + 1

/-- The RESULT of a capturing shift from its reply bytes (41_bit_engine_encoder.md R138): whole bytes
verbatim, then one byte of the `r - 1` bits of the partial reply and the final bit above them. -/
def rebuild (justify : Justify) (n : Nat) (rx : List Byte) : List Byte :=
  let b := wholeBytes n
  let r := remainderBits n
  let p := rx.getD b 0
  let q := rx.getD (replyCount n - 1) 0
  let low :=
    if 2 ≤ r then
      match justify with
      | .left => byteField p 7 (9 - r)
      | .right => byteField p (r - 2) 0
    else 0
  let f :=
    match justify with
    | .left => q.getLsbD 7
    | .right => q.getLsbD 0
  memWrite (memWrite [] 0 (rx.take b)) b [BitVec.ofNat 8 (low + f.toNat * 2 ^ (r - 1))]

/-- The reply byte of a partial capture: the samples at the end that CAPTURE_JUSTIFY names, the other bits
from a free byte (40_engine_commands.md R109). -/
def pack (justify : Justify) (samples : List Bool) (fill : Byte) : Byte :=
  match justify with
  | .left => byteOfBits (byteBits (8 - samples.length) fill ++ samples)
  | .right => byteOfBits (samples ++ (byteBits 8 fill).drop samples.length)

end Sys2Proof.Machine
end

