-- ==== Sys2Proof/Machine/Flags.lean ====
section
/-! DEFINITION. The TAP state machine and the state the block keeps of it: the transition table, the set step,
the clock updates of `tap_shadow` and `tms_shadow`, and the STATUS codes. -/

namespace Sys2Proof.Machine

open Sys2Proof

/-! ## TAP states (10_state.md R24, R25) -/

/-- The index of a TAP state (10_state.md R24). -/
def TapState.index : TapState → Nat
  | .tlr => 0 | .rti => 1 | .selDr => 2 | .capDr => 3 | .shDr => 4 | .ex1Dr => 5 | .paDr => 6 | .ex2Dr => 7
  | .upDr => 8 | .selIr => 9 | .capIr => 10 | .shIr => 11 | .ex1Ir => 12 | .paIr => 13 | .ex2Ir => 14
  | .upIr => 15

/-- All TAP states, in index order. -/
def TapState.all : List TapState :=
  [.tlr, .rti, .selDr, .capDr, .shDr, .ex1Dr, .paDr, .ex2Dr, .upDr, .selIr, .capIr, .shIr, .ex1Ir, .paIr,
    .ex2Ir, .upIr]

/-- The TAP state of an index, taken mod 16. -/
def TapState.ofIndex (k : Nat) : TapState := TapState.all.getD (k % 16) .tlr

/-- `δ(s, tms)` (10_state.md R25). -/
def TapState.next : TapState → Bool → TapState
  | .tlr, false => .rti | .tlr, true => .tlr
  | .rti, false => .rti | .rti, true => .selDr
  | .selDr, false => .capDr | .selDr, true => .selIr
  | .capDr, false => .shDr | .capDr, true => .ex1Dr
  | .shDr, false => .shDr | .shDr, true => .ex1Dr
  | .ex1Dr, false => .paDr | .ex1Dr, true => .upDr
  | .paDr, false => .paDr | .paDr, true => .ex2Dr
  | .ex2Dr, false => .shDr | .ex2Dr, true => .upDr
  | .upDr, false => .rti | .upDr, true => .selDr
  | .selIr, false => .capIr | .selIr, true => .tlr
  | .capIr, false => .shIr | .capIr, true => .ex1Ir
  | .shIr, false => .shIr | .shIr, true => .ex1Ir
  | .ex1Ir, false => .paIr | .ex1Ir, true => .upIr
  | .paIr, false => .paIr | .paIr, true => .ex2Ir
  | .ex2Ir, false => .shIr | .ex2Ir, true => .upIr
  | .upIr, false => .rti | .upIr, true => .selDr

/-! ## Sets of TAP states (10_state.md R27) -/

/-- Whether a set holds a TAP state. -/
def holds (S : TapSet) (s : TapState) : Bool := S.getLsbD s.index

/-- The set of one TAP state. -/
def single (s : TapState) : TapSet := BitVec.ofNat 16 (2 ^ s.index)

/-- `ALL`, the set of all 16 states. -/
def allStates : TapSet := 0xFFFF

/-- `Step(S, t)` for a known level: the states reached from a member of `S`. -/
def stepLevel (S : TapSet) (t : Bool) : TapSet :=
  TapState.all.foldl (fun acc s => if holds S s then acc ||| single (s.next t) else acc) 0

/-- `Step(S, t)`: the union of both steps when the level is unknown. -/
def stepSet (S : TapSet) : TmsLevel → TapSet
  | .low => stepLevel S false
  | .high => stepLevel S true
  | .x => stepLevel S false ||| stepLevel S true

/-- The level of a known TMS bit. -/
def TmsLevel.ofBool : Bool → TmsLevel
  | false => .low
  | true => .high

/-- `Walk(S, t0 t1 ...)` over known levels. -/
def walk (S : TapSet) (ts : List Bool) : TapSet := ts.foldl (fun acc t => stepSet acc (.ofBool t)) S

/-! ## The block's clock updates (41_bit_engine_encoder.md R132) -/

/-- `Clock'(t)`: one TMS clock of the block's shadows. -/
def clockTms (s : State) (t : Bool) : State :=
  { s with tapShadow := stepSet s.tapShadow (.ofBool t), tmsShadow := .ofBool t }

/-- `DataClock'`: one data clock of the block's shadows, at the level `tms_shadow`. -/
def clockData (s : State) : State := { s with tapShadow := stepSet s.tapShadow s.tmsShadow }

/-- `n` data clocks. -/
def clockDataTimes : Nat → State → State
  | 0, s => s
  | n + 1, s => clockDataTimes n (clockData s)

/-- The shadow updates of the clocks that one engine command causes: a TMS command clocks its bits, a data
command clocks one data clock a bit. A descriptor causes none of its own. -/
def shadowCommand (i : Instr) (s : State) : State :=
  match i with
  | .tmsOut l d => (byteBits (l.toNat + 1) d).foldl clockTms s
  | .tmsInout l d => (byteBits (l.toNat + 1) d).foldl clockTms s
  | .bytesOut payload => clockDataTimes (8 * payload.length) s
  | .bytesInout payload => clockDataTimes (8 * payload.length) s
  | .bitsOut l _ => clockDataTimes (l.toNat + 1) s
  | .bitsInout l _ => clockDataTimes (l.toNat + 1) s
  | .shiftTms _ _ => s
  | .shiftTdi _ _ => s
  | .transferTdi _ _ => s
  | .tapReset => s
  | .idle _ => s
  | .shiftIr _ _ => s
  | .transferIr _ _ => s
  | .shiftDr _ _ => s
  | .transferDr _ _ => s
  | .reservedOp _ _ _ => s

/-! ## STATUS codes (60_exceptions.md R261, R262) -/

/-- `OK`. -/
def statusOk : Byte := 0x00

/-- The code of a recoverable error. -/
def ErrorKind.code : ErrorKind → Byte
  | .transportIoError => 0x01
  | .transportTimeout => 0x02
  | .excessBytes => 0x03
  | .invalidIrBoundary => 0x03
  | .addressOutOfRange => 0x04
  | .targetNotSelected => 0x05
  | .targetNotFound => 0x06

/-- The subcause of a recoverable error: 1 for ExcessBytes, 2 for InvalidIrBoundary, 0 for none (log 25). -/
def ErrorKind.subcause : ErrorKind → Byte
  | .transportIoError => 0
  | .transportTimeout => 0
  | .excessBytes => 1
  | .invalidIrBoundary => 2
  | .addressOutOfRange => 0
  | .targetNotSelected => 0
  | .targetNotFound => 0

/-- The code of a contract fault. -/
def ContractFault.code : ContractFault → Byte
  | .illegalOperation => 0x80
  | .resyncRequired => 0x81
  | .zeroCount => 0x82
  | .bufferTooShort => 0x83
  | .tapStateIndeterminate => 0x84
  | .irWidthExceeded => 0x85
  | .zeroLength => 0x86

end Sys2Proof.Machine
end

