-- ==== Sys2Proof/Machine/Target.lean ====
section
/-! DEFINITION. The reference chain of TAPs (45_reference_target.md): one clock of a TAP and of the chain. -/

namespace Sys2Proof.Machine

open Sys2Proof

/-- The data register an instruction selects (45_reference_target.md R196). -/
inductive DataRegister where
  | bypass
  | idcode
  | echo
deriving DecidableEq, Repr

/-- Instruction decode (45_reference_target.md R196): all ones and every other value select BYPASS. -/
def Tap.selected (t : Tap) : DataRegister :=
  if t.ir = 2 ^ t.irLength - 1 then .bypass
  else if t.ir = t.idcodeInstr then .idcode
  else if t.echoInstr = some t.ir then .echo
  else .bypass

/-- `W`, the width of the selected data register (45_reference_target.md R196). -/
def Tap.drWidth (t : Tap) : Nat :=
  match t.selected with
  | .bypass => 1
  | .idcode => 32
  | .echo => t.echoLen

/-- The Capture value of the selected data register (45_reference_target.md R196). -/
def Tap.captureValue (t : Tap) : Nat :=
  match t.selected with
  | .bypass => 0
  | .idcode => t.idcode.toNat
  | .echo => t.echo

/-- A TAP's TDO (45_reference_target.md R194): 1 outside the shift states. -/
def Tap.tdo (t : Tap) : Bool :=
  match t.state with
  | .shIr => t.irSr.testBit 0
  | .shDr => t.drSr.testBit 0
  | .tlr | .rti | .selDr | .capDr | .ex1Dr | .paDr | .ex2Dr | .upDr => true
  | .selIr | .capIr | .ex1Ir | .paIr | .ex2Ir | .upIr => true

/-- A shift register of width `w` one place toward TDO: `(r >> 1) | (tdi << (w - 1))`. -/
def shiftIn (w r : Nat) (tdi : Bool) : Nat := r >>> 1 ||| tdi.toNat <<< (w - 1)

/-- The shift taken in the state a clock starts in (45_reference_target.md R195). -/
def Tap.shift (t : Tap) (tdi : Bool) : Tap :=
  match t.state with
  | .shIr => { t with irSr := shiftIn t.irLength t.irSr tdi }
  | .shDr => { t with drSr := shiftIn t.drWidth t.drSr tdi }
  | .tlr | .rti | .selDr | .capDr | .ex1Dr | .paDr | .ex2Dr | .upDr => t
  | .selIr | .capIr | .ex1Ir | .paIr | .ex2Ir | .upIr => t

/-- The action of the state a clock enters (45_reference_target.md R195). -/
def Tap.enter (t : Tap) (s : TapState) : Tap :=
  match s with
  | .capIr => { t with state := s, irSr := 1 }
  | .upIr => { t with state := s, ir := t.irSr }
  | .tlr => { t with state := s, ir := t.idcodeInstr }
  | .capDr => { t with state := s, drSr := t.captureValue }
  | .upDr =>
    match t.selected with
    | .echo => { t with state := s, echo := t.drSr }
    | .bypass => { t with state := s }
    | .idcode => { t with state := s }
  | .rti | .selDr | .shDr | .ex1Dr | .paDr | .ex2Dr => { t with state := s }
  | .selIr | .shIr | .ex1Ir | .paIr | .ex2Ir => { t with state := s }

/-- `TAP.clock(tms, tdi)` (45_reference_target.md R195). -/
def Tap.clock (t : Tap) (tms tdi : Bool) : Tap := (t.shift tdi).enter (t.state.next tms)

/-- `Chain.TDO` (45_reference_target.md R193): an empty chain reads 1. -/
def chainTdo : List Tap → Bool
  | [] => true
  | t :: _ => t.tdo

/-- The TDI of a TAP whose upstream neighbours are given: the neighbour's TDO, or the engine's TDI for the last
TAP (45_reference_target.md R193). -/
def upstreamTdo : List Tap → Bool → Bool
  | [], tdi => tdi
  | u :: _, _ => u.tdo

/-- `Chain.clock(tms, tdi)` (45_reference_target.md R193): every TAP clocks on what its upstream neighbour
presented before the clock. -/
def clockChain : List Tap → (tms tdi : Bool) → List Tap
  | [], _, _ => []
  | t :: ts, tms, tdi => t.clock tms (upstreamTdo ts tdi) :: clockChain ts tms tdi

/-- A TAP whose state and registers are unknown (40_engine_commands.md R111, 45_reference_target.md R201):
free values of the registers' widths. -/
def Tap.unknown (t : Tap) (draw tap : Nat) : Tap :=
  let t1 : Tap :=
    { t with
      state := TapState.ofIndex (Config.freeTapState draw tap)
      ir := Config.freeRegister draw tap 0 % 2 ^ t.irLength
      irSr := Config.freeRegister draw tap 1 % 2 ^ t.irLength
      echo := Config.freeRegister draw tap 2 % 2 ^ t.echoLen }
  { t1 with drSr := Config.freeRegister draw tap 3 % 2 ^ t1.drWidth }

/-- The TAPs from position `k` of the chain on, all unknown. -/
def unknownFrom : (draw k : Nat) → List Tap → List Tap
  | _, _, [] => []
  | draw, k, t :: ts => t.unknown draw k :: unknownFrom draw (k + 1) ts

/-- A chain whose TAPs are all unknown. -/
def unknownChain (draw : Nat) (taps : List Tap) : List Tap := unknownFrom draw 0 taps

/-- The legal parameters of a TAP (45_reference_target.md R191). -/
def Tap.legal (t : Tap) : Bool :=
  t.idcode != 0xFFFFFFFF && 1 ≤ t.irLength && t.idcodeInstr < 2 ^ t.irLength - 1 && 1 ≤ t.echoLen &&
    (match t.echoInstr with
      | none => true
      | some e => e < 2 ^ t.irLength - 1 && e != t.idcodeInstr)

/-- Whether a TAP is in a state of a data-register scan, where its data shift register holds a value of the
selected register. -/
def TapState.inDrScan : TapState → Bool
  | .capDr | .shDr | .ex1Dr | .paDr | .ex2Dr | .upDr => true
  | .tlr | .rti | .selDr => false
  | .selIr | .capIr | .shIr | .ex1Ir | .paIr | .ex2Ir | .upIr => false

/-- The registers of a TAP keep within their widths (45_reference_target.md R192). The data shift register has
a width during a scan of the register it was captured from. -/
def Tap.fits (t : Tap) : Bool :=
  t.ir < 2 ^ t.irLength && t.irSr < 2 ^ t.irLength && t.echo < 2 ^ t.echoLen &&
    (!t.state.inDrScan || t.drSr < 2 ^ t.drWidth)

end Sys2Proof.Machine
end

