-- ==== Sys2Proof/Machine/Engine.lean ====
section
/-! DEFINITION. The serial bit-engine (40_engine_commands.md): one clock, the six commands and their meanings,
and the engine's run through its queue. -/

namespace Sys2Proof.Machine

open Sys2Proof

/-! ## Clocks (40_engine_commands.md R102) -/

/-- `Clock(tms, tdi)`: the sample before the clock, and the machine after it. In loopback the sample is the
TDI level and the chain's state becomes unknown (R112, 45_reference_target.md R201; log 10). -/
def clock (tms tdi : Bool) (s : State) : Bool × State :=
  if s.loopback then
    (tdi, { s with taps := unknownChain s.freeCount s.taps, freeCount := s.freeCount + 1 })
  else (chainTdo s.taps, { s with taps := clockChain s.taps tms tdi })

/-- The clocks of a TMS command: each sets the latch to its own TMS bit (R103, R104). -/
def tmsClocks (tdi : Bool) : List Bool → State → List Bool × State
  | [], s => ([], s)
  | t :: ts, s =>
    let c := clock t tdi { s with tmsPin := t }
    let r := tmsClocks tdi ts c.2
    (c.1 :: r.1, r.2)

/-- The clocks of a data command: each at the latch's level, which they do not change (R105, R107). -/
def dataClocks : List Bool → State → List Bool × State
  | [], s => ([], s)
  | b :: bs, s =>
    let c := clock s.tmsPin b s
    let r := dataClocks bs c.2
    (c.1 :: r.1, r.2)

/-- The clocks of a bytes command, and the byte of samples of each payload byte (R105, R106). -/
def bytesClocks : List Byte → State → List Byte × State
  | [], s => ([], s)
  | p :: ps, s =>
    let c := dataClocks (byteBits 8 p) s
    let r := bytesClocks ps c.2
    (byteOfBits c.1 :: r.1, r.2)

/-- The clocks of a TMS command with length byte `l` and data byte `d`: TDI is `d[7]` throughout (30_encoding.md
R76). -/
def tmsCommand (l : LenField) (d : Byte) (s : State) : List Bool × State :=
  tmsClocks (d.getLsbD 7) (byteBits (l.toNat + 1) d) s

/-- The clocks of a bits command (30_encoding.md R80). -/
def bitsCommand (l : LenField) (d : Byte) (s : State) : List Bool × State :=
  dataClocks (byteBits (l.toNat + 1) d) s

/-- Reply bytes appended to the engine's reply queue (R100). -/
def reply (bytes : List Byte) (s : State) : State := { s with replyQueue := s.replyQueue ++ bytes }

/-- The one reply byte of a partial capture (R104, R108, R109). -/
def replyPartial (r : List Bool × State) : State :=
  reply [pack r.2.params.captureJustify r.1 (Config.freeFill r.2.freeCount)]
    { r.2 with freeCount := r.2.freeCount + 1 }

/-- What the engine does for a command (R103 to R108). A descriptor is no command of the engine. -/
def runCommand (i : Instr) (s : State) : State :=
  match i with
  | .tmsOut l d => (tmsCommand l d s).2
  | .tmsInout l d => replyPartial (tmsCommand l d s)
  | .bytesOut payload => (bytesClocks payload s).2
  | .bytesInout payload => let r := bytesClocks payload s; reply r.1 r.2
  | .bitsOut l d => (bitsCommand l d s).2
  | .bitsInout l d => replyPartial (bitsCommand l d s)
  | .shiftTms _ _ => s
  | .shiftTdi _ _ => s
  | .transferTdi _ _ => s
  | .tapReset => s
  | .idle _ => s
  | .shiftIr _ _ => s
  | .transferIr _ _ => s
  | .shiftDr _ _ => s
  | .transferDr _ _ => s
  | .reservedOp _ _ _ => s

/-! ## The meanings of the six commands -/

/-- `TMS_OUT` (40_engine_commands.md R103). -/
def execTmsOut (l : LenField) (d : Byte) (s : State) : Host.Outcome State Fault Refusal :=
  .next (runCommand (.tmsOut l d) s)

/-- `TMS_INOUT` (40_engine_commands.md R104). -/
def execTmsInout (l : LenField) (d : Byte) (s : State) : Host.Outcome State Fault Refusal :=
  .next (runCommand (.tmsInout l d) s)

/-- `BYTES_OUT` (40_engine_commands.md R105). -/
def execBytesOut (payload : List Byte) (s : State) : Host.Outcome State Fault Refusal :=
  .next (runCommand (.bytesOut payload) s)

/-- `BYTES_INOUT` (40_engine_commands.md R106). -/
def execBytesInout (payload : List Byte) (s : State) : Host.Outcome State Fault Refusal :=
  .next (runCommand (.bytesInout payload) s)

/-- `BITS_OUT` (40_engine_commands.md R107). -/
def execBitsOut (l : LenField) (d : Byte) (s : State) : Host.Outcome State Fault Refusal :=
  .next (runCommand (.bitsOut l d) s)

/-- `BITS_INOUT` (40_engine_commands.md R108). -/
def execBitsInout (l : LenField) (d : Byte) (s : State) : Host.Outcome State Fault Refusal :=
  .next (runCommand (.bitsInout l d) s)

/-! ## The engine's queue (40_engine_commands.md R100, R110) -/

/-- The engine runs the complete commands at the front of its queue, at most `fuel` of them, and stops at an
incomplete command or at bytes that are none (20_memory.md R56). -/
def engineRun : (fuel : Nat) → State → State
  | 0, s => s
  | fuel + 1, s =>
    match decodeCommand s.params s.cmdQueue with
    | .ok (i, rest) => engineRun fuel (runCommand i { s with cmdQueue := rest })
    | .error _ => s

/-- The engine runs every complete command it holds. -/
def engineDrain (s : State) : State := engineRun s.cmdQueue.length s

/-- Why the engine cannot go on with the front of its queue, if the spec gives those bytes no meaning (30_encoding.md
R84, 93_implementation_defined.md I21; log 17). An incomplete command is not such a case. -/
def engineStalled (s : State) : Option Refusal :=
  match decodeCommand s.params s.cmdQueue with
  | .ok _ => none
  | .error .truncated => none
  | .error (.unknownOpcode b) => some (.unknownEngineOpcode b)
  | .error (.lengthOutOfRange l) => some (.engineLengthOutOfRange l)

end Sys2Proof.Machine
end

