-- ==== Sys2Proof/Machine/Ops.lean ====
section
/-! DEFINITION. The operations the block's instructions share: the precondition check, raising a contract
fault, raising a transport error, writing commands to the transport, reading replies, and the reply. -/

namespace Sys2Proof.Machine

open Sys2Proof

/-! ## The exceptions of the block (60_exceptions.md R260 to R264) -/

/-- `fault K`: the operation ends with the contract fault, and the block is stuck from then on
(41_bit_engine_encoder.md R130, 60_exceptions.md R262). -/
def raiseFault (k : ContractFault) (s : State) : State :=
  { s with fault := some k, status := k.code, subcause := 0, result := [] }

/-- `raise E`: the effects of a transport error on the block (60_exceptions.md R263). The engine and the
chain are unconstrained from here to the purge, so their buffers, levels and registers become free values
(40_engine_commands.md R111; log 9): a command split by a failed write, which leaves the engine waiting for its
rest (20_memory.md R56), and reply bytes that arrive late are among the values. -/
def raiseError (e : ErrorKind) (s : State) : State :=
  { s with
    tapShadow := allStates
    tmsShadow := .x
    desync := true
    status := e.code
    subcause := e.subcause
    result := []
    tmsPin := Config.freeLevel s.freeCount
    cmdQueue := Config.freeBytes s.freeCount 0
    replyQueue := Config.freeBytes s.freeCount 1
    taps := unknownChain s.freeCount s.taps
    freeCount := s.freeCount + 1 }

/-- `Check(n, needCount, needState)` after its stuck case: the first contract fault that applies
(41_bit_engine_encoder.md R130). -/
def contractCheck (n : Nat) (data : List Byte) (needCount needState : Bool) (s : State) :
    Option ContractFault :=
  if s.desync then some .resyncRequired
  else if needCount && n == 0 then some .zeroCount
  else if needCount && decide (data.length < ceilDiv8 n) then some .bufferTooShort
  else if needState && !(s.tapShadow == single .rti || s.tapShadow == single .tlr) then
    some .tapStateIndeterminate
  else none

/-- `Check`, then the operation's body: a stuck block takes no step (10_state.md R31), and a contract fault
comes before any byte is written. -/
def checked (n : Nat) (data : List Byte) (needCount needState : Bool)
    (body : State → Host.Outcome State Fault Refusal) (s : State) : Host.Outcome State Fault Refusal :=
  match s.fault with
  | some k => .fault (.blockStuck k)
  | none =>
    match contractCheck n data needCount needState s with
    | some k => .next (raiseFault k s)
    | none => body s

/-! ## The run of an operation -/

/-- An operation after some of its phases: it goes on, it has ended with an error, or the engine met bytes
that the spec gives no meaning. -/
inductive Flow where
  | run (s : State)
  | ended (s : State)
  | refused (r : Refusal)
deriving DecidableEq, Repr

/-- The next phase of an operation: none is run after an error (60_exceptions.md R263). -/
def Flow.andThen (f : Flow) (g : State → Flow) : Flow :=
  match f with
  | .run s => g s
  | .ended s => .ended s
  | .refused r => .refused r

/-- The operation's return: `STATUS <- OK` if every phase ran. RESULT is what the capture left. -/
def Flow.returned (f : Flow) : Host.Outcome State Fault Refusal :=
  match f with
  | .run s => .next { s with status := statusOk, subcause := 0 }
  | .ended s => .next s
  | .refused r => .refused r

/-- `STATUS <- OK; RESULT <- empty`, the return of an operation that captures nothing. -/
def Flow.returnedEmpty (f : Flow) : Host.Outcome State Fault Refusal :=
  (f.andThen fun s => .run { s with result := [] }).returned

/-! ## The transport (60_exceptions.md R269) -/

/-- One `write` of the transport (70_reset_and_hazards.md R298): the bytes are logged either way (10_state.md
R32), and reach the engine unless this write is the one that fails (log 7). How many bytes of a failed write
reach the engine is unknown (R32): the error it raises leaves the engine's queue any value (`raiseError`). -/
def transportWrite (bytes : List Byte) (s : State) : Bool × State :=
  let logged := { s with txLog := s.txLog ++ bytes }
  match s.writeFails with
  | [] => (true, { logged with cmdQueue := s.cmdQueue ++ bytes })
  | 0 :: later => (false, { logged with writeFails := later })
  | (n + 1) :: later => (true, { logged with cmdQueue := s.cmdQueue ++ bytes, writeFails := n :: later })

/-- `Emit` of one engine command, one write (92_eei_decisions.md D16), and the clock updates of its clocks.
A failed write raises TransportIoError. -/
def emitCommand (i : Instr) (s : State) : Flow :=
  let w := transportWrite (encode s.params i) s
  if w.1 then .run (shadowCommand i w.2) else .ended (raiseError .transportIoError w.2)

/-- `Emit` of commands in order: nothing is written after a failed write. -/
def emitAll : List Instr → State → Flow
  | [], s => .run s
  | i :: is, s => (emitCommand i s).andThen (emitAll is)

/-- The bytes a read returns, whether it reports an I/O error, and the machine after it (40_engine_commands.md
R110; log 7, log 12). Bytes read are consumed (20_memory.md R57). DESIGN CHOICE (log 30): a read answered by a
string of the environment's own empties the whole reply queue, whatever the string's length. -/
def transportRead (s : State) : (List Byte × Bool) × State :=
  match s.readDraws with
  | [] => ((s.replyQueue, false), { s with replyQueue := [] })
  | .full :: later => ((s.replyQueue, false), { s with replyQueue := [], readDraws := later })
  | .short k :: later =>
    ((s.replyQueue.take k, false), { s with replyQueue := s.replyQueue.drop k, readDraws := later })
  | .ioError k :: later =>
    ((s.replyQueue.take k, true), { s with replyQueue := s.replyQueue.drop k, readDraws := later })
  | .bytes b :: later => ((b, false), { s with replyQueue := [], readDraws := later })

/-- What a read of `expected` bytes raises, if anything, in the order of 41_bit_engine_encoder.md R139. -/
def readError (expected : Nat) (bytes : List Byte) (ioError : Bool) : Option ErrorKind :=
  if ioError then some .transportIoError
  else if bytes.length < expected then some .transportTimeout
  else if expected < bytes.length then some .excessBytes
  else none

/-- `RESULT <- rebuilt(Receive(expected))` (41_bit_engine_encoder.md R136, R139): the engine runs what it was
given, then one read is made, whose bytes are logged before it is judged. -/
def receive (expected : Nat) (rebuilt : List Byte → List Byte) (s : State) : Flow :=
  let e := engineDrain s
  match engineStalled e with
  | some r => .refused r
  | none =>
    let ((bytes, ioError), t) := transportRead e
    let logged := { t with rxLog := t.rxLog ++ bytes }
    match readError expected bytes ioError with
    | some err => .ended (raiseError err logged)
    | none => .run { logged with result := rebuilt bytes }

end Sys2Proof.Machine
end

