-- ==== Sys2Proof/Machine/Encoder.lean ====
section
/-! DEFINITION. The Bit-Engine Encoder (41_bit_engine_encoder.md): the plans of the raw shifts, their phases,
and the meanings of SHIFT_TMS, SHIFT_TDI, TRANSFER_TDI and of a reserved descriptor. -/

namespace Sys2Proof.Machine

open Sys2Proof

/-! ## Plans: the engine commands of a raw shift -/

/-- The length field of a short command of `n` clocks, `1 ≤ n ≤ 8` (30_encoding.md R83). -/
def lenField (n : Nat) : LenField := BitVec.ofNat 3 (n - 1)

/-- The TMS commands of `n` TMS bits: groups of at most 8, the bits past a group's end written as 0
(41_bit_engine_encoder.md R131). -/
def tmsPlan (data : List Byte) (n : Nat) : List Instr :=
  (List.range (ceilDiv8 n)).map fun k =>
    let g := min Config.tmsGroupMax (n - 8 * k)
    .tmsOut (lenField g) (lowBits g (memByte data k))

/-- The three commands of a data shift: capturing (R136) or not (R134). -/
def bytesInstr (capture : Bool) (payload : List Byte) : Instr :=
  if capture then .bytesInout payload else .bytesOut payload

/-- See `bytesInstr`. -/
def bitsInstr (capture : Bool) (l : LenField) (d : Byte) : Instr :=
  if capture then .bitsInout l d else .bitsOut l d

/-- See `bytesInstr`. -/
def finalInstr (capture : Bool) (d : Byte) : Instr :=
  if capture then .tmsInout 0 d else .tmsOut 0 d

/-- The bytes commands of the first `b` bytes of DATA, at most `m` bytes each (41_bit_engine_encoder.md R133,
R134). -/
def bytesPlan (m : Nat) (capture : Bool) (data : List Byte) (b : Nat) : List Instr :=
  (List.range ((b + m - 1) / m)).map fun c =>
    bytesInstr capture (memRead data (m * c) (min m (b - m * c)))

/-- The data byte of the final-bit command: TMS 1 in bit 0, the final TDI bit in bit 7
(41_bit_engine_encoder.md R134). -/
def finalByte (t : Bool) : Byte := 0x01 ||| (if t then 0x80 else 0x00)

/-- The commands of a data shift of `n` bits: whole bytes, then the partial bits if there are any, then the
final bit with TMS 1 (41_bit_engine_encoder.md R133, R134, R136). -/
def tdiPlan (capture : Bool) (data : List Byte) (n : Nat) : List Instr :=
  let b := wholeBytes n
  let r := remainderBits n
  bytesPlan Config.bulkMaxBytes capture data b ++
    (if 2 ≤ r then [bitsInstr capture (lenField (r - 1)) (lowBits (r - 1) (memByte data b))] else []) ++
    [finalInstr capture (finalByte (bufBit data (n - 1)))]

/-! ## Phases -/

/-- `ShiftTms(data, n)`: SHIFT_TMS without its Check (42_tap_controller.md R161). -/
def shiftTmsPhase (data : List Byte) (n : Nat) (s : State) : Flow := emitAll (tmsPlan data n) s

/-- `ShiftTdi(data, n)`: SHIFT_TDI without its Check (42_tap_controller.md R164). -/
def shiftTdiPhase (data : List Byte) (n : Nat) (s : State) : Flow := emitAll (tdiPlan false data n) s

/-- `RESULT <- TransferTdi(data, n)`: TRANSFER_TDI without its Check (42_tap_controller.md R165). The read is
made after every byte of the phase is written (41_bit_engine_encoder.md R137). -/
def transferTdiPhase (data : List Byte) (n : Nat) (s : State) : Flow :=
  (emitAll (tdiPlan true data n) s).andThen fun t =>
    receive (replyCount n) (rebuild t.params.captureJustify n) t

/-! ## Meanings -/

/-- `SHIFT_TMS` (41_bit_engine_encoder.md R131). -/
def execShiftTms (count : Count) (data : List Byte) (s : State) : Host.Outcome State Fault Refusal :=
  checked count.toNat data true false (fun s => (shiftTmsPhase data count.toNat s).returnedEmpty) s

/-- `SHIFT_TDI` (41_bit_engine_encoder.md R134). -/
def execShiftTdi (count : Count) (data : List Byte) (s : State) : Host.Outcome State Fault Refusal :=
  checked count.toNat data true false (fun s => (shiftTdiPhase data count.toNat s).returnedEmpty) s

/-- `TRANSFER_TDI` (41_bit_engine_encoder.md R136). -/
def execTransferTdi (count : Count) (data : List Byte) (s : State) : Host.Outcome State Fault Refusal :=
  checked count.toNat data true false (fun s => (transferTdiPhase data count.toNat s).returned) s

/-- A descriptor with a reserved OP: the contract fault IllegalOperation, no byte written (30_encoding.md R73,
60_exceptions.md R262). It comes after the stuck case and before every other check (R264). -/
def execReservedOp (_op : Byte) (_count : Count) (_data : List Byte) (s : State) :
    Host.Outcome State Fault Refusal :=
  match s.fault with
  | some k => .fault (.blockStuck k)
  | none => .next (raiseFault .illegalOperation s)

end Sys2Proof.Machine
end

