-- ==== Sys2Proof/Machine/TapController.lean ====
section
/-! DEFINITION. The TAP Controller (42_tap_controller.md): the fixed walks, the entry with its fold, and the
meanings of TAP_RESET, IDLE, SHIFT_IR, TRANSFER_IR, SHIFT_DR and TRANSFER_DR. -/

namespace Sys2Proof.Machine

open Sys2Proof

/-! ## The fixed walks (42_tap_controller.md R160) -/

/-- `RESET_SEQ`: five bytes of all ones. -/
def resetSeq : List Byte := List.replicate Config.resetTmsBytes 0xFF

/-- `ENTRY_IR`, clocks 1, 1, 0, 0. -/
def entryIr : Byte := 0x03

/-- `ENTRY_DR`, clocks 1, 0, 0. -/
def entryDr : Byte := 0x01

/-- `EXIT`, clocks 1, 0. -/
def exitSeq : Byte := 0x01

/-! ## Phases -/

/-- Whether a fold is pending: the shadow is exactly `{TLR}` (42_tap_controller.md R161). -/
def foldPending (s : State) : Bool := s.tapShadow == single .tlr

/-- `Entry(v, k)`: the walk `v` of `k` clocks, with one leading TMS-0 clock when the shadow is `{TLR}`
(42_tap_controller.md R161). -/
def entryPhase (v : Byte) (k : Nat) (s : State) : Flow :=
  if foldPending s then shiftTmsPhase [v <<< 1] (k + 1) s else shiftTmsPhase [v] k s

/-- `ShiftTms(EXIT, 2)`. -/
def exitPhase (s : State) : Flow := shiftTmsPhase [exitSeq] 2 s

/-- Entry, data phase, exit: the body of a scan that captures nothing (42_tap_controller.md R164, R166). -/
def shiftScan (v : Byte) (k : Nat) (data : List Byte) (n : Nat) (s : State) : Flow :=
  ((entryPhase v k s).andThen (shiftTdiPhase data n)).andThen exitPhase

/-- Entry, capturing data phase, exit: the exit is written only after the read succeeded (42_tap_controller.md
R165, R167). -/
def transferScan (v : Byte) (k : Nat) (data : List Byte) (n : Nat) (s : State) : Flow :=
  ((entryPhase v k s).andThen (transferTdiPhase data n)).andThen exitPhase

/-- The body of `idle(c)`, `c > 0`: `c` TMS-0 clocks, one more for a pending fold (42_tap_controller.md
R163). -/
def idlePhase (c : Nat) (s : State) : Flow :=
  let k := c + (if foldPending s then 1 else 0)
  shiftTmsPhase (List.replicate (ceilDiv8 k) 0) k s

/-! ## Meanings -/

/-- `TAP_RESET` (42_tap_controller.md R162): accepted from any shadow. -/
def execTapReset (s : State) : Host.Outcome State Fault Refusal :=
  checked 0 [] false false (fun s => (shiftTmsPhase resetSeq 40 s).returnedEmpty) s

/-- `IDLE` (42_tap_controller.md R163): `idle(0)` makes no check but the stuck one. -/
def execIdle (cycles : Count) (s : State) : Host.Outcome State Fault Refusal :=
  match s.fault with
  | some k => .fault (.blockStuck k)
  | none =>
    if cycles = 0 then (Flow.run s).returnedEmpty
    else checked cycles.toNat [] false true (fun s => (idlePhase cycles.toNat s).returnedEmpty) s

/-- `SHIFT_IR` (42_tap_controller.md R164). -/
def execShiftIr (count : Count) (data : List Byte) (s : State) : Host.Outcome State Fault Refusal :=
  checked count.toNat data true true
    (fun s => (shiftScan entryIr 4 data count.toNat s).returnedEmpty) s

/-- `TRANSFER_IR` (42_tap_controller.md R165). -/
def execTransferIr (count : Count) (data : List Byte) (s : State) : Host.Outcome State Fault Refusal :=
  checked count.toNat data true true (fun s => (transferScan entryIr 4 data count.toNat s).returned) s

/-- `SHIFT_DR` (42_tap_controller.md R166). -/
def execShiftDr (count : Count) (data : List Byte) (s : State) : Host.Outcome State Fault Refusal :=
  checked count.toNat data true true
    (fun s => (shiftScan entryDr 3 data count.toNat s).returnedEmpty) s

/-- `TRANSFER_DR` (42_tap_controller.md R167). -/
def execTransferDr (count : Count) (data : List Byte) (s : State) : Host.Outcome State Fault Refusal :=
  checked count.toNat data true true (fun s => (transferScan entryDr 3 data count.toNat s).returned) s

end Sys2Proof.Machine
end

