-- ==== Sys2Proof/Machine/Dispatch.lean ====
section
/-! DEFINITION. One arm per instruction: the call of its meaning. -/

namespace Sys2Proof.Machine

open Sys2Proof

def exec (i : Instr) (s : State) : Host.Outcome State Fault Refusal :=
  match i with
  | .shiftTms count data => Sys2Proof.Machine.execShiftTms count data s
  | .shiftTdi count data => Sys2Proof.Machine.execShiftTdi count data s
  | .transferTdi count data => Sys2Proof.Machine.execTransferTdi count data s
  | .tapReset => Sys2Proof.Machine.execTapReset s
  | .idle cycles => Sys2Proof.Machine.execIdle cycles s
  | .shiftIr count data => Sys2Proof.Machine.execShiftIr count data s
  | .transferIr count data => Sys2Proof.Machine.execTransferIr count data s
  | .shiftDr count data => Sys2Proof.Machine.execShiftDr count data s
  | .transferDr count data => Sys2Proof.Machine.execTransferDr count data s
  | .reservedOp op count data => Sys2Proof.Machine.execReservedOp op count data s
  | .tmsOut l d => Sys2Proof.Machine.execTmsOut l d s
  | .tmsInout l d => Sys2Proof.Machine.execTmsInout l d s
  | .bytesOut payload => Sys2Proof.Machine.execBytesOut payload s
  | .bytesInout payload => Sys2Proof.Machine.execBytesInout payload s
  | .bitsOut l d => Sys2Proof.Machine.execBitsOut l d s
  | .bitsInout l d => Sys2Proof.Machine.execBitsInout l d s

end Sys2Proof.Machine
end

