-- ==== Sys2Proof/Machine/Port.lean ====
section
/-! DEFINITION. The command port: accepting one operation (30_encoding.md R71), and the host's actions on the
transport and the block's power (70_reset_and_hazards.md). -/

namespace Sys2Proof.Machine

open Sys2Proof

/-- The host writes OP, COUNT and DATA (10_state.md R21). -/
def loadPort (op : Byte) (count : Count) (data : List Byte) (s : State) : State :=
  { s with op := op, count := count, data := data }

/-- The block decodes the descriptor on the port and runs it. -/
def accept (op : Byte) (count : Count) (data : List Byte) (s : State) : Host.Outcome State Fault Refusal :=
  exec (decodeRequest op count data) (loadPort op count data s)

/-- The purge (70_reset_and_hazards.md R294, 40_engine_commands.md R113): the engine's buffers are emptied and
`desync` is cleared. The shadows, `fault`, the TMS latch and the chain stay. -/
def purge (s : State) : State := { s with desync := false, cmdQueue := [], replyQueue := [] }

/-- The host's initialisation of the transport (70_reset_and_hazards.md R292, 40_engine_commands.md R101):
buffers emptied, loopback off, the TMS level not given (a free value, log 5). -/
def initTransport (s : State) : State :=
  { s with
    cmdQueue := []
    replyQueue := []
    loopback := false
    tmsPin := Config.freeLevel s.freeCount
    freeCount := s.freeCount + 1 }

/-- The block's power-up values (70_reset_and_hazards.md R290). STATUS and RESULT are not defined then, so they
take the values of log 4. -/
def powerUpBlock (s : State) : State :=
  { s with
    tapShadow := allStates
    tmsShadow := .x
    desync := false
    fault := none
    txLog := []
    rxLog := []
    op := 0
    count := 0
    data := []
    status := 0
    subcause := 0
    result := [] }

/-- A host action. Power-up follows the initialisation of the transport, the boot order of
70_reset_and_hazards.md R292 (log 18). -/
def hostAct (a : HostAction) (s : State) : State :=
  match a with
  | .purge => purge s
  | .setLoopback on => { s with loopback := on }
  | .powerUp => powerUpBlock (initTransport s)

end Sys2Proof.Machine
end

