-- ==== Sys2Proof/Machine/Client.lean ====
section
/-! DEFINITION. The client procedures over the block (46_client_procedures.md): the Chain Scanner, target
selection and the addressed register transfer. -/

namespace Sys2Proof.Machine

open Sys2Proof

/-! ## Running block operations (46_client_procedures.md R220) -/

/-- How a part of a client procedure ends. -/
inductive Client (α : Type) where
  | done (a : α) (s : State)
  /-- An error of the procedure: a code and a subcause (60_exceptions.md R261). -/
  | error (code subcause : Byte) (s : State)
  /-- A contract fault of the client (60_exceptions.md R262). -/
  | contract (kind : ContractFault) (s : State)
  | fault (f : Fault)
  | refused (r : Refusal)
deriving DecidableEq, Repr

/-- The next part of a procedure. -/
def Client.andThen {α β : Type} (c : Client α) (g : α → State → Client β) : Client β :=
  match c with
  | .done a s => g a s
  | .error code sub s => .error code sub s
  | .contract k s => .contract k s
  | .fault f => .fault f
  | .refused r => .refused r

/-- An error the client itself raises. -/
def Client.raise {α : Type} (e : ErrorKind) (s : State) : Client α := .error e.code e.subcause s

/-- One block operation with `n` bits or cycles: its RESULT, or its STATUS as the procedure's error (R220). A
count that COUNT cannot hold is refused (log 20). -/
def issue (op : Byte) (n : Nat) (data : List Byte) (s : State) : Client (List Byte) :=
  if n < 2 ^ 32 then
    match accept op (BitVec.ofNat 32 n) data s with
    | .next t => if t.status = statusOk then .done t.result t else .error t.status t.subcause t
    | .fault f => .fault f
    | .refused r => .refused r
  else .refused (.countNotEncodable n)

/-- `reset()`. -/
def issueReset (s : State) : Client (List Byte) := issue 0x10 0 [] s

/-! ## Chain Scanner -/

/-- `ones(k bytes)`. -/
def ones (k : Nat) : List Byte := List.replicate k 0xFF

/-- `ParseIdcodes` from word `w` on, at most `m` words: stops at the sentinel `0xFFFFFFFF`
(46_client_procedures.md R225). -/
def parseIdcodes (cap : List Byte) : (m w : Nat) → List (BitVec 32)
  | 0, _ => []
  | m + 1, w =>
    let v : BitVec 32 := BitVec.ofNat 32 (bufNat cap (32 * w) 32)
    if v = 0xFFFFFFFF then [] else v :: parseIdcodes cap m (w + 1)

/-- `IdcodePass` (46_client_procedures.md R224). -/
def idcodePass (s : State) : Client (List (BitVec 32)) :=
  let m := s.params.maxDeviceCount
  (issueReset s).andThen fun _ s1 =>
    (issue 0x15 (32 * m) (ones (4 * m)) s1).andThen fun cap s2 => .done (parseIdcodes cap m 0) s2

/-- The number of trailing zero bits of `a`, counting at most `fuel`. -/
def trailingZeros : (fuel a : Nat) → Nat
  | 0, _ => 0
  | fuel + 1, a => if a % 2 = 1 then 0 else 1 + trailingZeros fuel (a / 2)

/-- The decoder's inner loop (46_client_procedures.md R227): pull bytes until a boundary lies within the `nb`
valid bits of `acc`. The answer is the accumulator with bit 0 cleared, the valid-bit count and the bytes left,
or none for a protocol error. -/
def findBoundary : (cap : List Byte) → (acc nb : Nat) → Option (Nat × Nat × List Byte)
  | cap, acc, nb =>
    if acc % 2 = 1 then
      let a := acc - 1
      if a % 2 ^ nb ≠ 0 then some (a, nb, cap)
      else
        match cap with
        | [] => none
        | b :: rest => findBoundary rest (acc ||| b.toNat <<< nb) (nb + 8)
    else none

/-- `DecodeIrLengths` for `k` TAPs (46_client_procedures.md R227): the lengths, or none for
InvalidIrBoundary. -/
def decodeIrLengths : (k : Nat) → (cap : List Byte) → (acc nb : Nat) → Option (List Nat)
  | 0, _, _, _ => some []
  | k + 1, cap, acc, nb =>
    let pulled : List Byte × Nat × Nat :=
      if nb < 8 then
        match cap with
        | [] => (cap, acc, nb)
        | b :: rest => (rest, acc ||| b.toNat <<< nb, nb + 8)
      else (cap, acc, nb)
    match findBoundary pulled.1 pulled.2.1 pulled.2.2 with
    | none => none
    | some (a, nb1, cap1) =>
      let len := trailingZeros nb1 a
      match decodeIrLengths k cap1 (a / 2 ^ len) (nb1 - len) with
      | none => none
      | some lens => some (len :: lens)

/-- `IrLengthPass(k)` (46_client_procedures.md R226). DESIGN CHOICE (log 31): with IR_SCAN_BITS = 0 its
`transfer_ir` of no bits ends with the block's ZeroCount, where 93_implementation_defined.md I15 names
InvalidIrBoundary. -/
def irLengthPass (k : Nat) (s : State) : Client (List Nat) :=
  let n := s.params.irScanBits
  (issueReset s).andThen fun _ s1 =>
    (issue 0x13 n (ones (ceilDiv8 n)) s1).andThen fun cap s2 =>
      match decodeIrLengths k cap 0 0 with
      | some lens => .done lens s2
      | none => .raise .invalidIrBoundary s2

/-- `scan()` (46_client_procedures.md R223). A configuration with no device is refused
(93_implementation_defined.md I18). -/
def scan (s : State) : Client (List TapDescriptor) :=
  if s.params.maxDeviceCount = 0 then .refused .badClientConfiguration
  else
    (idcodePass s).andThen fun ids s1 =>
      (irLengthPass ids.length s1).andThen fun lens s2 =>
        .done (List.zipWith (fun id len => { idcode := id, irLength := len }) ids lens) s2

/-! ## Target selection -/

/-- `Σ ir_length`. -/
def irLengthSum (taps : List TapDescriptor) : Nat := (taps.map (·.irLength)).sum

/-- The chain parameters that address TAP `p` (46_client_procedures.md R228). -/
def chainParameters (taps : List TapDescriptor) (p : Nat) (target : TapDescriptor) : ChainParameters where
  irPre := irLengthSum (taps.take p)
  irPost := irLengthSum (taps.drop (p + 1))
  drPre := p
  drPost := taps.length - p - 1
  irLength := target.irLength

/-- `select_target(id)` (46_client_procedures.md R228): the first match wins, a failed selection leaves none. -/
def selectTarget (id : BitVec 32) (s : State) : Client Unit :=
  (scan { s with selection := none }).andThen fun taps s1 =>
    let p := taps.findIdx fun t => t.idcode == id
    match taps[p]? with
    | none => .raise .targetNotFound s1
    | some target => .done () { s1 with selection := some (chainParameters taps p target) }

/-! ## Addressed register transfer -/

/-- `IrValue(c, a)` (46_client_procedures.md R230). -/
def irValue (c : ChainParameters) (address : Nat) : Nat :=
  (2 ^ c.irPre - 1) ||| address <<< c.irPre ||| (2 ^ c.irPost - 1) <<< (c.irPre + c.irLength)

/-- `DrValue(c, d, len)` (46_client_procedures.md R231). -/
def drValue (c : ChainParameters) (value len : Nat) : Nat := (value % 2 ^ len) <<< c.drPre

/-- Whether an access of `len` bits meets a target whose selected data register is `len` bits wide, which the
decode needs (46_client_procedures.md R231). In loopback the chain plays no part. DESIGN CHOICE (log 29): after a
stale selection (70_reset_and_hazards.md R295 (h)) the TAP that now stands at its index is the target, and an
index with no TAP has no register. -/
def lengthFits (c : ChainParameters) (len : Nat) (s : State) : Bool :=
  s.loopback || ((s.taps[c.drPre]?).map fun t => t.drWidth == len).getD true

/-- A TAP whose selected data register holds any value. BYPASS and IDCODE keep nothing
(45_reference_target.md R200). -/
def Tap.spoil (t : Tap) (draw tap : Nat) : Tap :=
  match t.selected with
  | .echo => { t with echo := Config.freeRegister draw tap 2 % 2 ^ t.echoLen }
  | .bypass => t
  | .idcode => t

/-- The target's register after a write of another length: any value (93_implementation_defined.md I14;
log 29), once the engine has run the exit walk. -/
def spoilTarget (c : ChainParameters) (s : State) : State :=
  let e := engineDrain s
  { e with
    taps := e.taps.modify c.drPre fun t => t.spoil e.freeCount c.drPre
    freeCount := e.freeCount + 1 }

/-- A free result has been drawn; a read changes nothing else (93_implementation_defined.md I14; log 29). -/
def drawResult (s : State) : State := { s with freeCount := s.freeCount + 1 }

/-- The end of an access: the decoded result, or any value where the length does not fit, and then the target's
register is any value after a write only (R231, 93_implementation_defined.md I14; log 29). -/
def accessResult (write : Bool) (c : ChainParameters) (cap : List Byte) (len : Nat) (s : State) :
    Client Nat :=
  if lengthFits c len s then .done (bufNat cap c.drPre len) s
  else .done (Config.freeResult s.freeCount % 2 ^ len) (if write then spoilTarget c s else drawResult s)

/-- `Access(address, data, len)` (46_client_procedures.md R229 to R232): the checks in their order, then
`shift_ir`, `transfer_dr`, the decode and the settle idle. `write` tells `write_register` from `read_register`. -/
def access (write : Bool) (address value len : Nat) (s : State) : Client Nat :=
  match s.selection with
  | none => .raise .targetNotSelected s
  | some c =>
    let w := c.irPre + c.irLength + c.irPost
    let d := c.drPre + len + c.drPost
    if 2 ^ c.irLength - 1 < address then .raise .addressOutOfRange s
    else if Config.irWidthMax < w then .contract .irWidthExceeded s
    else if len = 0 then .contract .zeroLength s
    else
      (issue 0x12 w (natBytes (ceilDiv8 w) (irValue c address)) s).andThen fun _ s1 =>
        (issue 0x15 d (natBytes (ceilDiv8 d) (drValue c value len)) s1).andThen fun cap s2 =>
          (issue 0x11 s2.params.idleCycles [] s2).andThen fun _ s3 => accessResult write c cap len s3

/-! ## Procedures -/

/-- A procedure, with what it answers when it succeeds (46_client_procedures.md R223, R228, R229, R233). -/
def runProc (p : ClientProc) (s : State) : Client ClientReply :=
  match p with
  | .scan => (scan s).andThen fun taps t => .done (.descriptors taps) t
  | .selectTarget id => (selectTarget id s).andThen fun _ t => .done .selected t
  | .readRegister address len => (access false address 0 len s).andThen fun v t => .done (.value v) t
  | .writeRegister address value len => (access true address value len s).andThen fun _ t => .done .written t
  | .readRegister32 address => (access false address 0 32 s).andThen fun v t => .done (.value v) t
  | .writeRegister32 address value =>
    (access true address value.toNat 32 s).andThen fun _ t => .done .written t

/-- A client procedure run to completion (46_client_procedures.md R234): its reply is held, and a client fault
stops the client for good (60_exceptions.md R262; log 19). -/
def clientTurn (p : ClientProc) (s : State) : Host.Outcome State Fault Refusal :=
  match s.clientFault with
  | some k => .fault (.clientStuck k)
  | none =>
    match runProc p s with
    | .done r t => .next { t with clientReply := r }
    | .error code sub t => .next { t with clientReply := .error code sub }
    | .contract k t => .next { t with clientReply := .contractFault k, clientFault := some k }
    | .fault f => .fault f
    | .refused r => .refused r

end Sys2Proof.Machine
end

