-- ==== Sys2Proof/Machine/Fetch.lean ====
section
/-! DEFINITION. Which agent moves next and what it fetches: the engine from its queue, the host from its
program. -/

namespace Sys2Proof.Machine

open Sys2Proof

/-- The engine's turn. -/
inductive Turn where
  /-- It runs this command, and these bytes stay in its queue. -/
  | command (i : Instr) (rest : List Byte)
  /-- It holds bytes the spec gives no meaning (log 17). -/
  | stalled (r : Refusal)
  /-- It has no complete command, or the streams are out of step and its behaviour is unconstrained
  (40_engine_commands.md R111). -/
  | waits
deriving DecidableEq, Repr

/-- Whether the engine moves, and with which command (40_engine_commands.md R100; log 11). -/
def engineTurn (s : State) : Turn :=
  if s.desync then .waits
  else
    match decodeCommand s.params s.cmdQueue with
    | .ok (i, rest) => .command i rest
    | .error .truncated => .waits
    | .error (.unknownOpcode b) => .stalled (.unknownEngineOpcode b)
    | .error (.lengthOutOfRange l) => .stalled (.engineLengthOutOfRange l)

/-- A request has returned: the host goes on to the next (10_state.md R22). -/
def requestReturned (rest : List Request) (o : Host.Outcome State Fault Refusal) :
    Host.Outcome State Fault Refusal :=
  match o with
  | .next t => .next { t with pending := rest, position := t.position + 1 }
  | .fault f => .fault f
  | .refused r => .refused r

/-- What a request does. -/
def serve (r : Request) (s : State) : Host.Outcome State Fault Refusal :=
  match r with
  | .operation op count data => accept op count data s
  | .action a => .next (hostAct a s)
  | .procedure p => clientTurn p s

/-- The host issues its next request. With none left, every agent waits (log 13). -/
def hostTurn (s : State) : Host.Outcome State Fault Refusal :=
  match s.pending with
  | [] => .next s
  | r :: rest => requestReturned rest (serve r s)

/-- A command stored where the engine fetches its next one. -/
def placeCommand (i : Instr) (s : State) : State :=
  { s with desync := false, cmdQueue := encode s.params i }

/-- A descriptor stored where the host's next request is taken from, with the engine's queue empty so that the
host moves next. -/
def placeRequest (op : Byte) (count : Count) (data : List Byte) (s : State) : State :=
  { s with cmdQueue := [], pending := .operation op count data :: s.pending }

/-- A table word stored where its agent fetches next (log 14). -/
def placeTableWord (nbits w : Nat) (s : State) : State :=
  match tableSpace Params.default ((layTableWord Params.default nbits w).getD 0 0) with
  | .port => let f := tableDescriptor nbits w; placeRequest f.1 f.2.1 f.2.2 s
  | .tx =>
    match decodeTableWord nbits w with
    | some i => placeCommand i s
    | none => s

end Sys2Proof.Machine
end

