-- ==== Sys2Proof/Safety.lean ====
section
/-! DEFINITION. The terms claims are stated in: when an operation is accepted, what the environment grants, the
TX bytes as the spec's pseudocode writes them, and the invariants of the machine. -/

namespace Sys2Proof.Safety

open Sys2Proof Sys2Proof.Machine

/-! ## Premises of an operation -/

/-- The block takes operations that write: no sticky fault, streams in step (41_bit_engine_encoder.md R130). -/
abbrev Accepting (s : State) : Prop := s.fault = none ∧ s.desync = false

/-- A payload of `n ≥ 1` bits that DATA holds (20_memory.md R52). -/
abbrev PayloadOk (count : Count) (data : List Byte) : Prop :=
  count ≠ 0 ∧ (count.toNat + 7) / 8 ≤ data.length

/-- The shadow is exactly `{RTI}` or exactly `{TLR}` (42_tap_controller.md R161). -/
abbrev ShadowKnown (s : State) : Prop := s.tapShadow = single .rti ∨ s.tapShadow = single .tlr

/-- The next `k` writes succeed. -/
def WritesOk (k : Nat) (s : State) : Prop :=
  match s.writeFails with
  | [] => True
  | n :: _ => k ≤ n

/-- The write outcomes after `k` successful writes. -/
def spendWrites (k : Nat) : List Nat → List Nat
  | [] => []
  | n :: later => (n - k) :: later

/-- The next read is answered in full. -/
def ReadFull (s : State) : Prop :=
  match s.readDraws with
  | [] => True
  | .full :: _ => True
  | .short _ :: _ => False
  | .ioError _ :: _ => False
  | .bytes _ :: _ => False

/-- The engine has run all it was given and the block has read all replies. -/
abbrev EngineIdle (s : State) : Prop := s.cmdQueue = [] ∧ s.replyQueue = []

/-- The commands a TX stream parses into, one after another until no byte is left (30_encoding.md R85), at most
`fuel` of them; none if some bytes are left over. -/
def parseStream (p : Params) : (fuel : Nat) → List Byte → Option (List Instr)
  | _, [] => some []
  | 0, _ :: _ => none
  | fuel + 1, b :: bs =>
    match decodeCommand p (b :: bs) with
    | .ok (i, rest) => (parseStream p fuel rest).map (i :: ·)
    | .error _ => none

/-! ## TX bytes, as the pseudocode emits them -/

/-- The TX bytes of `SHIFT_TMS` (41_bit_engine_encoder.md R131): for each group `k` of `g` clocks,
`OPC_TMS_OUT`, `g - 1` and the group's bits. -/
def tmsBytes (p : Params) (data : List Byte) (n : Nat) : List Byte :=
  (List.range ((n + 7) / 8)).flatMap fun k =>
    let g := min 8 (n - 8 * k)
    [p.opcTmsOut, BitVec.ofNat 8 (g - 1), BitVec.ofNat 8 ((data.getD k 0).toNat % 2 ^ g)]

/-- The bytes loop of R134 from offset `off`: chunks of at most 65536 bytes while `off < b`. -/
def bytesLoop (opc : Byte) (data : List Byte) (b : Nat) : (fuel off : Nat) → List Byte
  | 0, _ => []
  | fuel + 1, off =>
    if off < b then
      let m := min 65536 (b - off)
      [opc, BitVec.ofNat 8 (m - 1), BitVec.ofNat 8 ((m - 1) / 256)] ++ (data.drop off).take m ++
        bytesLoop opc data b fuel (off + m)
    else []

/-- The TX bytes of a data shift of `n` bits with the three opcodes given (41_bit_engine_encoder.md R134,
R136). -/
def tdiBytes (opcBytes opcBits opcTms : Byte) (data : List Byte) (n : Nat) : List Byte :=
  let b := (n - 1) / 8
  let r := n - 8 * b
  bytesLoop opcBytes data b b 0 ++
    (if 2 ≤ r then
      [opcBits, BitVec.ofNat 8 (r - 2), BitVec.ofNat 8 ((data.getD b 0).toNat % 2 ^ (r - 1))]
    else []) ++
    [opcTms, 0x00, if bufBit data (n - 1) then 0x81 else 0x01]

/-- The engine commands of a data shift: `K` bytes commands, a bits command if `r ≥ 2`, the final-bit command
(70_reset_and_hazards.md R297). -/
def tdiCommands (n : Nat) : Nat :=
  let b := (n - 1) / 8
  (b + 65535) / 65536 + (if 2 ≤ n - 8 * b then 1 else 0) + 1

/-- The set after the clocks of a data shift of `n` bits at the level `l`: `n - 1` data clocks, then one clock
with TMS 1 (41_bit_engine_encoder.md R135). -/
def tdiShadow (n : Nat) (S : TapSet) (l : TmsLevel) : TapSet :=
  stepSet ((fun S => stepSet S l)^[n - 1] S) .high

/-! ## What the engine does with a run of clocks -/

/-- The chain after clocks of given TMS and TDI levels (40_engine_commands.md R102, outside loopback). -/
def chainAfter (taps : List Tap) (clocks : List (Bool × Bool)) : List Tap :=
  clocks.foldl (fun ts c => clockChain ts c.1 c.2) taps

/-- The TDO sample of each clock of a run (40_engine_commands.md R102, outside loopback). -/
def samplesOf (taps : List Tap) : (clocks : List (Bool × Bool)) → List Bool
  | [] => []
  | c :: cs => chainTdo taps :: samplesOf (clockChain taps c.1 c.2) cs

/-- The clocks of a data shift of `n` bits: the data clocks at level `pin`, then the final clock with TMS 1. -/
def tdiClocks (data : List Byte) (n : Nat) (pin : Bool) : List (Bool × Bool) :=
  (bufBits data (n - 1)).map (fun b => (pin, b)) ++ [(true, bufBit data (n - 1))]

/-- The bits of a chain's data shift registers in the order they come out at TDO, TAP nearest TDO first
(45_reference_target.md R190, R196). -/
def drPath (taps : List Tap) : List Bool :=
  taps.flatMap fun t => (List.range t.drWidth).map t.drSr.testBit

/-- The bits of a chain's instruction shift registers in the order they come out at TDO. -/
def irPath (taps : List Tap) : List Bool :=
  taps.flatMap fun t => (List.range t.irLength).map t.irSr.testBit

/-- The TMS command bytes of an entry walk: with the fold from `{TLR}`, without it from `{RTI}`
(42_tap_controller.md R160, R161). -/
def entryBytes (p : Params) (S : TapSet) (folded plain : Byte × Byte) : List Byte :=
  if S = single .tlr then [p.opcTmsOut, folded.1, folded.2] else [p.opcTmsOut, plain.1, plain.2]

/-- The TX bytes of ENTRY_IR. -/
def entryIrBytes (p : Params) (S : TapSet) : List Byte := entryBytes p S (0x04, 0x06) (0x03, 0x03)

/-- The TX bytes of ENTRY_DR. -/
def entryDrBytes (p : Params) (S : TapSet) : List Byte := entryBytes p S (0x03, 0x02) (0x02, 0x01)

/-- The TX bytes of EXIT. -/
def exitBytes (p : Params) : List Byte := [p.opcTmsOut, 0x01, 0x01]

/-- The clocks of an entry walk, TDI 0 throughout: the walk's TMS bits, after one TMS-0 clock from `{TLR}`. -/
def entryClocks (S : TapSet) (bits : List Bool) : List (Bool × Bool) :=
  ((if S = single .tlr then [false] else []) ++ bits).map fun t => (t, false)

/-- The TX bytes of the data phase of a non-capturing shift. -/
def shiftBytes (p : Params) (data : List Byte) (n : Nat) : List Byte :=
  tdiBytes p.opcBytesOut p.opcBitsOut p.opcTmsOut data n

/-- The TX bytes of the data phase of a capturing shift. -/
def transferBytes (p : Params) (data : List Byte) (n : Nat) : List Byte :=
  tdiBytes p.opcBytesInout p.opcBitsInout p.opcTmsInout data n

/-- The reply bytes a capturing shift reads: `E = B + [r ≥ 2] + 1` (41_bit_engine_encoder.md R137). -/
def expectedReplies (n : Nat) : Nat :=
  (n - 1) / 8 + (if 2 ≤ n - 8 * ((n - 1) / 8) then 1 else 0) + 1

/-- The partial replies of a capturing shift, each of which draws one free value (log 8). -/
def partialReplies (n : Nat) : Nat := (if 2 ≤ n - 8 * ((n - 1) / 8) then 1 else 0) + 1

/-- A RESULT of `n` bits holds the given samples: `ceil(n/8)` bytes, bit `i` the sample of clock `i`, every
higher bit 0 (20_memory.md R51, R53). -/
def HoldsSamples (result : List Byte) (n : Nat) (samples : List Bool) : Prop :=
  result.length = (n + 7) / 8 ∧ samples.length = n ∧
    ∀ i, bufBit result i = samples.getD i false

/-- A reply byte holds the samples of a partial capture where the justification puts them
(40_engine_commands.md R109). -/
def PackedAt (j : Justify) (b : Byte) (samples : List Bool) : Prop :=
  ∀ k, k < samples.length →
    b.getLsbD ((match j with | .left => 8 - samples.length | .right => 0) + k) = samples.getD k false

/-- An instruction ends with a contract fault (41_bit_engine_encoder.md R130, 60_exceptions.md R262): `fault` and
STATUS are set, the reply's RESULT and subcause are not named, and nothing else changes. -/
def Raises (i : Instr) (kind : ContractFault) (code : Byte) (s : State) : Prop :=
  ∃ subcause result, exec i s =
    .next { s with fault := some kind, status := code, subcause := subcause, result := result }

/-- What a transport error leaves in the block (60_exceptions.md R263). -/
def TransportErrorState (t : State) (code subcause : Byte) : Prop :=
  t.tapShadow = allStates ∧ t.tmsShadow = .x ∧ t.desync = true ∧ t.status = code ∧ t.subcause = subcause ∧
    t.result = [] ∧ t.fault = none

/-! ## Register accesses -/

/-- The IR value of a register access as a bit buffer (46_client_procedures.md R230): ones for the preceding TAPs,
the address, ones for the following TAPs, nothing above. -/
def IrRequest (c : ChainParameters) (address : Nat) (buf : List Byte) : Prop :=
  buf.length = (c.irPre + c.irLength + c.irPost + 7) / 8 ∧
    ∀ i, bufBit buf i =
      (if i < c.irPre then true
      else if i < c.irPre + c.irLength then address.testBit (i - c.irPre)
      else decide (i < c.irPre + c.irLength + c.irPost))

/-- The DR request of a register access as a bit buffer (46_client_procedures.md R231): zeros for the preceding TAPs,
the low `len` bits of the value, zeros for the following TAPs. -/
def DrRequest (c : ChainParameters) (value len : Nat) (buf : List Byte) : Prop :=
  buf.length = (c.drPre + len + c.drPost + 7) / 8 ∧
    ∀ i, bufBit buf i = (decide (c.drPre ≤ i ∧ i < c.drPre + len) && value.testBit (i - c.drPre))

/-- Chain parameters describe a chain as `select_target` computes them (46_client_procedures.md R228). -/
def Describes (c : ChainParameters) (taps : List Tap) : Prop :=
  ∃ target, taps[c.drPre]? = some target ∧ c.irLength = target.irLength ∧
    c.irPre = ((taps.take c.drPre).map (·.irLength)).sum ∧
    c.irPost = ((taps.drop (c.drPre + 1)).map (·.irLength)).sum ∧ c.drPost = taps.length - c.drPre - 1

/-! ## Invariants -/

/-- Every TAP's state is in the block's shadow, and the block's TMS level is unknown or the engine's
(10_state.md R35). -/
def Covers (s : State) : Prop :=
  (∀ t ∈ s.taps, holds s.tapShadow t.state = true) ∧
    (s.tmsShadow = .x ∨ s.tmsShadow = .ofBool s.tmsPin)

/-- The streams are in step: once the engine has run what it holds nothing is left of it, and the shadow covers
the chain. A block that knows it is out of step assumes nothing (60_exceptions.md R263). -/
def InStep (s : State) : Prop :=
  if s.desync then s.tapShadow = allStates ∧ s.tmsShadow = .x
  else (engineDrain s).cmdQueue = [] ∧ Covers (engineDrain s)

/-- The invariant of the block and its environment (10_state.md R35, outside loopback: R112). -/
def Tracks (s : State) : Prop := s.params.distinct ∧ s.loopback = false ∧ InStep s

/-- The state a register access needs to run to its end: the selection describes the chain, the block is in
Run-Test/Idle or Test-Logic-Reset and in step with a chain of legal TAPs, the engine has no reply left over, and
every write and read succeeds. -/
def ReadyForAccess (c : ChainParameters) (s : State) : Prop :=
  Accepting s ∧ s.clientFault = none ∧ s.selection = some c ∧ Describes c s.taps ∧ Tracks s ∧ ShadowKnown s ∧
    (∀ t ∈ s.taps, t.legal = true ∧ t.fits = true) ∧ (engineDrain s).replyQueue = [] ∧
    s.writeFails = [] ∧ s.readDraws = [] ∧ s.params.idleCycles < 2 ^ 32

/-- The host's next request does not put the engine in loopback, where the chain is unknown (R201). -/
def NoLoopbackNext (s : State) : Prop := s.pending.head? ≠ some (.action (.setLoopback true))

/-- A contract fault the block raises (60_exceptions.md R262). -/
def isBlockFault : ContractFault → Bool
  | .illegalOperation | .resyncRequired | .zeroCount | .bufferTooShort | .tapStateIndeterminate => true
  | .irWidthExceeded | .zeroLength => false

/-- The state keeps within its types of R20, R191, R192 and R262: legal parameters, a shadow that is not empty,
block faults in `fault`, client faults in `clientFault`, legal TAPs whose registers fit. -/
def Valid (s : State) : Prop :=
  s.params.wf ∧ s.tapShadow ≠ 0 ∧ (∀ k, s.fault = some k → isBlockFault k = true) ∧
    (∀ k, s.clientFault = some k → isBlockFault k = false) ∧
    (∀ t ∈ s.taps, t.legal = true ∧ t.fits = true)

end Sys2Proof.Safety
end

