-- ==== Sys2Proof/Certificates/Slice0/Obligations.lean ====
section
/-! DEFINITION. The statements about the machine, one definition each. -/

open Sys2Proof Sys2Proof.Machine Sys2Proof.Safety

/-! ## Encoding and fetch -/

/-- Both encodings (30_encoding.md R70): decoding an encoded well-formed instruction gives it back, with every
operand at every value. -/
def Obligations.DecodeEncodeAgree : Prop :=
  ∀ (p : Params) (i : Instr), p.distinct → i.wf = true →
    decode p i.space (encode p i) = .ok (i, [])

/-- A TX stream of commands parses back into exactly those commands, in order and with nothing left
(30_encoding.md R84, R85). -/
def Obligations.TxStreamParsesIntoItsCommands : Prop :=
  ∀ (p : Params) (cmds : List Instr), p.distinct → (∀ i ∈ cmds, i.wf = true ∧ i.space = .tx) →
    parseStream p (cmds.flatMap (encode p)).length (cmds.flatMap (encode p)) = some cmds

/-- Words written out from the spec's encodings decode to their instructions (sanity; the descriptor's byte
layout is the model's, log 1, and the opcodes are the defaults of R9). -/
def Obligations.SpecWordsDecode : Prop :=
  decodeTableWord 56 0x05AB0000000B01 = some (.shiftTms 11 [0xAB, 0x05]) ∧
  decodeTableWord 8 0x10 = some .tapReset ∧
  decodeTableWord 40 0x0000000A11 = some (.idle 10) ∧
  decodeTableWord 48 0x010000000512 = some (.shiftIr 5 [0x01]) ∧
  decodeTableWord 8 0x04 = some (.reservedOp 0x04 0 []) ∧
  decodeTableWord 24 0x81004B = some (.tmsOut 0 0x81) ∧
  decodeTableWord 24 0x0F033B = some (.bitsInout 3 0x0F) ∧
  decodeTableWord 48 0x00563D000219 = some (.bytesOut [0x3D, 0x56, 0x00])

/-- A reserved OP encodes no operation, and the block raises IllegalOperation for it without writing a byte
(30_encoding.md R73). -/
def Obligations.ReservedOpRaisesIllegalOperation : Prop :=
  ∀ (op : Byte) (count : Count) (data : List Byte) (s : State),
    (op = 0x00 ∨ (0x04 ≤ op ∧ op ≤ 0x0F) ∨ 0x16 ≤ op) → s.fault = none →
      decodeOperation op count data = none ∧ decodeRequest op count data = .reservedOp op count data ∧
      Raises (.reservedOp op count data) .illegalOperation 0x80 s

/-- A step runs the command at the front of the engine's queue, or else the descriptor of the host's next
request, after which the host's position is one further (10_state.md R22, 40_engine_commands.md R100; the order
of the agents is log 11). -/
def Obligations.StepRunsTheDecodedInstruction : Prop :=
  (∀ (s : State) (i : Instr) (rest : List Byte), s.desync = false →
    decodeCommand s.params s.cmdQueue = .ok (i, rest) → step s = exec i { s with cmdQueue := rest }) ∧
  (∀ (s : State) (op : Byte) (count : Count) (data : List Byte) (rest : List Request),
    (s.desync = true ∨ decodeCommand s.params s.cmdQueue = .error .truncated) →
    s.pending = .operation op count data :: rest →
      (∀ t, exec (decodeRequest op count data) { s with op := op, count := count, data := data } = .next t →
        step s = .next { t with pending := rest, position := t.position + 1 }) ∧
      (∀ f, exec (decodeRequest op count data) { s with op := op, count := count, data := data } = .fault f →
        step s = .fault f) ∧
      (∀ r, exec (decodeRequest op count data) { s with op := op, count := count, data := data } =
        .refused r → step s = .refused r))

/-! ## The TAP state machine -/

/-- `Step(S, t)` is the set of the states that a member of `S` moves to, over both levels when the level is
unknown; `Walk` is `Step` after `Step`; `ALL` holds every state and a singleton exactly its own (10_state.md
R27). -/
def Obligations.StepSetIsTheImage : Prop :=
  (∀ (S : TapSet) (s' : TapState),
    (holds (stepSet S .low) s' = true ↔ ∃ s, holds S s = true ∧ s.next false = s') ∧
    (holds (stepSet S .high) s' = true ↔ ∃ s, holds S s = true ∧ s.next true = s') ∧
    (holds (stepSet S .x) s' = true ↔ holds (stepSet S .low) s' = true ∨ holds (stepSet S .high) s' = true)) ∧
  (∀ (S : TapSet) (ts : List Bool) (t : Bool), walk S [] = S ∧
    walk S (ts ++ [t]) = stepSet (walk S ts) (if t then .high else .low)) ∧
  (∀ a b, holds allStates a = true ∧ (holds (single a) b = true ↔ a = b)) ∧
  walk allStates [true, true, true, true, true] = single .tlr

/-- The facts (a) to (g) of the transition table (10_state.md R26), the states visited included. -/
def Obligations.TransitionTableFacts : Prop :=
  (∀ (s : TapState) (k : Nat), (List.replicate (5 + k) true).foldl TapState.next s = .tlr) ∧
  (TapState.next .rti true = .selDr ∧ TapState.next .selDr true = .selIr ∧ TapState.next .selIr false = .capIr ∧
    TapState.next .capIr false = .shIr) ∧
  (TapState.next .selDr false = .capDr ∧ TapState.next .capDr false = .shDr) ∧
  (TapState.next .ex1Ir true = .upIr ∧ TapState.next .upIr false = .rti ∧ TapState.next .ex1Dr true = .upDr ∧
    TapState.next .upDr false = .rti) ∧
  (TapState.next .shIr false = .shIr ∧ TapState.next .shIr true = .ex1Ir ∧ TapState.next .shDr false = .shDr ∧
    TapState.next .shDr true = .ex1Dr) ∧
  ([false, true, true, false, false].foldl TapState.next .tlr = .shIr ∧
    [false, true, false, false].foldl TapState.next .tlr = .shDr) ∧
  (∀ n : Nat, 1 ≤ n → (List.replicate n false).foldl TapState.next .tlr = .rti)

/-- From any set of states, five or more TMS-1 clocks end in exactly `{TLR}` (10_state.md R26 (a), R27). -/
def Obligations.FiveHighClocksReachReset : Prop :=
  ∀ (S : TapSet) (k : Nat), S ≠ 0 → walk S (List.replicate (5 + k) true) = single .tlr

/-! ## Contract faults -/

/-- The check that every operation begins with, in its order (41_bit_engine_encoder.md R130): which operations
need a count and a known shadow, and the one thing each failing check does. The machine's outcome for "no step" is
the fault `blockStuck` (log 15). -/
def Obligations.CheckPrecedesEveryOperation : Prop :=
  ∀ (s : State) (count : Count) (data : List Byte) (i : Instr) (needCount needState : Bool),
    (((i = .shiftTms count data ∨ i = .shiftTdi count data ∨ i = .transferTdi count data) ∧
        needCount = true ∧ needState = false) ∨
      ((i = .shiftIr count data ∨ i = .transferIr count data ∨ i = .shiftDr count data ∨
        i = .transferDr count data) ∧ needCount = true ∧ needState = true) ∨
      (i = .tapReset ∧ needCount = false ∧ needState = false) ∨
      (i = .idle count ∧ count ≠ 0 ∧ needCount = false ∧ needState = true)) →
    (∀ k, s.fault = some k → exec i s = .fault (.blockStuck k)) ∧
    (s.fault = none →
      (s.desync = true → Raises i .resyncRequired 0x81 s) ∧
      (s.desync = false →
        (needCount = true → count = 0 → Raises i .zeroCount 0x82 s) ∧
        (needCount = true → count ≠ 0 → data.length < (count.toNat + 7) / 8 →
          Raises i .bufferTooShort 0x83 s) ∧
        (needState = true → (needCount = true → PayloadOk count data) → ¬ ShadowKnown s →
          Raises i .tapStateIndeterminate 0x84 s)))

/-! ## Results of the block's operations

Each equation gives the whole next state, so it is also the operation's frame. The subcause of a success, 0, is the
model's way of writing that there is none (log 25). -/

/-- SHIFT_TMS (41_bit_engine_encoder.md R131, R132): its TX bytes group by group, the shadow walked over the
first `n` bits of DATA, the TMS level that of the last bit. -/
def Obligations.ShiftTmsResult : Prop :=
  ∀ (s : State) (count : Count) (data : List Byte), Accepting s → PayloadOk count data →
    WritesOk ((count.toNat + 7) / 8) s →
    exec (.shiftTms count data) s = .next { s with
      txLog := s.txLog ++ tmsBytes s.params data count.toNat
      cmdQueue := s.cmdQueue ++ tmsBytes s.params data count.toNat
      tapShadow := walk s.tapShadow (bufBits data count.toNat)
      tmsShadow := .ofBool (bufBit data (count.toNat - 1))
      status := 0x00
      subcause := 0
      result := []
      writeFails := spendWrites ((count.toNat + 7) / 8) s.writeFails }

/-- SHIFT_TDI (41_bit_engine_encoder.md R134, R135): the TX bytes of the pseudocode's loop, `n - 1` data clocks
at the level held on entry and one TMS-1 clock. -/
def Obligations.ShiftTdiResult : Prop :=
  ∀ (s : State) (count : Count) (data : List Byte), Accepting s → PayloadOk count data →
    WritesOk (tdiCommands count.toNat) s →
    exec (.shiftTdi count data) s = .next { s with
      txLog := s.txLog ++ shiftBytes s.params data count.toNat
      cmdQueue := s.cmdQueue ++ shiftBytes s.params data count.toNat
      tapShadow := tdiShadow count.toNat s.tapShadow s.tmsShadow
      tmsShadow := .high
      status := 0x00
      subcause := 0
      result := []
      writeFails := spendWrites (tdiCommands count.toNat) s.writeFails }

/-- TRANSFER_TDI with a conforming engine (41_bit_engine_encoder.md R136 to R138): the TX bytes of SHIFT_TDI
with the capturing opcodes, exactly `E` reply bytes read, and a RESULT whose bit `i` is the TDO sample of clock
`i`. -/
def Obligations.TransferTdiResult : Prop :=
  ∀ (s : State) (count : Count) (data : List Byte), Accepting s → PayloadOk count data →
    WritesOk (tdiCommands count.toNat) s → s.params.distinct → s.loopback = false → EngineIdle s →
    ReadFull s →
    ∃ rx result, rx.length = expectedReplies count.toNat ∧
      HoldsSamples result count.toNat (samplesOf s.taps (tdiClocks data count.toNat s.tmsPin)) ∧
      exec (.transferTdi count data) s = .next { s with
        txLog := s.txLog ++ transferBytes s.params data count.toNat
        rxLog := s.rxLog ++ rx
        tapShadow := tdiShadow count.toNat s.tapShadow s.tmsShadow
        tmsShadow := .high
        status := 0x00
        subcause := 0
        result := result
        tmsPin := true
        taps := chainAfter s.taps (tdiClocks data count.toNat s.tmsPin)
        writeFails := spendWrites (tdiCommands count.toNat) s.writeFails
        readDraws := s.readDraws.tail
        freeCount := s.freeCount + partialReplies count.toNat }

/-- TAP_RESET (42_tap_controller.md R162): 40 TMS-1 clocks in five commands, from any shadow to `{TLR}`. That a
shadow is never empty is the invariant `ValidStateIsKept`. -/
def Obligations.TapResetResult : Prop :=
  ∀ (s : State), Accepting s → s.tapShadow ≠ 0 → WritesOk 5 s →
    exec .tapReset s = .next { s with
      txLog := s.txLog ++ (List.replicate 5 [s.params.opcTmsOut, 0x07, 0xFF]).flatten
      cmdQueue := s.cmdQueue ++ (List.replicate 5 [s.params.opcTmsOut, 0x07, 0xFF]).flatten
      tapShadow := single .tlr
      tmsShadow := .high
      status := 0x00
      subcause := 0
      result := []
      writeFails := spendWrites 5 s.writeFails }

/-- IDLE (42_tap_controller.md R163): `c` TMS-0 clocks in Run-Test/Idle, one more from `{TLR}`; `idle(0)` writes
nothing and makes no check but the stuck one. -/
def Obligations.IdleResult : Prop :=
  (∀ (s : State), s.fault = none →
    exec (.idle 0) s = .next { s with status := 0x00, subcause := 0, result := [] }) ∧
  (∀ (s : State) (cycles : Count), Accepting s → ShadowKnown s → cycles ≠ 0 →
    let k := cycles.toNat + (if s.tapShadow = single .tlr then 1 else 0)
    let bytes := (List.range ((k + 7) / 8)).flatMap fun g =>
      [s.params.opcTmsOut, BitVec.ofNat 8 (min 8 (k - 8 * g) - 1), 0x00]
    WritesOk ((k + 7) / 8) s →
    exec (.idle cycles) s = .next { s with
      txLog := s.txLog ++ bytes
      cmdQueue := s.cmdQueue ++ bytes
      tapShadow := single .rti
      tmsShadow := .low
      status := 0x00
      subcause := 0
      result := []
      writeFails := spendWrites ((k + 7) / 8) s.writeFails })

/-- SHIFT_IR and SHIFT_DR (42_tap_controller.md R161, R164, R166): the entry walk with the fold from `{TLR}`, the
data phase, the exit walk, ending in `{RTI}` with TMS 0. -/
def Obligations.ShiftScanResult : Prop :=
  ∀ (s : State) (count : Count) (data : List Byte), Accepting s → PayloadOk count data → ShadowKnown s →
    WritesOk (tdiCommands count.toNat + 2) s →
    let ended (entry : List Byte) : State :=
      let bytes := entry ++ shiftBytes s.params data count.toNat ++ exitBytes s.params
      { s with
        txLog := s.txLog ++ bytes
        cmdQueue := s.cmdQueue ++ bytes
        tapShadow := single .rti
        tmsShadow := .low
        status := 0x00
        subcause := 0
        result := []
        writeFails := spendWrites (tdiCommands count.toNat + 2) s.writeFails }
    exec (.shiftIr count data) s = .next (ended (entryIrBytes s.params s.tapShadow)) ∧
    exec (.shiftDr count data) s = .next (ended (entryDrBytes s.params s.tapShadow))

/-- TRANSFER_IR and TRANSFER_DR with a conforming engine (42_tap_controller.md R165, R167): the RESULT is the
TDO sample of each data clock after the entry walk, and the exit walk is written after the read, so the engine
has not run it yet. -/
def Obligations.TransferScanResult : Prop :=
  ∀ (s : State) (count : Count) (data : List Byte), Accepting s → PayloadOk count data → ShadowKnown s →
    WritesOk (tdiCommands count.toNat + 2) s → s.params.distinct → s.loopback = false → EngineIdle s →
    ReadFull s →
    let scans (i : Instr) (entry : List Byte) (walked : List Bool) : Prop :=
      let before := entryClocks s.tapShadow walked
      let clocks := tdiClocks data count.toNat false
      ∃ rx result, rx.length = expectedReplies count.toNat ∧
        HoldsSamples result count.toNat (samplesOf (chainAfter s.taps before) clocks) ∧
        exec i s = .next { s with
          txLog := s.txLog ++ (entry ++ transferBytes s.params data count.toNat ++ exitBytes s.params)
          rxLog := s.rxLog ++ rx
          cmdQueue := exitBytes s.params
          tapShadow := single .rti
          tmsShadow := .low
          status := 0x00
          subcause := 0
          result := result
          tmsPin := true
          taps := chainAfter s.taps (before ++ clocks)
          writeFails := spendWrites (tdiCommands count.toNat + 2) s.writeFails
          readDraws := s.readDraws.tail
          freeCount := s.freeCount + partialReplies count.toNat }
    scans (.transferIr count data) (entryIrBytes s.params s.tapShadow) [true, true, false, false] ∧
    scans (.transferDr count data) (entryDrBytes s.params s.tapShadow) [true, false, false]

/-- The TAP-level operations are exactly their expansions into raw operations (30_encoding.md R87): if each raw
operation of the expansion succeeds, the TAP-level one ends in the same state, with the RESULT of its transfer. -/
def Obligations.TapOperationsAreTheirExpansions : Prop :=
  (∀ (s : State), Accepting s →
    exec .tapReset s = exec (.shiftTms 40 [0xFF, 0xFF, 0xFF, 0xFF, 0xFF]) s) ∧
  (∀ (s : State) (c : Nat), Accepting s → 0 < c → c + 1 < 2 ^ 32 →
    (s.tapShadow = single .rti → exec (.idle (BitVec.ofNat 32 c)) s =
      exec (.shiftTms (BitVec.ofNat 32 c) (List.replicate ((c + 7) / 8) 0)) s) ∧
    (s.tapShadow = single .tlr → exec (.idle (BitVec.ofNat 32 c)) s =
      exec (.shiftTms (BitVec.ofNat 32 (c + 1)) (List.replicate ((c + 8) / 8) 0)) s)) ∧
  (∀ (s s1 s2 s3 : State) (count : Count) (data : List Byte) (v w : Byte) (k l : Count),
    ((s.tapShadow = single .rti ∧ v = 0x03 ∧ k = 4 ∧ w = 0x01 ∧ l = 3) ∨
      (s.tapShadow = single .tlr ∧ v = 0x06 ∧ k = 5 ∧ w = 0x02 ∧ l = 4)) →
    PayloadOk count data →
    (exec (.shiftTms k [v]) s = .next s1 → s1.status = 0x00 →
      (exec (.shiftTdi count data) s1 = .next s2 → s2.status = 0x00 →
        exec (.shiftTms 2 [0x01]) s2 = .next s3 → s3.status = 0x00 →
        exec (.shiftIr count data) s = .next s3) ∧
      (exec (.transferTdi count data) s1 = .next s2 → s2.status = 0x00 →
        exec (.shiftTms 2 [0x01]) s2 = .next s3 → s3.status = 0x00 →
        exec (.transferIr count data) s = .next { s3 with result := s2.result })) ∧
    (exec (.shiftTms l [w]) s = .next s1 → s1.status = 0x00 →
      (exec (.shiftTdi count data) s1 = .next s2 → s2.status = 0x00 →
        exec (.shiftTms 2 [0x01]) s2 = .next s3 → s3.status = 0x00 →
        exec (.shiftDr count data) s = .next s3) ∧
      (exec (.transferTdi count data) s1 = .next s2 → s2.status = 0x00 →
        exec (.shiftTms 2 [0x01]) s2 = .next s3 → s3.status = 0x00 →
        exec (.transferDr count data) s = .next { s3 with result := s2.result })))

/-- The post-conditions of the TAP-level operations, whatever the environment did on the way
(42_tap_controller.md R168). -/
def Obligations.SuccessfulTapOperationEndsIdle : Prop :=
  ∀ (s t : State) (i : Instr), exec i s = .next t → t.status = 0x00 →
    (i = .tapReset → s.tapShadow ≠ 0 → t.tapShadow = single .tlr) ∧
    (∀ count data, i = .shiftIr count data ∨ i = .transferIr count data ∨ i = .shiftDr count data ∨
      i = .transferDr count data → t.tapShadow = single .rti ∧ t.tmsShadow = .low) ∧
    (∀ cycles, i = .idle cycles → cycles ≠ 0 → t.tapShadow = single .rti ∧ t.tmsShadow = .low) ∧
    (i = .idle 0 → t.tapShadow = s.tapShadow ∧ t.tmsShadow = s.tmsShadow)

/-- The TX byte counts of every operation that succeeds (70_reset_and_hazards.md R297). -/
def Obligations.TxByteCounts : Prop :=
  ∀ (s t : State) (count : Count) (data : List Byte) (i : Instr), exec i s = .next t → t.status = 0x00 →
    let n := count.toNat
    let b := (n - 1) / 8
    let tdi := 3 * ((b + 65535) / 65536) + b + 3 * (if 2 ≤ n - 8 * b then 1 else 0) + 3
    (i = .shiftTms count data → t.txLog.length = s.txLog.length + 3 * ((n + 7) / 8)) ∧
    (i = .shiftTdi count data ∨ i = .transferTdi count data → t.txLog.length = s.txLog.length + tdi) ∧
    (i = .shiftIr count data ∨ i = .transferIr count data ∨ i = .shiftDr count data ∨
      i = .transferDr count data → t.txLog.length = s.txLog.length + (3 + tdi + 3)) ∧
    (i = .tapReset → t.txLog.length = s.txLog.length + 15) ∧
    (i = .idle count → count ≠ 0 → t.txLog.length =
      s.txLog.length + 3 * ((n + (if s.tapShadow = single .tlr then 1 else 0) + 7) / 8)) ∧
    (i = .idle 0 → t.txLog = s.txLog)

/-! ## Transport errors -/

/-- A failed write ends SHIFT_TMS at once with TransportIoError: its bytes and those before it are logged, and
nothing after them is written (60_exceptions.md R263, 10_state.md R32). What the engine received is open (R111), so
nothing is said of its queue. Which write fails is drawn (log 7), and subcause 0 is the model's (log 25). -/
def Obligations.FailedWriteEndsShiftTms : Prop :=
  ∀ (s : State) (count : Count) (data : List Byte) (k : Nat) (later : List Nat), Accepting s →
    PayloadOk count data → s.writeFails = k :: later → k < (count.toNat + 7) / 8 →
    ∃ t, exec (.shiftTms count data) s = .next t ∧ TransportErrorState t 0x01 0 ∧
      t.txLog = s.txLog ++ (tmsBytes s.params data count.toNat).take (3 * (k + 1)) ∧
      t.rxLog = s.rxLog ∧ t.writeFails = later

/-- What a capturing read that is not answered by exactly `E` bytes raises, and that its bytes are logged
(41_bit_engine_encoder.md R139, 60_exceptions.md R263). The answers are drawn (log 7); subcause 0 is the model's
(log 25). -/
def Obligations.FailedReadEndsTransferTdi : Prop :=
  ∀ (s : State) (count : Count) (data : List Byte) (later : List ReadDraw), Accepting s →
    PayloadOk count data → WritesOk (tdiCommands count.toNat) s → s.params.distinct → EngineIdle s →
    (∀ b, s.readDraws = .bytes b :: later → b.length ≠ expectedReplies count.toNat →
      ∃ t, exec (.transferTdi count data) s = .next t ∧ t.rxLog = s.rxLog ++ b ∧
        t.txLog = s.txLog ++ transferBytes s.params data count.toNat ∧
        (b.length < expectedReplies count.toNat → TransportErrorState t 0x02 0) ∧
        (expectedReplies count.toNat < b.length → TransportErrorState t 0x03 1)) ∧
    (∀ k, s.readDraws = .short k :: later → k < expectedReplies count.toNat →
      ∃ t rx, exec (.transferTdi count data) s = .next t ∧ rx.length = k ∧ t.rxLog = s.rxLog ++ rx ∧
        TransportErrorState t 0x02 0) ∧
    (∀ k, s.readDraws = .ioError k :: later →
      ∃ t rx, exec (.transferTdi count data) s = .next t ∧ rx.length = min k (expectedReplies count.toNat) ∧
        t.rxLog = s.rxLog ++ rx ∧ TransportErrorState t 0x01 0)

/-- After a read error the exit walk of TRANSFER_IR and TRANSFER_DR is not written, whichever error it is
(42_tap_controller.md R165, R167, 41_bit_engine_encoder.md R139, 70_reset_and_hazards.md R295 (c)). The answers are
drawn (log 7); subcause 0 is the model's (log 25). -/
def Obligations.FailedReadSkipsTheExitWalk : Prop :=
  ∀ (s : State) (count : Count) (data : List Byte) (draw : ReadDraw) (later : List ReadDraw), Accepting s →
    PayloadOk count data → ShadowKnown s → WritesOk (tdiCommands count.toNat + 1) s →
    s.params.distinct → EngineIdle s → s.readDraws = draw :: later →
    let bytes := transferBytes s.params data count.toNat
    let ends (code subcause : Byte) : Prop :=
      (∃ t, exec (.transferIr count data) s = .next t ∧ TransportErrorState t code subcause ∧
        t.txLog = s.txLog ++ (entryIrBytes s.params s.tapShadow ++ bytes)) ∧
      (∃ t, exec (.transferDr count data) s = .next t ∧ TransportErrorState t code subcause ∧
        t.txLog = s.txLog ++ (entryDrBytes s.params s.tapShadow ++ bytes))
    (∀ k, draw = .short k → k < expectedReplies count.toNat → ends 0x02 0) ∧
    (∀ b, draw = .bytes b → b.length < expectedReplies count.toNat → ends 0x02 0) ∧
    (∀ b, draw = .bytes b → expectedReplies count.toNat < b.length → ends 0x03 1) ∧
    (∀ k, draw = .ioError k → ends 0x01 0)

/-- Any instruction that sets `desync` leaves the block as a transport error does, with one of the three error
codes (60_exceptions.md R263, R261). -/
def Obligations.DesyncIsSetOnlyByATransportError : Prop :=
  ∀ (i : Instr) (s t : State), exec i s = .next t → s.desync = false → t.desync = true →
    TransportErrorState t 0x01 0 ∨ TransportErrorState t 0x02 0 ∨ TransportErrorState t 0x03 1

/-! ## Frames over all instructions -/

/-- What no instruction writes: the port's operands, the host's program, the client's state, the parameters,
the loopback mode and the parameters of the TAPs; and the logs only grow (10_state.md R21, R22, R32, R33). -/
def Obligations.InstructionFrame : Prop :=
  ∀ (i : Instr) (s t : State), exec i s = .next t →
    t.op = s.op ∧ t.count = s.count ∧ t.data = s.data ∧ t.pending = s.pending ∧ t.position = s.position ∧
    t.selection = s.selection ∧ t.clientFault = s.clientFault ∧ t.clientReply = s.clientReply ∧
    t.params = s.params ∧ t.loopback = s.loopback ∧
    t.taps.map (fun u => (u.idcode, u.irLength, u.idcodeInstr, u.echoInstr, u.echoLen)) =
      s.taps.map (fun u => (u.idcode, u.irLength, u.idcodeInstr, u.echoInstr, u.echoLen)) ∧
    s.txLog <+: t.txLog ∧ s.rxLog <+: t.rxLog

/-- Operations that capture nothing never read RX, and unless they raise a transport error they leave the engine's
replies alone; their success leaves its latch and the chain alone too: they do not wait for the engine (20_memory.md
R50, R59). An empty RESULT after a contract fault is the model's (log 16). -/
def Obligations.NonCapturingOperationsNeverRead : Prop :=
  ∀ (i : Instr) (s t : State),
    (∃ c d, i = .shiftTms c d ∨ i = .shiftTdi c d ∨ i = .tapReset ∨ i = .idle c ∨ i = .shiftIr c d ∨
      i = .shiftDr c d) → exec i s = .next t →
    t.rxLog = s.rxLog ∧ t.readDraws = s.readDraws ∧ t.result = [] ∧
    (t.desync = s.desync → t.replyQueue = s.replyQueue) ∧
    (t.status = 0x00 → t.taps = s.taps ∧ t.tmsPin = s.tmsPin ∧ t.freeCount = s.freeCount)

/-! ## The engine's commands -/

/-- TMS_OUT and TMS_INOUT outside loopback (40_engine_commands.md R102 to R104, R109): clock `j` drives TMS
`D[j]` and TDI `D[7]`, the latch keeps the last TMS bit, and the capturing form queues one reply byte. The whole
next state is given: the block's own state is unchanged. -/
def Obligations.TmsCommandsResult : Prop :=
  ∀ (s : State) (l : LenField) (d : Byte), s.loopback = false →
    let clocks := (List.range (l.toNat + 1)).map fun j => (d.getLsbD j, d.getLsbD 7)
    exec (.tmsOut l d) s = .next { s with
      tmsPin := d.getLsbD l.toNat, taps := chainAfter s.taps clocks } ∧
    ∃ b, PackedAt s.params.captureJustify b (samplesOf s.taps clocks) ∧
      exec (.tmsInout l d) s = .next { s with
        tmsPin := d.getLsbD l.toNat
        taps := chainAfter s.taps clocks
        replyQueue := s.replyQueue ++ [b]
        freeCount := s.freeCount + 1 }

/-- BYTES_OUT and BYTES_INOUT outside loopback (40_engine_commands.md R105, R106): clock `8k + j` drives TDI
`Pk[j]` at the latch's TMS level, and the capturing form queues `m` reply bytes, bit `j` of byte `k` the sample of
clock `8k + j`. -/
def Obligations.BytesCommandsResult : Prop :=
  ∀ (s : State) (payload : List Byte), s.loopback = false →
    let clocks := (bufBits payload (8 * payload.length)).map fun b => (s.tmsPin, b)
    exec (.bytesOut payload) s = .next { s with taps := chainAfter s.taps clocks } ∧
    ∃ bytes, bytes.length = payload.length ∧
      bufBits bytes (8 * payload.length) = samplesOf s.taps clocks ∧
      exec (.bytesInout payload) s = .next { s with
        taps := chainAfter s.taps clocks, replyQueue := s.replyQueue ++ bytes }

/-- BITS_OUT and BITS_INOUT outside loopback (40_engine_commands.md R107 to R109). -/
def Obligations.BitsCommandsResult : Prop :=
  ∀ (s : State) (l : LenField) (d : Byte), s.loopback = false →
    let clocks := (List.range (l.toNat + 1)).map fun j => (s.tmsPin, d.getLsbD j)
    exec (.bitsOut l d) s = .next { s with taps := chainAfter s.taps clocks } ∧
    ∃ b, PackedAt s.params.captureJustify b (samplesOf s.taps clocks) ∧
      exec (.bitsInout l d) s = .next { s with
        taps := chainAfter s.taps clocks
        replyQueue := s.replyQueue ++ [b]
        freeCount := s.freeCount + 1 }

/-- The reply sizes, whatever the engine's mode (30_encoding.md R82): the commands without capture return nothing,
TMS_INOUT and BITS_INOUT one byte, BYTES_INOUT as many bytes as its payload. -/
def Obligations.ReplySizes : Prop :=
  ∀ (s : State) (l : LenField) (d : Byte) (payload : List Byte),
    (∃ t, exec (.tmsOut l d) s = .next t ∧ t.replyQueue = s.replyQueue) ∧
    (∃ t, exec (.bytesOut payload) s = .next t ∧ t.replyQueue = s.replyQueue) ∧
    (∃ t, exec (.bitsOut l d) s = .next t ∧ t.replyQueue = s.replyQueue) ∧
    (∃ t b, exec (.tmsInout l d) s = .next t ∧ t.replyQueue = s.replyQueue ++ [b]) ∧
    (∃ t b, exec (.bitsInout l d) s = .next t ∧ t.replyQueue = s.replyQueue ++ [b]) ∧
    (∃ t bytes, exec (.bytesInout payload) s = .next t ∧ bytes.length = payload.length ∧
      t.replyQueue = s.replyQueue ++ bytes)

/-- The six commands in loopback: every sample is the TDI level of its own clock, and only the latch, the
reply queue, the chain and the draws change (40_engine_commands.md R112). -/
def Obligations.LoopbackCommandsEchoTdi : Prop :=
  ∀ (s : State) (l : LenField) (d : Byte) (payload : List Byte), s.loopback = true →
    (∃ taps n, exec (.tmsOut l d) s = .next { s with
        tmsPin := d.getLsbD l.toNat, taps := taps, freeCount := n } ∧ taps.length = s.taps.length) ∧
    (∃ taps n, exec (.bytesOut payload) s = .next { s with taps := taps, freeCount := n } ∧
      taps.length = s.taps.length) ∧
    (∃ taps n, exec (.bitsOut l d) s = .next { s with taps := taps, freeCount := n } ∧
      taps.length = s.taps.length) ∧
    (∃ b taps n, PackedAt s.params.captureJustify b (List.replicate (l.toNat + 1) (d.getLsbD 7)) ∧
      exec (.tmsInout l d) s = .next { s with
        tmsPin := d.getLsbD l.toNat, taps := taps, replyQueue := s.replyQueue ++ [b], freeCount := n } ∧
      taps.length = s.taps.length) ∧
    (∃ taps n, exec (.bytesInout payload) s = .next { s with
        taps := taps, replyQueue := s.replyQueue ++ payload, freeCount := n } ∧
      taps.length = s.taps.length) ∧
    (∃ b taps n, PackedAt s.params.captureJustify b ((List.range (l.toNat + 1)).map d.getLsbD) ∧
      exec (.bitsInout l d) s = .next { s with
        taps := taps, replyQueue := s.replyQueue ++ [b], freeCount := n } ∧
      taps.length = s.taps.length)

/-- Rebuilding undoes the packing for either justification, and the reply bits that carry no sample are never
read (41_bit_engine_encoder.md R138, 40_engine_commands.md R109). -/
def Obligations.RebuildUndoesPacking : Prop :=
  ∀ (j : Justify) (whole : List Byte) (low : List Bool) (last : Bool) (fill fill' : Byte), low.length ≤ 7 →
    let n := 8 * whole.length + low.length + 1
    let rx := whole ++ (if low = [] then [] else [pack j low fill]) ++ [pack j [last] fill']
    (rebuild j n rx).length = (n + 7) / 8 ∧
    ∀ i, bufBit (rebuild j n rx) i = (bufBits whole (8 * whole.length) ++ low ++ [last]).getD i false

/-! ## The reference chain -/

/-- A chain in Shift-DR is one shift register of the selected data registers, and in Shift-IR one of the
instruction shift registers, the TAP nearest TDO first: what was in comes out first, then what is shifted in
(45_reference_target.md R190, R193 to R195, R202). -/
def Obligations.ChainIsOneShiftRegister : Prop :=
  ∀ (taps : List Tap) (bits : List Bool), taps ≠ [] → (∀ t ∈ taps, t.legal = true ∧ t.fits = true) →
    ((∀ t ∈ taps, t.state = .shDr) →
      let clocks := bits.map fun b => (false, b)
      samplesOf taps clocks = (drPath taps ++ bits).take bits.length ∧
      drPath (chainAfter taps clocks) = (drPath taps ++ bits).drop bits.length) ∧
    ((∀ t ∈ taps, t.state = .shIr) →
      let clocks := bits.map fun b => (false, b)
      samplesOf taps clocks = (irPath taps ++ bits).take bits.length ∧
      irPath (chainAfter taps clocks) = (irPath taps ++ bits).drop bits.length)

/-- Five TMS-1 clocks take every TAP of any chain to Test-Logic-Reset with its IDCODE instruction selected
(45_reference_target.md R199, 10_state.md R26 (a)). -/
def Obligations.FiveHighClocksResetEveryTap : Prop :=
  ∀ (taps : List Tap) (tdi : Bool), ∀ t ∈ chainAfter taps (List.replicate 5 (true, tdi)),
    t.state = .tlr ∧ t.ir = t.idcodeInstr

/-- After a chain in Capture-IR the bits that come out are `1` and `L - 1` zeros of each TAP, in order
(45_reference_target.md R195, R202 (a)). -/
def Obligations.CapturedIrPath : Prop :=
  ∀ (taps : List Tap) (tdi : Bool), (∀ t ∈ taps, t.state = .selIr ∧ 1 ≤ t.irLength) →
    irPath (chainAfter taps [(false, tdi), (false, tdi)]) =
      taps.flatMap fun t => true :: List.replicate (t.irLength - 1) false

/-! ## Loopback -/

/-- The loopback identity (41_bit_engine_encoder.md R140): with the engine in loopback and either justification,
a `transfer_tdi(d, n)` whose writes and read succeed returns the low `n` bits of `d`, every higher bit 0. -/
def Obligations.LoopbackTransferReturnsItsInput : Prop :=
  ∀ (s : State) (count : Count) (data : List Byte), Accepting s → PayloadOk count data →
    WritesOk (tdiCommands count.toNat) s → s.params.distinct → s.loopback = true → EngineIdle s →
    ReadFull s →
    ∃ t, exec (.transferTdi count data) s = .next t ∧ t.status = 0x00 ∧
      HoldsSamples t.result count.toNat (bufBits data count.toNat)

/-! ## Invariants of every step -/

/-- Every TAP's actual state is in the block's shadow and the engine's TMS latch is the block's TMS level,
unless it is unknown (10_state.md R35): every step keeps it, outside loopback. -/
def Obligations.ShadowTracksTheChain : Prop :=
  ∀ (s t : State), Tracks s → NoLoopbackNext s → step s = .next t → Tracks t

/-- `Tracks` holds after reset. -/
def Obligations.ResetTracks : Prop := Tracks State.reset

/-- Legal parameters, a shadow that is not empty, fault kinds of their own agents and registers within their
widths (10_state.md R20, 45_reference_target.md R191, R192): every step keeps them. -/
def Obligations.ValidStateIsKept : Prop :=
  ∀ (s t : State), Valid s → step s = .next t → Valid t

/-- `Valid` holds after reset, and at power-on of any legal parameters and any chain of legal TAPs. -/
def Obligations.PowerOnIsValid : Prop :=
  Valid State.reset ∧
  ∀ (p : Params) (taps : List Tap), p.wf → (∀ t ∈ taps, t.legal = true ∧ t.fits = true) →
    Valid (State.powerOn p taps)

/-- Only the host's purge or a power-up clears `desync` (10_state.md R30, 70_reset_and_hazards.md R294). -/
def Obligations.OnlyTheHostClearsDesync : Prop :=
  ∀ (s t : State), step s = .next t → s.desync = true → t.desync = false →
    s.pending.head? = some (.action .purge) ∨ s.pending.head? = some (.action .powerUp)

/-- A contract fault sets `fault`; while it is set no operation takes a step, whatever it is; and only a power-up
clears it, until which no other kind replaces it (10_state.md R31). -/
def Obligations.FaultStaysUntilPowerUp : Prop :=
  (∀ (i : Instr) (s t : State) (k : ContractFault), exec i s = .next t → s.fault = none → t.fault = some k →
    t.status = k.code) ∧
  (∀ (s : State) (k : ContractFault) (op : Byte) (count : Count) (data : List Byte), s.fault = some k →
    exec (decodeRequest op count data) s = .fault (.blockStuck k)) ∧
  (∀ (s t : State) (k : ContractFault), step s = .next t → s.fault = some k → t.fault ≠ some k →
    s.pending.head? = some (.action .powerUp)) ∧
  (∀ (s : State) (rest : List Request), engineTurn s = .waits → s.pending = .action .powerUp :: rest →
    ∃ t, step s = .next t ∧ t.fault = none)

/-- A step that raises a contract fault writes no byte (60_exceptions.md R262, R264): here for one operation of
the host, whatever the state. -/
def Obligations.ContractFaultWritesNoByte : Prop :=
  ∀ (i : Instr) (s t : State), exec i s = .next t → s.fault = none → t.fault ≠ none →
    t.txLog = s.txLog ∧ t.rxLog = s.rxLog ∧ t.tapShadow = s.tapShadow ∧ t.tmsShadow = s.tmsShadow ∧
    t.desync = s.desync ∧ t.cmdQueue = s.cmdQueue ∧ t.taps = s.taps

/-- No step changes a parameter (10_state.md R33). -/
def Obligations.ParametersNeverChange : Prop :=
  ∀ (s t : State), step s = .next t → t.params = s.params

/-! ## Host actions and reset -/

/-- The purge (70_reset_and_hazards.md R294, 40_engine_commands.md R113): the whole next state. -/
def Obligations.PurgeResult : Prop :=
  ∀ (s : State) (rest : List Request), engineTurn s = .waits → s.pending = .action .purge :: rest →
    step s = .next { s with
      desync := false, cmdQueue := [], replyQueue := [], pending := rest, position := s.position + 1 }

/-- A power-up, even of a stuck block (70_reset_and_hazards.md R290, 10_state.md R31): the values of R290, with
the engine initialised first (R292, 40_engine_commands.md R101). -/
def Obligations.PowerUpResult : Prop :=
  ∀ (s : State) (rest : List Request), engineTurn s = .waits → s.pending = .action .powerUp :: rest →
    ∃ t, step s = .next t ∧ t.tapShadow = allStates ∧ t.tmsShadow = .x ∧ t.desync = false ∧
      t.fault = none ∧ t.txLog = [] ∧ t.rxLog = [] ∧ t.cmdQueue = [] ∧ t.replyQueue = [] ∧
      t.loopback = false ∧ t.taps = s.taps ∧ t.params = s.params ∧ t.selection = s.selection ∧
      t.pending = rest ∧ t.position = s.position + 1

/-- The block after reset (10_state.md R20, 70_reset_and_hazards.md R290) and the engine at start
(40_engine_commands.md R101). -/
def Obligations.ResetValues : Prop :=
  (∀ s, holds State.reset.tapShadow s = true) ∧ State.reset.tmsShadow = .x ∧ State.reset.desync = false ∧
    State.reset.fault = none ∧ State.reset.txLog = [] ∧ State.reset.rxLog = [] ∧
    State.reset.loopback = false ∧ State.reset.cmdQueue = [] ∧ State.reset.replyQueue = []

/-! ## Client procedures -/

/-- The IR-length decoder recovers the lengths of any TAPs whose captures are `1` and zeros, from a stream that
goes on with a 1 (46_client_procedures.md R227, 45_reference_target.md R202 (a)). -/
def Obligations.IrDecoderMeasuresLengths : Prop :=
  ∀ (lens : List Nat) (cap : List Byte), (∀ l ∈ lens, 1 ≤ l) →
    bufBits cap (lens.sum + 1) = (lens.flatMap fun l => true :: List.replicate (l - 1) false) ++ [true] →
    lens.sum + 1 ≤ 8 * cap.length →
    decodeIrLengths lens.length cap 0 0 = some lens

/-- The IDCODE parse lists the captured words up to the first all-ones word, at most `m` of them
(46_client_procedures.md R225). -/
def Obligations.IdcodeParseStopsAtTheSentinel : Prop :=
  ∀ (cap : List Byte) (m : Nat),
    parseIdcodes cap m 0 =
      ((List.range m).map fun w => BitVec.ofNat 32 (bufNat cap (32 * w) 32)).takeWhile (· ≠ 0xFFFFFFFF)

/-- A successful selection is the first TAP with the IDCODE, and its parameters obey the two invariants of
`ChainParameters` (46_client_procedures.md R222, R228). -/
def Obligations.SelectionObeysItsInvariants : Prop :=
  ∀ (id : BitVec 32) (s t : State), selectTarget id s = .done () t →
    ∃ taps p target c, taps[p]? = some target ∧ target.idcode = id ∧
      (∀ q u, q < p → taps[q]? = some u → u.idcode ≠ id) ∧
      (∃ s1, scan { s with selection := none } = .done taps s1) ∧
      t.selection = some c ∧ c.irLength = target.irLength ∧
      c.irPre = ((taps.take p).map (·.irLength)).sum ∧ c.drPre = p ∧
      c.irPre + c.irLength + c.irPost = (taps.map (·.irLength)).sum ∧
      c.drPre + c.drPost + 1 = taps.length

/-- The checks of a register access, in their order and before any byte is written (46_client_procedures.md R229,
60_exceptions.md R261, R262, R264). -/
def Obligations.RegisterAccessChecksFirst : Prop :=
  ∀ (s : State) (address len value : Nat) (p : ClientProc), s.clientFault = none →
    (p = .readRegister address len ∨ p = .writeRegister address value len) →
    (s.selection = none → clientTurn p s = .next { s with clientReply := .error 0x05 0 }) ∧
    (∀ c, s.selection = some c →
      (2 ^ c.irLength - 1 < address → clientTurn p s = .next { s with clientReply := .error 0x04 0 }) ∧
      (address ≤ 2 ^ c.irLength - 1 →
        (32 < c.irPre + c.irLength + c.irPost → clientTurn p s = .next { s with
          clientReply := .contractFault .irWidthExceeded, clientFault := some .irWidthExceeded }) ∧
        (c.irPre + c.irLength + c.irPost ≤ 32 → len = 0 → clientTurn p s = .next { s with
          clientReply := .contractFault .zeroLength, clientFault := some .zeroLength })))

/-- The layout of the IR value, bit by bit (46_client_procedures.md R230): ones for the preceding TAPs, the
address, ones for the following TAPs, nothing above. -/
def Obligations.IrValueLayout : Prop :=
  ∀ (c : ChainParameters) (address i : Nat), address < 2 ^ c.irLength →
    (irValue c address).testBit i =
      (if i < c.irPre then true
      else if i < c.irPre + c.irLength then address.testBit (i - c.irPre)
      else decide (i < c.irPre + c.irLength + c.irPost))

/-- The scan finds every TAP, whatever state the chain is in: on any chain of at most MAX_DEVICE_COUNT legal TAPs
whose IR lengths the IR pass covers, with every write and read successful, `scan()` returns exactly one descriptor
a TAP, in chain order, with its IDCODE and its IR length, and leaves the block in `{RTI}` (46_client_procedures.md
R223 to R227, 45_reference_target.md R202 (a), (b)). The empty chain gives the empty list and no error. When
the engine runs is log 11 and log 12; a procedure is one step (log 19). -/
def Obligations.ScanFindsEveryTap : Prop :=
  ∀ (s : State), Accepting s → s.clientFault = none → s.params.wf → s.loopback = false → s.tapShadow ≠ 0 →
    (engineDrain s).cmdQueue = [] → (engineDrain s).replyQueue = [] → s.writeFails = [] → s.readDraws = [] →
    (∀ t ∈ s.taps, t.legal = true ∧ t.fits = true) → s.taps.length ≤ s.params.maxDeviceCount →
    32 * s.params.maxDeviceCount < 2 ^ 32 → (s.taps.map (·.irLength)).sum + 1 ≤ s.params.irScanBits →
    s.params.irScanBits < 2 ^ 32 →
    ∃ t, clientTurn .scan s = .next t ∧
      t.clientReply = .descriptors (s.taps.map fun u => { idcode := u.idcode, irLength := u.irLength }) ∧
      t.tapShadow = single .rti ∧ t.tmsShadow = .low

/-! ## Clocks of a TAP -/

/-- What one clock leaves in every register of a TAP (45_reference_target.md R195, R196, R199, R200): the shift of
the state it starts in, the action of the state it enters, and nothing else. The selected data register, its width
and its Capture value are spelled out from the instruction (R196). -/
def Obligations.TapClockResult : Prop :=
  ∀ (t : Tap) (tms tdi : Bool), t.legal = true →
    let bypass : Prop := t.ir ≠ t.idcodeInstr ∧ t.echoInstr ≠ some t.ir
    let u := t.clock tms tdi
    (t.ir = 2 ^ t.irLength - 1 → bypass) ∧
    u.state = t.state.next tms ∧
    (u.idcode, u.irLength, u.idcodeInstr, u.echoInstr, u.echoLen) =
      (t.idcode, t.irLength, t.idcodeInstr, t.echoInstr, t.echoLen) ∧
    u.ir = (if u.state = .upIr then t.irSr else if u.state = .tlr then t.idcodeInstr else t.ir) ∧
    u.irSr = (if t.state = .shIr then t.irSr >>> 1 ||| tdi.toNat <<< (t.irLength - 1)
      else if u.state = .capIr then 1 else t.irSr) ∧
    (t.state ≠ .shDr → u.state ≠ .capDr → u.drSr = t.drSr) ∧
    (t.ir = t.idcodeInstr →
      (t.state = .shDr → u.drSr = t.drSr >>> 1 ||| tdi.toNat <<< (32 - 1)) ∧
      (u.state = .capDr → u.drSr = t.idcode.toNat) ∧ u.echo = t.echo) ∧
    (t.echoInstr = some t.ir →
      (t.state = .shDr → u.drSr = t.drSr >>> 1 ||| tdi.toNat <<< (t.echoLen - 1)) ∧
      (u.state = .capDr → u.drSr = t.echo) ∧ u.echo = (if u.state = .upDr then t.drSr else t.echo)) ∧
    (bypass →
      (t.state = .shDr → u.drSr = t.drSr >>> 1 ||| tdi.toNat) ∧
      (u.state = .capDr → u.drSr = 0) ∧ u.echo = t.echo)

/-! ## Register accesses that succeed -/

/-- A register access whose block operations succeed is exactly these operations and the decode
(46_client_procedures.md R229 to R233): `shift_ir` of the IR value, `transfer_dr` of the DR request, `idle` of the
settle count; the value read is bits `drPre` to `drPre + len - 1` of the capture. Where the length is not the width
of the target's register the value is any of `len` bits (log 29). The reply's field is log 19. -/
def Obligations.RegisterAccessIsItsOperations : Prop :=
  ∀ (s s1 s2 s3 : State) (c : ChainParameters) (address value len : Nat) (ir dr : List Byte),
    s.clientFault = none → s.selection = some c → address ≤ 2 ^ c.irLength - 1 →
    let w := c.irPre + c.irLength + c.irPost
    let d := c.drPre + len + c.drPost
    w ≤ 32 → len ≠ 0 → d < 2 ^ 32 → s.params.idleCycles < 2 ^ 32 →
    IrRequest c address ir → DrRequest c value len dr →
    let wc := BitVec.ofNat 32 w
    let dc := BitVec.ofNat 32 d
    let ic := BitVec.ofNat 32 s.params.idleCycles
    exec (.shiftIr wc ir) { s with op := 0x12, count := wc, data := ir } = .next s1 → s1.status = 0x00 →
    exec (.transferDr dc dr) { s1 with op := 0x15, count := dc, data := dr } = .next s2 → s2.status = 0x00 →
    exec (.idle ic) { s2 with op := 0x11, count := ic, data := [] } = .next s3 → s3.status = 0x00 →
    (value = 0 → ∃ v n, v < 2 ^ len ∧
      (lengthFits c len s3 = true → n = s3.freeCount ∧
        ∀ i, v.testBit i = (decide (i < len) && bufBit s2.result (c.drPre + i))) ∧
      clientTurn (.readRegister address len) s = .next { s3 with clientReply := .value v, freeCount := n } ∧
      (len = 32 → clientTurn (.readRegister32 address) s =
        .next { s3 with clientReply := .value v, freeCount := n })) ∧
    (∃ t, clientTurn (.writeRegister address value len) s = .next t ∧ t.clientReply = .written ∧
      (lengthFits c len s3 = true → t = { s3 with clientReply := .written }) ∧
      (len = 32 → value < 2 ^ 32 → clientTurn (.writeRegister32 address (BitVec.ofNat 32 value)) s = .next t))

/-- A register access on a chain as selected reads and writes the target's register (46_client_procedures.md R229 to
R232, 45_reference_target.md R196, R200, R202 (d)): the IDCODE, the ECHO register or the BYPASS bit, whichever the
address selects; a write of ECHO stores the value cut to its length, and the other TAPs' ECHO registers stay. When
the engine runs is log 11 and log 12; a procedure is one step (log 19). -/
def Obligations.RegisterAccessReachesTheTarget : Prop :=
  ∀ (s : State) (c : ChainParameters) (target : Tap) (address value len v : Nat), ReadyForAccess c s →
    (engineDrain s).taps[c.drPre]? = some target →
    address ≤ 2 ^ c.irLength - 1 → c.irPre + c.irLength + c.irPost ≤ 32 → c.drPre + len + c.drPost < 2 ^ 32 →
    ((address = target.idcodeInstr ∧ len = 32 ∧ v = target.idcode.toNat) ∨
      (target.echoInstr = some address ∧ len = target.echoLen ∧ v = target.echo) ∨
      (address ≠ target.idcodeInstr ∧ target.echoInstr ≠ some address ∧ len = 1 ∧ v = 0)) →
    (∃ t, clientTurn (.readRegister address len) s = .next t ∧ t.clientReply = .value v ∧
      t.tapShadow = single .rti ∧ t.tmsShadow = .low) ∧
    (∃ t, clientTurn (.writeRegister address value len) s = .next t ∧ t.clientReply = .written ∧
      t.tapShadow = single .rti ∧ t.tmsShadow = .low ∧
      (engineDrain t).taps.map (·.echo) = (engineDrain s).taps.mapIdx fun p u =>
        if p = c.drPre ∧ u.echoInstr = some address then value % 2 ^ len else u.echo)

/-- A write of the ECHO register followed by a read at the same address returns the value written, and the 32-bit
forms round-trip exactly (45_reference_target.md R200, 46_client_procedures.md R233; vector V-A11). -/
def Obligations.EchoRegisterRoundTrip : Prop :=
  ∀ (s : State) (c : ChainParameters) (target : Tap) (address value : Nat), ReadyForAccess c s →
    (engineDrain s).taps[c.drPre]? = some target → target.echoInstr = some address →
    address ≤ 2 ^ c.irLength - 1 → c.irPre + c.irLength + c.irPost ≤ 32 →
    c.drPre + target.echoLen + c.drPost < 2 ^ 32 →
    (∃ t u, clientTurn (.writeRegister address value target.echoLen) s = .next t ∧
      clientTurn (.readRegister address target.echoLen) t = .next u ∧
      u.clientReply = .value (value % 2 ^ target.echoLen)) ∧
    (∀ w : BitVec 32, target.echoLen = 32 → ∃ t u, clientTurn (.writeRegister32 address w) s = .next t ∧
      clientTurn (.readRegister32 address) t = .next u ∧ u.clientReply = .value w.toNat)
end

