-- ==== Sys2Proof/Laws/Bits.lean ====
section
/-! SUPPORT. Bits of bytes, numbers and bit buffers. -/

namespace Sys2Proof.Machine

open Sys2Proof

/-! ## Numbers and bytes from bits -/

theorem natOfBits_testBit (bs : List Bool) (i : Nat) : (natOfBits bs).testBit i = bs.getD i false := by
  induction bs generalizing i with
  | nil => simp [natOfBits]
  | cons b bs ih =>
    cases i with
    | zero => cases b <;> simp [natOfBits, Nat.testBit_zero, Nat.add_mod]
    | succ i =>
      rw [Nat.testBit_succ]
      have : (natOfBits (b :: bs)) / 2 = natOfBits bs := by
        cases b
        · simp [natOfBits]
        · simp only [natOfBits, Bool.toNat_true]; omega
      rw [this, ih]
      simp

theorem byteOfBits_getLsbD (bs : List Bool) (i : Nat) :
    (byteOfBits bs).getLsbD i = (decide (i < 8) && bs.getD i false) := by
  simp only [byteOfBits, BitVec.getLsbD_ofNat, natOfBits_testBit]

@[simp] theorem byteBits_length (n : Nat) (v : Byte) : (byteBits n v).length = n := by simp [byteBits]

theorem byteBits_getD (n : Nat) (v : Byte) (i : Nat) :
    (byteBits n v).getD i false = (decide (i < n) && v.getLsbD i) := by
  by_cases h : i < n <;> simp [byteBits, List.getD, h]

@[simp] theorem byteOfBits_byteBits (v : Byte) : byteOfBits (byteBits 8 v) = v := by
  apply BitVec.eq_of_getLsbD_eq
  intro i hi
  rw [byteOfBits_getLsbD, byteBits_getD]
  simp [hi]

theorem lowBits_getLsbD (n : Nat) (v : Byte) (i : Nat) :
    (lowBits n v).getLsbD i = (decide (i < n) && v.getLsbD i) := by
  have h8 : 8 ≤ i → v.getLsbD i = false := fun h => BitVec.getLsbD_of_ge v i h
  simp only [lowBits, BitVec.getLsbD_ofNat, Nat.testBit_mod_two_pow, BitVec.testBit_toNat]
  by_cases h : i < 8
  · simp [h]
  · simp [h, h8 (by omega)]

theorem byteBits_lowBits {n m : Nat} (h : n ≤ m) (v : Byte) : byteBits n (lowBits m v) = byteBits n v := by
  apply List.map_congr_left
  intro i hi
  rw [lowBits_getLsbD]
  have : i < m := by have := List.mem_range.mp hi; omega
  simp [this]

theorem byteField_testBit (v : Byte) (hi lo i : Nat) :
    (byteField v hi lo).testBit i = (decide (i < hi + 1 - lo) && v.getLsbD (lo + i)) := by
  simp only [byteField, Nat.testBit_mod_two_pow, Nat.testBit_div_two_pow, BitVec.testBit_toNat, Nat.add_comm]

/-! ## Bit buffers -/

theorem bufBit_nil (i : Nat) : bufBit [] i = false := by simp [bufBit]

theorem bufBit_cons (b : Byte) (bs : List Byte) (i : Nat) :
    bufBit (b :: bs) i = if i < 8 then b.getLsbD i else bufBit bs (i - 8) := by
  unfold bufBit
  split
  · rename_i h
    have h0 : i / 8 = 0 := by omega
    have h1 : i % 8 = i := by omega
    simp [h0, h1]
  · rename_i h
    have h0 : i / 8 = (i - 8) / 8 + 1 := by omega
    have h1 : (i - 8) % 8 = i % 8 := by omega
    simp [h0, h1]

theorem bufBit_of_ge {buf : List Byte} {i : Nat} (h : 8 * buf.length ≤ i) : bufBit buf i = false := by
  unfold bufBit
  have : buf.length ≤ i / 8 := by omega
  simp [List.getD, List.getElem?_eq_none this]

theorem bufBit_append (a b : List Byte) (i : Nat) :
    bufBit (a ++ b) i = if i < 8 * a.length then bufBit a i else bufBit b (i - 8 * a.length) := by
  induction a generalizing i with
  | nil => simp
  | cons x xs ih =>
    simp only [List.cons_append, bufBit_cons, ih, List.length_cons]
    by_cases h : i < 8
    · have : i < 8 * (xs.length + 1) := by omega
      simp [h, this]
    · by_cases h2 : i - 8 < 8 * xs.length
      · have : i < 8 * (xs.length + 1) := by omega
        simp [h, h2, this]
      · have : ¬ i < 8 * (xs.length + 1) := by omega
        simp only [h, h2, this, if_false]
        congr 1; omega

@[simp] theorem bufBits_length (buf : List Byte) (n : Nat) : (bufBits buf n).length = n := by simp [bufBits]

@[simp] theorem bufBits_zero (buf : List Byte) : bufBits buf 0 = [] := rfl

theorem bufBits_getD (buf : List Byte) (n i : Nat) :
    (bufBits buf n).getD i false = (decide (i < n) && bufBit buf i) := by
  by_cases h : i < n <;> simp [bufBits, List.getD, h]

theorem bufBits_succ (buf : List Byte) (n : Nat) : bufBits buf (n + 1) = bufBits buf n ++ [bufBit buf n] := by
  simp [bufBits, List.range_succ]

theorem bufBits_cons (b : Byte) (bs : List Byte) (n : Nat) :
    bufBits (b :: bs) (8 + n) = byteBits 8 b ++ bufBits bs n := by
  unfold bufBits byteBits
  rw [List.range_add, List.map_append, List.map_map]
  have h1 : (List.range 8).map (bufBit (b :: bs)) = (List.range 8).map b.getLsbD :=
    List.map_congr_left fun i hi => by rw [bufBit_cons, if_pos (List.mem_range.mp hi)]
  have h2 : (List.range n).map (bufBit (b :: bs) ∘ fun x => 8 + x) = (List.range n).map (bufBit bs) :=
    List.map_congr_left fun i _ => by simp [bufBit_cons]
  rw [h1, h2]

theorem payloadBits_eq (payload : List Byte) : payloadBits payload = bufBits payload (8 * payload.length) := by
  induction payload with
  | nil => rfl
  | cons b bs ih =>
    rw [List.length_cons, Nat.mul_succ, Nat.add_comm, bufBits_cons, ← ih]
    rfl

@[simp] theorem payloadBits_length (payload : List Byte) : (payloadBits payload).length = 8 * payload.length := by
  rw [payloadBits_eq, bufBits_length]

/-- Two bit lists of one length agree when their entries do. -/
theorem bits_ext {a b : List Bool} (hl : a.length = b.length) (h : ∀ i, a.getD i false = b.getD i false) : a = b := by
  apply List.ext_getElem hl
  intro i h1 h2
  have := h i
  simpa [List.getD, h1, h2] using this

theorem natBytes_length (n v : Nat) : (natBytes n v).length = n := by
  induction n generalizing v with
  | zero => rfl
  | succ n ih => simp [natBytes, ih]

theorem natBytes_bufBit (n v i : Nat) : bufBit (natBytes n v) i = (decide (i < 8 * n) && v.testBit i) := by
  induction n generalizing v i with
  | zero => simp [natBytes, bufBit_nil]
  | succ n ih =>
    rw [natBytes, bufBit_cons, ih]
    split
    · rename_i h
      have : i < 8 * (n + 1) := by omega
      rw [BitVec.getLsbD_ofNat]; simp [h, this]
    · rename_i h
      have e : v / 256 = v / 2 ^ 8 := rfl
      rw [e, Nat.testBit_div_two_pow]
      have h2 : i - 8 + 8 = i := by omega
      rw [h2]
      by_cases h3 : i - 8 < 8 * n
      · have : i < 8 * (n + 1) := by omega
        simp [h3, this]
      · have : ¬ i < 8 * (n + 1) := by omega
        simp [h3, this]

theorem bufNat_testBit (buf : List Byte) (o w i : Nat) :
    (bufNat buf o w).testBit i = (decide (i < w) && bufBit buf (o + i)) := by
  rw [bufNat, natOfBits_testBit]
  by_cases h : i < w <;> simp [List.getD, h]

end Sys2Proof.Machine
end

