-- ==== Sys2Proof/Laws/Codec.lean ====
section
/-! SUPPORT. The decoder against the encoder, layout by layout, and the decoder on longer streams. -/

namespace Sys2Proof

open Sys2Proof.Machine

theorem setWidth_len (l : LenField) : (l.setWidth 8 : Byte).toNat ≤ 7 ∧ (l.setWidth 8 : Byte).setWidth 3 = l := by
  constructor
  · have := l.isLt; simp only [BitVec.toNat_setWidth]; omega
  · simp

theorem decodeShort_encode (mk : LenField → Byte → Instr) (l : LenField) (d : Byte) (rest : List Byte) :
    decodeShort mk (l.setWidth 8 :: d :: rest) = .ok (mk l d, rest) := by
  have h := setWidth_len l
  simp only [decodeShort, h.1, if_true, h.2]

theorem bulk_length {payload : List Byte} (h : isBulkPayload payload = true) :
    (BitVec.ofNat 8 ((payload.length - 1) / 256)).toNat * 256 + (BitVec.ofNat 8 (payload.length - 1)).toNat + 1 =
      payload.length := by
  rw [isBulkPayload, Bool.and_eq_true, decide_eq_true_eq, decide_eq_true_eq, Config.bulkMaxBytes] at h
  simp only [BitVec.toNat_ofNat]
  omega

theorem decodeBulk_encode (mk : List Byte → Instr) {payload : List Byte} (rest : List Byte)
    (h : isBulkPayload payload = true) :
    decodeBulk mk (BitVec.ofNat 8 (payload.length - 1) :: BitVec.ofNat 8 ((payload.length - 1) / 256) ::
      (payload ++ rest)) = .ok (mk payload, rest) := by
  simp only [decodeBulk, bulk_length h]
  simp

/-- One encoded command at the front of a stream decodes to itself, and the bytes after it stay. -/
theorem decodeCommand_encode (p : Params) (i : Instr) (rest : List Byte) (hp : p.distinct) (hw : i.wf = true)
    (hs : i.space = .tx) : decodeCommand p (encode p i ++ rest) = .ok (i, rest) := by
  simp only [Params.distinct, Params.opcodes, List.nodup_cons, List.mem_cons, List.not_mem_nil, or_false,
    not_or] at hp
  obtain ⟨⟨h1, h2, h3, h4, h5⟩, ⟨h6, h7, h8, h9⟩, ⟨h10, h11, h12⟩, ⟨h13, h14⟩, h15, -⟩ := hp
  cases i <;> simp only [Instr.space, reduceCtorEq] at hs <;>
    simp only [encode, encodeShort, encodeBulk, decodeCommand, List.cons_append, List.nil_append] <;>
    simp only [if_true, Ne.symm h1, Ne.symm h2, Ne.symm h3, Ne.symm h4, Ne.symm h5, Ne.symm h6, Ne.symm h7,
      Ne.symm h8, Ne.symm h9, Ne.symm h10, Ne.symm h11, Ne.symm h12, Ne.symm h13, Ne.symm h14, Ne.symm h15,
      if_false]
  case tmsOut => exact decodeShort_encode _ _ _ _
  case tmsInout => exact decodeShort_encode _ _ _ _
  case bitsOut => exact decodeShort_encode _ _ _ _
  case bitsInout => exact decodeShort_encode _ _ _ _
  case bytesOut => exact decodeBulk_encode _ _ hw
  case bytesInout => exact decodeBulk_encode _ _ hw

theorem decodeShort_append {mk : LenField → Byte → Instr} {bs more rest : List Byte} {i : Instr}
    (h : decodeShort mk bs = .ok (i, rest)) : decodeShort mk (bs ++ more) = .ok (i, rest ++ more) := by
  match bs, h with
  | l :: d :: tail, h =>
    simp only [decodeShort, List.cons_append] at h ⊢
    split at h
    · rename_i hl
      simp only [Except.ok.injEq, Prod.mk.injEq] at h
      rw [if_pos hl, h.1, h.2]
    · cases h

theorem decodeBulk_append {mk : List Byte → Instr} {bs more rest : List Byte} {i : Instr}
    (h : decodeBulk mk bs = .ok (i, rest)) : decodeBulk mk (bs ++ more) = .ok (i, rest ++ more) := by
  match bs, h with
  | ll :: lh :: tail, h =>
    simp only [decodeBulk, List.cons_append] at h ⊢
    split at h
    · rename_i hl
      simp only [Except.ok.injEq, Prod.mk.injEq] at h
      have h2 : lh.toNat * 256 + ll.toNat + 1 ≤ (tail ++ more).length := by
        rw [List.length_append]; omega
      rw [if_pos h2, List.take_append_of_le_length hl, List.drop_append_of_le_length hl, h.1, h.2]
    · cases h

/-- A complete command stays what it is when more bytes arrive after it. -/
theorem decodeCommand_append {p : Params} {bs rest : List Byte} {i : Instr} (more : List Byte)
    (h : decodeCommand p bs = .ok (i, rest)) : decodeCommand p (bs ++ more) = .ok (i, rest ++ more) := by
  match bs, h with
  | b :: tail, h =>
    simp only [decodeCommand, List.cons_append] at h ⊢
    by_cases c0 : b = p.opcTmsOut
    · rw [if_pos c0] at h ⊢; exact decodeShort_append h
    rw [if_neg c0] at h ⊢
    by_cases c1 : b = p.opcTmsInout
    · rw [if_pos c1] at h ⊢; exact decodeShort_append h
    rw [if_neg c1] at h ⊢
    by_cases c2 : b = p.opcBytesOut
    · rw [if_pos c2] at h ⊢; exact decodeBulk_append h
    rw [if_neg c2] at h ⊢
    by_cases c3 : b = p.opcBytesInout
    · rw [if_pos c3] at h ⊢; exact decodeBulk_append h
    rw [if_neg c3] at h ⊢
    by_cases c4 : b = p.opcBitsOut
    · rw [if_pos c4] at h ⊢; exact decodeShort_append h
    rw [if_neg c4] at h ⊢
    by_cases c5 : b = p.opcBitsInout
    · rw [if_pos c5] at h ⊢; exact decodeShort_append h
    rw [if_neg c5] at h ⊢
    cases h

theorem decodeShort_length {mk : LenField → Byte → Instr} {bs rest : List Byte} {i : Instr}
    (h : decodeShort mk bs = .ok (i, rest)) : rest.length < bs.length := by
  match bs, h with
  | l :: d :: tail, h =>
    simp only [decodeShort] at h
    split at h
    · simp only [Except.ok.injEq, Prod.mk.injEq] at h
      simp only [← h.2, List.length_cons]; omega
    · cases h

theorem decodeBulk_length {mk : List Byte → Instr} {bs rest : List Byte} {i : Instr}
    (h : decodeBulk mk bs = .ok (i, rest)) : rest.length < bs.length := by
  match bs, h with
  | ll :: lh :: tail, h =>
    simp only [decodeBulk] at h
    split at h
    · simp only [Except.ok.injEq, Prod.mk.injEq] at h
      simp only [← h.2, List.length_cons, List.length_drop]; omega
    · cases h

/-- Decoding a command takes bytes from the stream. -/
theorem decodeCommand_length {p : Params} {bs rest : List Byte} {i : Instr}
    (h : decodeCommand p bs = .ok (i, rest)) : rest.length < bs.length := by
  match bs, h with
  | b :: tail, h =>
    simp only [decodeCommand] at h
    simp only [List.length_cons]
    repeat' split at h
    all_goals
      first
      | (have := decodeShort_length h; omega)
      | (have := decodeBulk_length h; omega)
      | cases h

theorem countOfBytes_countBytes (c : Count) :
    countOfBytes (c.extractLsb' 0 8) (c.extractLsb' 8 8) (c.extractLsb' 16 8) (c.extractLsb' 24 8) = c := by
  unfold countOfBytes
  apply BitVec.eq_of_getLsbD_eq
  intro i hi
  simp only [BitVec.getLsbD_append, BitVec.getLsbD_extractLsb']
  by_cases h1 : i < 8
  · simp [h1]
  · by_cases h2 : i - 8 < 8
    · simp [h1, h2]; congr 1; omega
    · by_cases h3 : i - 8 - 8 < 8
      · simp [h1, h2, h3]; congr 1; omega
      · have h4 : i - 8 - 8 - 8 < 8 := by omega
        simp [h1, h2, h3, h4]; congr 1; omega

/-- The bytes of a descriptor give back its fields. -/
theorem descriptorFields_encode (op : Byte) (count : Count) (data : List Byte) :
    descriptorFields (encodeDescriptor op count data) = some (op, count, data) := by
  simp [encodeDescriptor, countBytes, descriptorFields, countOfBytes_countBytes]

end Sys2Proof
end

