-- ==== Sys2Proof/Laws/State.lean ====
section
/-! SUPPORT. One lemma per field per update of the state: what each named update leaves in each field. -/

namespace Sys2Proof.Machine

open Sys2Proof

/-! ## clockTms -/

@[simp] theorem clockTms_tapShadow (s : State) (t : Bool) : (clockTms s t).tapShadow = stepSet s.tapShadow (.ofBool t) := rfl
@[simp] theorem clockTms_tmsShadow (s : State) (t : Bool) : (clockTms s t).tmsShadow = .ofBool t := rfl
@[simp] theorem clockTms_desync (s : State) (t : Bool) : (clockTms s t).desync = s.desync := rfl
@[simp] theorem clockTms_fault (s : State) (t : Bool) : (clockTms s t).fault = s.fault := rfl
@[simp] theorem clockTms_txLog (s : State) (t : Bool) : (clockTms s t).txLog = s.txLog := rfl
@[simp] theorem clockTms_rxLog (s : State) (t : Bool) : (clockTms s t).rxLog = s.rxLog := rfl
@[simp] theorem clockTms_op (s : State) (t : Bool) : (clockTms s t).op = s.op := rfl
@[simp] theorem clockTms_count (s : State) (t : Bool) : (clockTms s t).count = s.count := rfl
@[simp] theorem clockTms_data (s : State) (t : Bool) : (clockTms s t).data = s.data := rfl
@[simp] theorem clockTms_status (s : State) (t : Bool) : (clockTms s t).status = s.status := rfl
@[simp] theorem clockTms_subcause (s : State) (t : Bool) : (clockTms s t).subcause = s.subcause := rfl
@[simp] theorem clockTms_result (s : State) (t : Bool) : (clockTms s t).result = s.result := rfl
@[simp] theorem clockTms_tmsPin (s : State) (t : Bool) : (clockTms s t).tmsPin = s.tmsPin := rfl
@[simp] theorem clockTms_loopback (s : State) (t : Bool) : (clockTms s t).loopback = s.loopback := rfl
@[simp] theorem clockTms_cmdQueue (s : State) (t : Bool) : (clockTms s t).cmdQueue = s.cmdQueue := rfl
@[simp] theorem clockTms_replyQueue (s : State) (t : Bool) : (clockTms s t).replyQueue = s.replyQueue := rfl
@[simp] theorem clockTms_taps (s : State) (t : Bool) : (clockTms s t).taps = s.taps := rfl
@[simp] theorem clockTms_pending (s : State) (t : Bool) : (clockTms s t).pending = s.pending := rfl
@[simp] theorem clockTms_position (s : State) (t : Bool) : (clockTms s t).position = s.position := rfl
@[simp] theorem clockTms_selection (s : State) (t : Bool) : (clockTms s t).selection = s.selection := rfl
@[simp] theorem clockTms_clientFault (s : State) (t : Bool) : (clockTms s t).clientFault = s.clientFault := rfl
@[simp] theorem clockTms_clientReply (s : State) (t : Bool) : (clockTms s t).clientReply = s.clientReply := rfl
@[simp] theorem clockTms_params (s : State) (t : Bool) : (clockTms s t).params = s.params := rfl
@[simp] theorem clockTms_writeFails (s : State) (t : Bool) : (clockTms s t).writeFails = s.writeFails := rfl
@[simp] theorem clockTms_readDraws (s : State) (t : Bool) : (clockTms s t).readDraws = s.readDraws := rfl
@[simp] theorem clockTms_freeCount (s : State) (t : Bool) : (clockTms s t).freeCount = s.freeCount := rfl

/-! ## clockData -/

@[simp] theorem clockData_tapShadow (s : State) : (clockData s).tapShadow = stepSet s.tapShadow s.tmsShadow := rfl
@[simp] theorem clockData_tmsShadow (s : State) : (clockData s).tmsShadow = s.tmsShadow := rfl
@[simp] theorem clockData_desync (s : State) : (clockData s).desync = s.desync := rfl
@[simp] theorem clockData_fault (s : State) : (clockData s).fault = s.fault := rfl
@[simp] theorem clockData_txLog (s : State) : (clockData s).txLog = s.txLog := rfl
@[simp] theorem clockData_rxLog (s : State) : (clockData s).rxLog = s.rxLog := rfl
@[simp] theorem clockData_op (s : State) : (clockData s).op = s.op := rfl
@[simp] theorem clockData_count (s : State) : (clockData s).count = s.count := rfl
@[simp] theorem clockData_data (s : State) : (clockData s).data = s.data := rfl
@[simp] theorem clockData_status (s : State) : (clockData s).status = s.status := rfl
@[simp] theorem clockData_subcause (s : State) : (clockData s).subcause = s.subcause := rfl
@[simp] theorem clockData_result (s : State) : (clockData s).result = s.result := rfl
@[simp] theorem clockData_tmsPin (s : State) : (clockData s).tmsPin = s.tmsPin := rfl
@[simp] theorem clockData_loopback (s : State) : (clockData s).loopback = s.loopback := rfl
@[simp] theorem clockData_cmdQueue (s : State) : (clockData s).cmdQueue = s.cmdQueue := rfl
@[simp] theorem clockData_replyQueue (s : State) : (clockData s).replyQueue = s.replyQueue := rfl
@[simp] theorem clockData_taps (s : State) : (clockData s).taps = s.taps := rfl
@[simp] theorem clockData_pending (s : State) : (clockData s).pending = s.pending := rfl
@[simp] theorem clockData_position (s : State) : (clockData s).position = s.position := rfl
@[simp] theorem clockData_selection (s : State) : (clockData s).selection = s.selection := rfl
@[simp] theorem clockData_clientFault (s : State) : (clockData s).clientFault = s.clientFault := rfl
@[simp] theorem clockData_clientReply (s : State) : (clockData s).clientReply = s.clientReply := rfl
@[simp] theorem clockData_params (s : State) : (clockData s).params = s.params := rfl
@[simp] theorem clockData_writeFails (s : State) : (clockData s).writeFails = s.writeFails := rfl
@[simp] theorem clockData_readDraws (s : State) : (clockData s).readDraws = s.readDraws := rfl
@[simp] theorem clockData_freeCount (s : State) : (clockData s).freeCount = s.freeCount := rfl

/-! ## reply -/

@[simp] theorem reply_tapShadow (b : List Byte) (s : State) : (reply b s).tapShadow = s.tapShadow := rfl
@[simp] theorem reply_tmsShadow (b : List Byte) (s : State) : (reply b s).tmsShadow = s.tmsShadow := rfl
@[simp] theorem reply_desync (b : List Byte) (s : State) : (reply b s).desync = s.desync := rfl
@[simp] theorem reply_fault (b : List Byte) (s : State) : (reply b s).fault = s.fault := rfl
@[simp] theorem reply_txLog (b : List Byte) (s : State) : (reply b s).txLog = s.txLog := rfl
@[simp] theorem reply_rxLog (b : List Byte) (s : State) : (reply b s).rxLog = s.rxLog := rfl
@[simp] theorem reply_op (b : List Byte) (s : State) : (reply b s).op = s.op := rfl
@[simp] theorem reply_count (b : List Byte) (s : State) : (reply b s).count = s.count := rfl
@[simp] theorem reply_data (b : List Byte) (s : State) : (reply b s).data = s.data := rfl
@[simp] theorem reply_status (b : List Byte) (s : State) : (reply b s).status = s.status := rfl
@[simp] theorem reply_subcause (b : List Byte) (s : State) : (reply b s).subcause = s.subcause := rfl
@[simp] theorem reply_result (b : List Byte) (s : State) : (reply b s).result = s.result := rfl
@[simp] theorem reply_tmsPin (b : List Byte) (s : State) : (reply b s).tmsPin = s.tmsPin := rfl
@[simp] theorem reply_loopback (b : List Byte) (s : State) : (reply b s).loopback = s.loopback := rfl
@[simp] theorem reply_cmdQueue (b : List Byte) (s : State) : (reply b s).cmdQueue = s.cmdQueue := rfl
@[simp] theorem reply_replyQueue (b : List Byte) (s : State) : (reply b s).replyQueue = s.replyQueue ++ b := rfl
@[simp] theorem reply_taps (b : List Byte) (s : State) : (reply b s).taps = s.taps := rfl
@[simp] theorem reply_pending (b : List Byte) (s : State) : (reply b s).pending = s.pending := rfl
@[simp] theorem reply_position (b : List Byte) (s : State) : (reply b s).position = s.position := rfl
@[simp] theorem reply_selection (b : List Byte) (s : State) : (reply b s).selection = s.selection := rfl
@[simp] theorem reply_clientFault (b : List Byte) (s : State) : (reply b s).clientFault = s.clientFault := rfl
@[simp] theorem reply_clientReply (b : List Byte) (s : State) : (reply b s).clientReply = s.clientReply := rfl
@[simp] theorem reply_params (b : List Byte) (s : State) : (reply b s).params = s.params := rfl
@[simp] theorem reply_writeFails (b : List Byte) (s : State) : (reply b s).writeFails = s.writeFails := rfl
@[simp] theorem reply_readDraws (b : List Byte) (s : State) : (reply b s).readDraws = s.readDraws := rfl
@[simp] theorem reply_freeCount (b : List Byte) (s : State) : (reply b s).freeCount = s.freeCount := rfl

/-! ## raiseFault -/

@[simp] theorem raiseFault_tapShadow (k : ContractFault) (s : State) : (raiseFault k s).tapShadow = s.tapShadow := rfl
@[simp] theorem raiseFault_tmsShadow (k : ContractFault) (s : State) : (raiseFault k s).tmsShadow = s.tmsShadow := rfl
@[simp] theorem raiseFault_desync (k : ContractFault) (s : State) : (raiseFault k s).desync = s.desync := rfl
@[simp] theorem raiseFault_fault (k : ContractFault) (s : State) : (raiseFault k s).fault = some k := rfl
@[simp] theorem raiseFault_txLog (k : ContractFault) (s : State) : (raiseFault k s).txLog = s.txLog := rfl
@[simp] theorem raiseFault_rxLog (k : ContractFault) (s : State) : (raiseFault k s).rxLog = s.rxLog := rfl
@[simp] theorem raiseFault_op (k : ContractFault) (s : State) : (raiseFault k s).op = s.op := rfl
@[simp] theorem raiseFault_count (k : ContractFault) (s : State) : (raiseFault k s).count = s.count := rfl
@[simp] theorem raiseFault_data (k : ContractFault) (s : State) : (raiseFault k s).data = s.data := rfl
@[simp] theorem raiseFault_status (k : ContractFault) (s : State) : (raiseFault k s).status = k.code := rfl
@[simp] theorem raiseFault_subcause (k : ContractFault) (s : State) : (raiseFault k s).subcause = 0 := rfl
@[simp] theorem raiseFault_result (k : ContractFault) (s : State) : (raiseFault k s).result = [] := rfl
@[simp] theorem raiseFault_tmsPin (k : ContractFault) (s : State) : (raiseFault k s).tmsPin = s.tmsPin := rfl
@[simp] theorem raiseFault_loopback (k : ContractFault) (s : State) : (raiseFault k s).loopback = s.loopback := rfl
@[simp] theorem raiseFault_cmdQueue (k : ContractFault) (s : State) : (raiseFault k s).cmdQueue = s.cmdQueue := rfl
@[simp] theorem raiseFault_replyQueue (k : ContractFault) (s : State) : (raiseFault k s).replyQueue = s.replyQueue := rfl
@[simp] theorem raiseFault_taps (k : ContractFault) (s : State) : (raiseFault k s).taps = s.taps := rfl
@[simp] theorem raiseFault_pending (k : ContractFault) (s : State) : (raiseFault k s).pending = s.pending := rfl
@[simp] theorem raiseFault_position (k : ContractFault) (s : State) : (raiseFault k s).position = s.position := rfl
@[simp] theorem raiseFault_selection (k : ContractFault) (s : State) : (raiseFault k s).selection = s.selection := rfl
@[simp] theorem raiseFault_clientFault (k : ContractFault) (s : State) : (raiseFault k s).clientFault = s.clientFault := rfl
@[simp] theorem raiseFault_clientReply (k : ContractFault) (s : State) : (raiseFault k s).clientReply = s.clientReply := rfl
@[simp] theorem raiseFault_params (k : ContractFault) (s : State) : (raiseFault k s).params = s.params := rfl
@[simp] theorem raiseFault_writeFails (k : ContractFault) (s : State) : (raiseFault k s).writeFails = s.writeFails := rfl
@[simp] theorem raiseFault_readDraws (k : ContractFault) (s : State) : (raiseFault k s).readDraws = s.readDraws := rfl
@[simp] theorem raiseFault_freeCount (k : ContractFault) (s : State) : (raiseFault k s).freeCount = s.freeCount := rfl

/-! ## raiseError -/

@[simp] theorem raiseError_tapShadow (e : ErrorKind) (s : State) : (raiseError e s).tapShadow = allStates := rfl
@[simp] theorem raiseError_tmsShadow (e : ErrorKind) (s : State) : (raiseError e s).tmsShadow = .x := rfl
@[simp] theorem raiseError_desync (e : ErrorKind) (s : State) : (raiseError e s).desync = true := rfl
@[simp] theorem raiseError_fault (e : ErrorKind) (s : State) : (raiseError e s).fault = s.fault := rfl
@[simp] theorem raiseError_txLog (e : ErrorKind) (s : State) : (raiseError e s).txLog = s.txLog := rfl
@[simp] theorem raiseError_rxLog (e : ErrorKind) (s : State) : (raiseError e s).rxLog = s.rxLog := rfl
@[simp] theorem raiseError_op (e : ErrorKind) (s : State) : (raiseError e s).op = s.op := rfl
@[simp] theorem raiseError_count (e : ErrorKind) (s : State) : (raiseError e s).count = s.count := rfl
@[simp] theorem raiseError_data (e : ErrorKind) (s : State) : (raiseError e s).data = s.data := rfl
@[simp] theorem raiseError_status (e : ErrorKind) (s : State) : (raiseError e s).status = e.code := rfl
@[simp] theorem raiseError_subcause (e : ErrorKind) (s : State) : (raiseError e s).subcause = e.subcause := rfl
@[simp] theorem raiseError_result (e : ErrorKind) (s : State) : (raiseError e s).result = [] := rfl
@[simp] theorem raiseError_tmsPin (e : ErrorKind) (s : State) : (raiseError e s).tmsPin = Config.freeLevel s.freeCount := rfl
@[simp] theorem raiseError_loopback (e : ErrorKind) (s : State) : (raiseError e s).loopback = s.loopback := rfl
@[simp] theorem raiseError_cmdQueue (e : ErrorKind) (s : State) : (raiseError e s).cmdQueue = Config.freeBytes s.freeCount 0 := rfl
@[simp] theorem raiseError_replyQueue (e : ErrorKind) (s : State) : (raiseError e s).replyQueue = Config.freeBytes s.freeCount 1 := rfl
@[simp] theorem raiseError_taps (e : ErrorKind) (s : State) : (raiseError e s).taps = unknownChain s.freeCount s.taps := rfl
@[simp] theorem raiseError_pending (e : ErrorKind) (s : State) : (raiseError e s).pending = s.pending := rfl
@[simp] theorem raiseError_position (e : ErrorKind) (s : State) : (raiseError e s).position = s.position := rfl
@[simp] theorem raiseError_selection (e : ErrorKind) (s : State) : (raiseError e s).selection = s.selection := rfl
@[simp] theorem raiseError_clientFault (e : ErrorKind) (s : State) : (raiseError e s).clientFault = s.clientFault := rfl
@[simp] theorem raiseError_clientReply (e : ErrorKind) (s : State) : (raiseError e s).clientReply = s.clientReply := rfl
@[simp] theorem raiseError_params (e : ErrorKind) (s : State) : (raiseError e s).params = s.params := rfl
@[simp] theorem raiseError_writeFails (e : ErrorKind) (s : State) : (raiseError e s).writeFails = s.writeFails := rfl
@[simp] theorem raiseError_readDraws (e : ErrorKind) (s : State) : (raiseError e s).readDraws = s.readDraws := rfl
@[simp] theorem raiseError_freeCount (e : ErrorKind) (s : State) : (raiseError e s).freeCount = s.freeCount + 1 := rfl

/-! ## loadPort -/

@[simp] theorem loadPort_tapShadow (o : Byte) (c : Count) (d : List Byte) (s : State) : (loadPort o c d s).tapShadow = s.tapShadow := rfl
@[simp] theorem loadPort_tmsShadow (o : Byte) (c : Count) (d : List Byte) (s : State) : (loadPort o c d s).tmsShadow = s.tmsShadow := rfl
@[simp] theorem loadPort_desync (o : Byte) (c : Count) (d : List Byte) (s : State) : (loadPort o c d s).desync = s.desync := rfl
@[simp] theorem loadPort_fault (o : Byte) (c : Count) (d : List Byte) (s : State) : (loadPort o c d s).fault = s.fault := rfl
@[simp] theorem loadPort_txLog (o : Byte) (c : Count) (d : List Byte) (s : State) : (loadPort o c d s).txLog = s.txLog := rfl
@[simp] theorem loadPort_rxLog (o : Byte) (c : Count) (d : List Byte) (s : State) : (loadPort o c d s).rxLog = s.rxLog := rfl
@[simp] theorem loadPort_op (o : Byte) (c : Count) (d : List Byte) (s : State) : (loadPort o c d s).op = o := rfl
@[simp] theorem loadPort_count (o : Byte) (c : Count) (d : List Byte) (s : State) : (loadPort o c d s).count = c := rfl
@[simp] theorem loadPort_data (o : Byte) (c : Count) (d : List Byte) (s : State) : (loadPort o c d s).data = d := rfl
@[simp] theorem loadPort_status (o : Byte) (c : Count) (d : List Byte) (s : State) : (loadPort o c d s).status = s.status := rfl
@[simp] theorem loadPort_subcause (o : Byte) (c : Count) (d : List Byte) (s : State) : (loadPort o c d s).subcause = s.subcause := rfl
@[simp] theorem loadPort_result (o : Byte) (c : Count) (d : List Byte) (s : State) : (loadPort o c d s).result = s.result := rfl
@[simp] theorem loadPort_tmsPin (o : Byte) (c : Count) (d : List Byte) (s : State) : (loadPort o c d s).tmsPin = s.tmsPin := rfl
@[simp] theorem loadPort_loopback (o : Byte) (c : Count) (d : List Byte) (s : State) : (loadPort o c d s).loopback = s.loopback := rfl
@[simp] theorem loadPort_cmdQueue (o : Byte) (c : Count) (d : List Byte) (s : State) : (loadPort o c d s).cmdQueue = s.cmdQueue := rfl
@[simp] theorem loadPort_replyQueue (o : Byte) (c : Count) (d : List Byte) (s : State) : (loadPort o c d s).replyQueue = s.replyQueue := rfl
@[simp] theorem loadPort_taps (o : Byte) (c : Count) (d : List Byte) (s : State) : (loadPort o c d s).taps = s.taps := rfl
@[simp] theorem loadPort_pending (o : Byte) (c : Count) (d : List Byte) (s : State) : (loadPort o c d s).pending = s.pending := rfl
@[simp] theorem loadPort_position (o : Byte) (c : Count) (d : List Byte) (s : State) : (loadPort o c d s).position = s.position := rfl
@[simp] theorem loadPort_selection (o : Byte) (c : Count) (d : List Byte) (s : State) : (loadPort o c d s).selection = s.selection := rfl
@[simp] theorem loadPort_clientFault (o : Byte) (c : Count) (d : List Byte) (s : State) : (loadPort o c d s).clientFault = s.clientFault := rfl
@[simp] theorem loadPort_clientReply (o : Byte) (c : Count) (d : List Byte) (s : State) : (loadPort o c d s).clientReply = s.clientReply := rfl
@[simp] theorem loadPort_params (o : Byte) (c : Count) (d : List Byte) (s : State) : (loadPort o c d s).params = s.params := rfl
@[simp] theorem loadPort_writeFails (o : Byte) (c : Count) (d : List Byte) (s : State) : (loadPort o c d s).writeFails = s.writeFails := rfl
@[simp] theorem loadPort_readDraws (o : Byte) (c : Count) (d : List Byte) (s : State) : (loadPort o c d s).readDraws = s.readDraws := rfl
@[simp] theorem loadPort_freeCount (o : Byte) (c : Count) (d : List Byte) (s : State) : (loadPort o c d s).freeCount = s.freeCount := rfl

/-! ## purge -/

@[simp] theorem purge_tapShadow (s : State) : (purge s).tapShadow = s.tapShadow := rfl
@[simp] theorem purge_tmsShadow (s : State) : (purge s).tmsShadow = s.tmsShadow := rfl
@[simp] theorem purge_desync (s : State) : (purge s).desync = false := rfl
@[simp] theorem purge_fault (s : State) : (purge s).fault = s.fault := rfl
@[simp] theorem purge_txLog (s : State) : (purge s).txLog = s.txLog := rfl
@[simp] theorem purge_rxLog (s : State) : (purge s).rxLog = s.rxLog := rfl
@[simp] theorem purge_op (s : State) : (purge s).op = s.op := rfl
@[simp] theorem purge_count (s : State) : (purge s).count = s.count := rfl
@[simp] theorem purge_data (s : State) : (purge s).data = s.data := rfl
@[simp] theorem purge_status (s : State) : (purge s).status = s.status := rfl
@[simp] theorem purge_subcause (s : State) : (purge s).subcause = s.subcause := rfl
@[simp] theorem purge_result (s : State) : (purge s).result = s.result := rfl
@[simp] theorem purge_tmsPin (s : State) : (purge s).tmsPin = s.tmsPin := rfl
@[simp] theorem purge_loopback (s : State) : (purge s).loopback = s.loopback := rfl
@[simp] theorem purge_cmdQueue (s : State) : (purge s).cmdQueue = [] := rfl
@[simp] theorem purge_replyQueue (s : State) : (purge s).replyQueue = [] := rfl
@[simp] theorem purge_taps (s : State) : (purge s).taps = s.taps := rfl
@[simp] theorem purge_pending (s : State) : (purge s).pending = s.pending := rfl
@[simp] theorem purge_position (s : State) : (purge s).position = s.position := rfl
@[simp] theorem purge_selection (s : State) : (purge s).selection = s.selection := rfl
@[simp] theorem purge_clientFault (s : State) : (purge s).clientFault = s.clientFault := rfl
@[simp] theorem purge_clientReply (s : State) : (purge s).clientReply = s.clientReply := rfl
@[simp] theorem purge_params (s : State) : (purge s).params = s.params := rfl
@[simp] theorem purge_writeFails (s : State) : (purge s).writeFails = s.writeFails := rfl
@[simp] theorem purge_readDraws (s : State) : (purge s).readDraws = s.readDraws := rfl
@[simp] theorem purge_freeCount (s : State) : (purge s).freeCount = s.freeCount := rfl

/-! ## initTransport -/

@[simp] theorem initTransport_tapShadow (s : State) : (initTransport s).tapShadow = s.tapShadow := rfl
@[simp] theorem initTransport_tmsShadow (s : State) : (initTransport s).tmsShadow = s.tmsShadow := rfl
@[simp] theorem initTransport_desync (s : State) : (initTransport s).desync = s.desync := rfl
@[simp] theorem initTransport_fault (s : State) : (initTransport s).fault = s.fault := rfl
@[simp] theorem initTransport_txLog (s : State) : (initTransport s).txLog = s.txLog := rfl
@[simp] theorem initTransport_rxLog (s : State) : (initTransport s).rxLog = s.rxLog := rfl
@[simp] theorem initTransport_op (s : State) : (initTransport s).op = s.op := rfl
@[simp] theorem initTransport_count (s : State) : (initTransport s).count = s.count := rfl
@[simp] theorem initTransport_data (s : State) : (initTransport s).data = s.data := rfl
@[simp] theorem initTransport_status (s : State) : (initTransport s).status = s.status := rfl
@[simp] theorem initTransport_subcause (s : State) : (initTransport s).subcause = s.subcause := rfl
@[simp] theorem initTransport_result (s : State) : (initTransport s).result = s.result := rfl
@[simp] theorem initTransport_tmsPin (s : State) : (initTransport s).tmsPin = Config.freeLevel s.freeCount := rfl
@[simp] theorem initTransport_loopback (s : State) : (initTransport s).loopback = false := rfl
@[simp] theorem initTransport_cmdQueue (s : State) : (initTransport s).cmdQueue = [] := rfl
@[simp] theorem initTransport_replyQueue (s : State) : (initTransport s).replyQueue = [] := rfl
@[simp] theorem initTransport_taps (s : State) : (initTransport s).taps = s.taps := rfl
@[simp] theorem initTransport_pending (s : State) : (initTransport s).pending = s.pending := rfl
@[simp] theorem initTransport_position (s : State) : (initTransport s).position = s.position := rfl
@[simp] theorem initTransport_selection (s : State) : (initTransport s).selection = s.selection := rfl
@[simp] theorem initTransport_clientFault (s : State) : (initTransport s).clientFault = s.clientFault := rfl
@[simp] theorem initTransport_clientReply (s : State) : (initTransport s).clientReply = s.clientReply := rfl
@[simp] theorem initTransport_params (s : State) : (initTransport s).params = s.params := rfl
@[simp] theorem initTransport_writeFails (s : State) : (initTransport s).writeFails = s.writeFails := rfl
@[simp] theorem initTransport_readDraws (s : State) : (initTransport s).readDraws = s.readDraws := rfl
@[simp] theorem initTransport_freeCount (s : State) : (initTransport s).freeCount = s.freeCount + 1 := rfl

/-! ## powerUpBlock -/

@[simp] theorem powerUpBlock_tapShadow (s : State) : (powerUpBlock s).tapShadow = allStates := rfl
@[simp] theorem powerUpBlock_tmsShadow (s : State) : (powerUpBlock s).tmsShadow = .x := rfl
@[simp] theorem powerUpBlock_desync (s : State) : (powerUpBlock s).desync = false := rfl
@[simp] theorem powerUpBlock_fault (s : State) : (powerUpBlock s).fault = none := rfl
@[simp] theorem powerUpBlock_txLog (s : State) : (powerUpBlock s).txLog = [] := rfl
@[simp] theorem powerUpBlock_rxLog (s : State) : (powerUpBlock s).rxLog = [] := rfl
@[simp] theorem powerUpBlock_op (s : State) : (powerUpBlock s).op = 0 := rfl
@[simp] theorem powerUpBlock_count (s : State) : (powerUpBlock s).count = 0 := rfl
@[simp] theorem powerUpBlock_data (s : State) : (powerUpBlock s).data = [] := rfl
@[simp] theorem powerUpBlock_status (s : State) : (powerUpBlock s).status = 0 := rfl
@[simp] theorem powerUpBlock_subcause (s : State) : (powerUpBlock s).subcause = 0 := rfl
@[simp] theorem powerUpBlock_result (s : State) : (powerUpBlock s).result = [] := rfl
@[simp] theorem powerUpBlock_tmsPin (s : State) : (powerUpBlock s).tmsPin = s.tmsPin := rfl
@[simp] theorem powerUpBlock_loopback (s : State) : (powerUpBlock s).loopback = s.loopback := rfl
@[simp] theorem powerUpBlock_cmdQueue (s : State) : (powerUpBlock s).cmdQueue = s.cmdQueue := rfl
@[simp] theorem powerUpBlock_replyQueue (s : State) : (powerUpBlock s).replyQueue = s.replyQueue := rfl
@[simp] theorem powerUpBlock_taps (s : State) : (powerUpBlock s).taps = s.taps := rfl
@[simp] theorem powerUpBlock_pending (s : State) : (powerUpBlock s).pending = s.pending := rfl
@[simp] theorem powerUpBlock_position (s : State) : (powerUpBlock s).position = s.position := rfl
@[simp] theorem powerUpBlock_selection (s : State) : (powerUpBlock s).selection = s.selection := rfl
@[simp] theorem powerUpBlock_clientFault (s : State) : (powerUpBlock s).clientFault = s.clientFault := rfl
@[simp] theorem powerUpBlock_clientReply (s : State) : (powerUpBlock s).clientReply = s.clientReply := rfl
@[simp] theorem powerUpBlock_params (s : State) : (powerUpBlock s).params = s.params := rfl
@[simp] theorem powerUpBlock_writeFails (s : State) : (powerUpBlock s).writeFails = s.writeFails := rfl
@[simp] theorem powerUpBlock_readDraws (s : State) : (powerUpBlock s).readDraws = s.readDraws := rfl
@[simp] theorem powerUpBlock_freeCount (s : State) : (powerUpBlock s).freeCount = s.freeCount := rfl

end Sys2Proof.Machine
end

