-- ==== Sys2Proof/Laws/TapSets.lean ====
section
/-! SUPPORT. Sets of TAP states: membership in a step, and the walks from single states. -/

namespace Sys2Proof.Machine

open Sys2Proof

theorem TapState.mem_all (s : TapState) : s ∈ TapState.all := by cases s <;> decide

@[simp] theorem holds_or (A B : TapSet) (s : TapState) : holds (A ||| B) s = (holds A s || holds B s) := by
  simp [holds]

@[simp] theorem holds_zero (s : TapState) : holds (0#16) s = false := by simp [holds]

theorem holds_single (x y : TapState) : holds (single x) y = decide (x = y) := by
  cases x <;> cases y <;> rfl

@[simp] theorem holds_single_self (x : TapState) : holds (single x) x = true := by simp [holds_single]

@[simp] theorem holds_allStates (s : TapState) : holds allStates s = true := by cases s <;> rfl

/-- Two sets are equal when they hold the same states. -/
theorem tapSet_ext {A B : TapSet} (h : ∀ s, holds A s = holds B s) : A = B := by
  apply BitVec.eq_of_getLsbD_eq
  intro i hi
  have key : ∃ s : TapState, s.index = i := by
    have : i = 0 ∨ i = 1 ∨ i = 2 ∨ i = 3 ∨ i = 4 ∨ i = 5 ∨ i = 6 ∨ i = 7 ∨ i = 8 ∨ i = 9 ∨ i = 10 ∨ i = 11 ∨
        i = 12 ∨ i = 13 ∨ i = 14 ∨ i = 15 := by omega
    rcases this with h | h | h | h | h | h | h | h | h | h | h | h | h | h | h | h
    exacts [⟨.tlr, h.symm⟩, ⟨.rti, h.symm⟩, ⟨.selDr, h.symm⟩, ⟨.capDr, h.symm⟩, ⟨.shDr, h.symm⟩,
      ⟨.ex1Dr, h.symm⟩, ⟨.paDr, h.symm⟩, ⟨.ex2Dr, h.symm⟩, ⟨.upDr, h.symm⟩, ⟨.selIr, h.symm⟩,
      ⟨.capIr, h.symm⟩, ⟨.shIr, h.symm⟩, ⟨.ex1Ir, h.symm⟩, ⟨.paIr, h.symm⟩, ⟨.ex2Ir, h.symm⟩,
      ⟨.upIr, h.symm⟩]
  obtain ⟨s, rfl⟩ := key
  exact h s

theorem holds_fold (S : TapSet) (t : Bool) (s' : TapState) (l : List TapState) (acc : TapSet) :
    holds (l.foldl (fun acc s => if holds S s then acc ||| single (s.next t) else acc) acc) s' =
      (holds acc s' || l.any fun s => holds S s && decide (s.next t = s')) := by
  induction l generalizing acc with
  | nil => simp
  | cons x xs ih =>
    rw [List.foldl_cons, ih]
    by_cases h : holds S x = true
    · simp [h, holds_single, Bool.or_assoc]
    · simp [h]

/-- Membership in a step at a known level (10_state.md R27). -/
theorem holds_stepLevel (S : TapSet) (t : Bool) (s' : TapState) :
    holds (stepLevel S t) s' = true ↔ ∃ s, holds S s = true ∧ s.next t = s' := by
  rw [stepLevel, holds_fold]
  simp [List.any_eq_true, TapState.mem_all]

/-- The set never loses the state a member moves to. -/
theorem holds_stepSet_of {S : TapSet} {s : TapState} (l : TmsLevel) (t : Bool) (hs : holds S s = true)
    (hl : l = .x ∨ l = .ofBool t) : holds (stepSet S l) (s.next t) = true := by
  have h : holds (stepLevel S t) (s.next t) = true := (holds_stepLevel S t _).mpr ⟨s, hs, rfl⟩
  rcases hl with rfl | rfl
  · cases t <;> simp [stepSet, h]
  · cases t <;> simpa [stepSet, TmsLevel.ofBool] using h

theorem tapSet_ne_zero {S : TapSet} : S ≠ 0 ↔ ∃ s, holds S s = true := by
  constructor
  · intro h
    by_contra hc
    apply h
    apply tapSet_ext
    intro s
    have : ¬ holds S s = true := fun hs => hc ⟨s, hs⟩
    simpa using this
  · rintro ⟨s, hs⟩ rfl
    simp at hs

theorem single_ne_zero (s : TapState) : single s ≠ 0 := tapSet_ne_zero.mpr ⟨s, holds_single_self s⟩

/-- A step of a set that is not empty is not empty. -/
theorem stepSet_ne_zero {S : TapSet} (l : TmsLevel) (h : S ≠ 0) : stepSet S l ≠ 0 := by
  obtain ⟨s, hs⟩ := tapSet_ne_zero.mp h
  rcases l with _ | _ | _
  · exact tapSet_ne_zero.mpr ⟨s.next false, holds_stepSet_of .low false hs (.inr rfl)⟩
  · exact tapSet_ne_zero.mpr ⟨s.next true, holds_stepSet_of .high true hs (.inr rfl)⟩
  · exact tapSet_ne_zero.mpr ⟨s.next true, holds_stepSet_of .x true hs (.inl rfl)⟩

@[simp] theorem stepLevel_single (s : TapState) (t : Bool) : stepLevel (single s) t = single (s.next t) := by
  cases s <;> cases t <;> rfl

@[simp] theorem stepSet_single_ofBool (s : TapState) (t : Bool) :
    stepSet (single s) (.ofBool t) = single (s.next t) := by
  cases t <;> simp [stepSet, TmsLevel.ofBool]

@[simp] theorem walk_nil (S : TapSet) : walk S [] = S := rfl

@[simp] theorem walk_cons (S : TapSet) (t : Bool) (ts : List Bool) :
    walk S (t :: ts) = walk (stepSet S (.ofBool t)) ts := rfl

theorem walk_append (S : TapSet) (a b : List Bool) : walk S (a ++ b) = walk (walk S a) b := by
  simp [walk, List.foldl_append]

theorem walk_ne_zero {S : TapSet} (ts : List Bool) (h : S ≠ 0) : walk S ts ≠ 0 := by
  induction ts generalizing S with
  | nil => exact h
  | cons t ts ih => exact ih (stepSet_ne_zero _ h)

/-! ## The shadow updates of commands (41_bit_engine_encoder.md R132) -/

theorem clockTms_fold (ts : List Bool) (s : State) :
    ts.foldl clockTms s = { s with
      tapShadow := walk s.tapShadow ts
      tmsShadow := (ts.getLast?.map TmsLevel.ofBool).getD s.tmsShadow } := by
  induction ts generalizing s with
  | nil => rfl
  | cons t ts ih =>
    rw [List.foldl_cons, ih]
    cases h : ts.getLast? with
    | none =>
      have : ts = [] := List.getLast?_eq_none_iff.mp h
      subst this
      rfl
    | some u => simp [clockTms, List.getLast?_cons, h]

theorem clockDataTimes_eq (n : Nat) (s : State) :
    clockDataTimes n s = { s with tapShadow := (fun S => stepSet S s.tmsShadow)^[n] s.tapShadow } := by
  induction n generalizing s with
  | zero => rfl
  | succ n ih => rw [clockDataTimes, ih]; rfl

/-- A command's clocks change only the two shadows. -/
theorem shadowCommand_frame (i : Instr) (s : State) :
    shadowCommand i s = { s with
      tapShadow := (shadowCommand i s).tapShadow, tmsShadow := (shadowCommand i s).tmsShadow } := by
  cases i <;> simp only [shadowCommand, clockTms_fold, clockDataTimes_eq]

/-- The shadows after a command depend on the shadows before it only. -/
theorem shadowCommand_congr (i : Instr) (s t : State) (h1 : s.tapShadow = t.tapShadow)
    (h2 : s.tmsShadow = t.tmsShadow) :
    (shadowCommand i s).tapShadow = (shadowCommand i t).tapShadow ∧
      (shadowCommand i s).tmsShadow = (shadowCommand i t).tmsShadow := by
  cases i <;> simp only [shadowCommand, clockTms_fold, clockDataTimes_eq, h1, h2, and_self]

end Sys2Proof.Machine
end

