-- ==== Sys2Proof/Laws/Target.lean ====
section
/-! SUPPORT. The reference chain: what a clock does to a TAP's state, its parameters and its registers. -/

namespace Sys2Proof.Machine

open Sys2Proof Sys2Proof.Safety

/-- The parameters of a TAP, which no clock changes (45_reference_target.md R191). -/
def Tap.fixed (t : Tap) : BitVec 32 × Nat × Nat × Option Nat × Nat :=
  (t.idcode, t.irLength, t.idcodeInstr, t.echoInstr, t.echoLen)

/-! ## One TAP -/

/-- A shift changes the two shift registers only. -/
theorem Tap.shift_frame (t : Tap) (tdi : Bool) :
    t.shift tdi = { t with irSr := (t.shift tdi).irSr, drSr := (t.shift tdi).drSr } := by
  rcases t with ⟨_, _, _, _, _, s, _, _, _, _⟩
  cases s <;> rfl

@[simp] theorem Tap.shift_fixed (t : Tap) (tdi : Bool) : (t.shift tdi).fixed = t.fixed := by
  rw [Tap.shift_frame]; rfl

@[simp] theorem Tap.enter_state (t : Tap) (s : TapState) : (t.enter s).state = s := by
  cases s <;> simp only [Tap.enter]
  cases t.selected <;> rfl

@[simp] theorem Tap.enter_fixed (t : Tap) (s : TapState) : (t.enter s).fixed = t.fixed := by
  cases s <;> simp only [Tap.enter, Tap.fixed]
  cases t.selected <;> rfl

@[simp] theorem Tap.clock_state (t : Tap) (tms tdi : Bool) : (t.clock tms tdi).state = t.state.next tms := by
  simp [Tap.clock]

@[simp] theorem Tap.clock_fixed (t : Tap) (tms tdi : Bool) : (t.clock tms tdi).fixed = t.fixed := by
  simp [Tap.clock]

@[simp] theorem Tap.unknown_fixed (t : Tap) (draw tap : Nat) : (t.unknown draw tap).fixed = t.fixed := rfl

/-- Legality is about the parameters only. -/
theorem Tap.legal_congr {t u : Tap} (h : t.fixed = u.fixed) : t.legal = u.legal := by
  simp only [Tap.fixed, Prod.mk.injEq] at h
  obtain ⟨h1, h2, h3, h4, h5⟩ := h
  simp only [Tap.legal, h1, h2, h3, h4, h5]

/-! ## Registers keep within their widths (45_reference_target.md R192, R195) -/

theorem shiftIn_lt {w r : Nat} (tdi : Bool) (hw : 1 ≤ w) (hr : r < 2 ^ w) : shiftIn w r tdi < 2 ^ w := by
  obtain ⟨v, rfl⟩ : ∃ v, w = v + 1 := ⟨w - 1, by omega⟩
  have e : (2 : Nat) ^ (v + 1) = 2 * 2 ^ v := by rw [Nat.pow_succ]; omega
  apply Nat.or_lt_two_pow
  · rw [Nat.shiftRight_eq_div_pow]; omega
  · rw [Nat.shiftLeft_eq, Nat.add_sub_cancel, e]
    have : 0 < 2 ^ v := Nat.two_pow_pos v
    cases tdi <;> simp

theorem Tap.legal_irLength {t : Tap} (h : t.legal = true) : 1 ≤ t.irLength := by
  simp only [Tap.legal, Bool.and_eq_true, decide_eq_true_eq] at h
  exact h.1.1.1.2

theorem Tap.legal_echoLen {t : Tap} (h : t.legal = true) : 1 ≤ t.echoLen := by
  simp only [Tap.legal, Bool.and_eq_true, decide_eq_true_eq] at h
  exact h.1.2

theorem Tap.legal_idcodeInstr {t : Tap} (h : t.legal = true) : t.idcodeInstr < 2 ^ t.irLength - 1 := by
  simp only [Tap.legal, Bool.and_eq_true, decide_eq_true_eq] at h
  exact h.1.1.2

theorem Tap.legal_drWidth {t : Tap} (h : t.legal = true) : 1 ≤ t.drWidth := by
  have := Tap.legal_echoLen h
  unfold Tap.drWidth
  split <;> omega

/-- The fits of a TAP, one by one. -/
theorem Tap.fits_iff (t : Tap) : t.fits = true ↔ t.ir < 2 ^ t.irLength ∧ t.irSr < 2 ^ t.irLength ∧
    t.echo < 2 ^ t.echoLen ∧ (t.state.inDrScan = true → t.drSr < 2 ^ t.drWidth) := by
  simp only [Tap.fits, Bool.and_eq_true, Bool.or_eq_true, Bool.not_eq_true', decide_eq_true_eq]
  constructor
  · rintro ⟨⟨⟨h1, h2⟩, h3⟩, h4⟩
    refine ⟨h1, h2, h3, fun h => ?_⟩
    rcases h4 with h4 | h4
    · rw [h] at h4; cases h4
    · exact h4
  · rintro ⟨h1, h2, h3, h4⟩
    refine ⟨⟨⟨h1, h2⟩, h3⟩, ?_⟩
    cases h : t.state.inDrScan
    · exact .inl rfl
    · exact .inr (h4 h)

/-- The selected data register depends on `ir` and the parameters. -/
theorem Tap.drWidth_congr {t u : Tap} (h : t.fixed = u.fixed) (hi : t.ir = u.ir) : t.drWidth = u.drWidth := by
  simp only [Tap.fixed, Prod.mk.injEq] at h
  obtain ⟨h1, h2, h3, h4, h5⟩ := h
  simp only [Tap.drWidth, Tap.selected, h2, h3, h4, h5, hi]

theorem Tap.captureValue_lt {t : Tap} (h : t.fits = true) : t.captureValue < 2 ^ t.drWidth := by
  rw [Tap.fits_iff] at h
  unfold Tap.captureValue Tap.drWidth
  cases t.selected <;> simp only
  · decide
  · exact t.idcode.isLt
  · exact h.2.2.1

theorem Tap.shift_fits {t : Tap} (tdi : Bool) (hl : t.legal = true) (hf : t.fits = true) :
    (t.shift tdi).fits = true := by
  have h1 := Tap.legal_irLength hl
  have h2 := Tap.legal_drWidth hl
  have hw : (t.shift tdi).drWidth = t.drWidth := Tap.drWidth_congr (by simp) (by rw [Tap.shift_frame])
  rw [Tap.fits_iff] at hf ⊢
  obtain ⟨f1, f2, f3, f4⟩ := hf
  rw [hw]
  cases h : t.state <;> simp only [Tap.shift, h] at f4 ⊢ <;> refine ⟨f1, ?_, f3, ?_⟩ <;>
    first
    | exact f2
    | exact f4
    | exact shiftIn_lt tdi h1 f2
    | exact fun _ => shiftIn_lt tdi h2 (f4 rfl)

theorem Tap.enter_fits {t : Tap} {s : TapState} (hl : t.legal = true) (hf : t.fits = true)
    (hs : s.inDrScan = true → s ≠ .capDr → t.state.inDrScan = true) : (t.enter s).fits = true := by
  have hc := Tap.captureValue_lt hf
  have h1 := Tap.legal_irLength hl
  have h3 := Tap.legal_idcodeInstr hl
  have hsel : t.selected = .echo → t.drWidth = t.echoLen := fun e => by simp [Tap.drWidth, e]
  rw [Tap.fits_iff] at hf
  obtain ⟨f1, f2, f3, f4⟩ := hf
  have h2 : 1 < 2 ^ t.irLength := Nat.one_lt_two_pow (by omega)
  have hw : ∀ u : Tap, u.fixed = t.fixed → u.ir = t.ir → u.drWidth = t.drWidth :=
    fun u => Tap.drWidth_congr
  rw [Tap.fits_iff]
  cases s
  case upDr =>
    cases e : t.selected <;> simp only [Tap.enter, e]
    · exact ⟨f1, f2, f3, fun _ => f4 (hs rfl (by decide))⟩
    · exact ⟨f1, f2, f3, fun _ => f4 (hs rfl (by decide))⟩
    · refine ⟨f1, f2, ?_, fun _ => f4 (hs rfl (by decide))⟩
      rw [← hsel e]; exact f4 (hs rfl (by decide))
  case capDr => exact ⟨f1, f2, f3, fun _ => hc⟩
  case tlr => exact ⟨by simp only [Tap.enter]; omega, f2, f3, fun h => by cases h⟩
  case capIr => exact ⟨f1, h2, f3, fun h => by cases h⟩
  case upIr => exact ⟨f2, f2, f3, fun h => by cases h⟩
  all_goals
    first
    | exact ⟨f1, f2, f3, fun _ => f4 (hs rfl (by decide))⟩
    | exact ⟨f1, f2, f3, fun h => by cases h⟩

theorem TapState.next_inDrScan (s : TapState) (tms : Bool) (h : (s.next tms).inDrScan = true)
    (h2 : s.next tms ≠ .capDr) : s.inDrScan = true := by
  cases s <;> cases tms <;> first | rfl | (exfalso; revert h h2; decide)

/-- A clock keeps the registers within their widths. -/
theorem Tap.clock_fits {t : Tap} (tms tdi : Bool) (hl : t.legal = true) (hf : t.fits = true) :
    (t.clock tms tdi).fits = true := by
  refine Tap.enter_fits ?_ (Tap.shift_fits tdi hl hf) fun h1 h2 => ?_
  · rw [Tap.legal_congr (Tap.shift_fixed t tdi)]; exact hl
  · rw [Tap.shift_frame]; exact TapState.next_inDrScan _ _ h1 h2

theorem Tap.unknown_fits (t : Tap) (draw tap : Nat) : (t.unknown draw tap).fits = true := by
  rw [Tap.fits_iff]
  exact ⟨Nat.mod_lt _ (Nat.two_pow_pos _), Nat.mod_lt _ (Nat.two_pow_pos _), Nat.mod_lt _ (Nat.two_pow_pos _),
    fun _ => Nat.mod_lt _ (Nat.two_pow_pos _)⟩

/-! ## The chain -/

@[simp] theorem clockChain_length (taps : List Tap) (tms tdi : Bool) :
    (clockChain taps tms tdi).length = taps.length := by
  induction taps with
  | nil => rfl
  | cons t ts ih => simp [clockChain, ih]

@[simp] theorem clockChain_fixed (taps : List Tap) (tms tdi : Bool) :
    (clockChain taps tms tdi).map Tap.fixed = taps.map Tap.fixed := by
  induction taps with
  | nil => rfl
  | cons t ts ih => simp [clockChain, ih]

@[simp] theorem clockChain_states (taps : List Tap) (tms tdi : Bool) :
    (clockChain taps tms tdi).map Tap.state = taps.map fun t => t.state.next tms := by
  induction taps with
  | nil => rfl
  | cons t ts ih => simp [clockChain, ih]

@[simp] theorem unknownFrom_fixed (draw k : Nat) (taps : List Tap) :
    (unknownFrom draw k taps).map Tap.fixed = taps.map Tap.fixed := by
  induction taps generalizing k with
  | nil => rfl
  | cons t ts ih => simp [unknownFrom, ih]

@[simp] theorem unknownChain_fixed (draw : Nat) (taps : List Tap) :
    (unknownChain draw taps).map Tap.fixed = taps.map Tap.fixed := unknownFrom_fixed draw 0 taps

@[simp] theorem unknownChain_length (draw : Nat) (taps : List Tap) :
    (unknownChain draw taps).length = taps.length := by
  have h := congrArg List.length (unknownChain_fixed draw taps)
  rwa [List.length_map, List.length_map] at h

/-- Every TAP of a clocked chain is a clocked TAP of the chain before. -/
theorem mem_clockChain {taps : List Tap} {tms tdi : Bool} {u : Tap} (h : u ∈ clockChain taps tms tdi) :
    ∃ t ∈ taps, ∃ d, u = t.clock tms d := by
  induction taps with
  | nil => cases h
  | cons t ts ih =>
    rw [clockChain, List.mem_cons] at h
    rcases h with rfl | h
    · exact ⟨t, by simp, _, rfl⟩
    · obtain ⟨v, hv, d, rfl⟩ := ih h
      exact ⟨v, by simp [hv], d, rfl⟩

theorem mem_unknownFrom {draw k : Nat} {taps : List Tap} {u : Tap} (h : u ∈ unknownFrom draw k taps) :
    ∃ t ∈ taps, ∃ j, u = t.unknown draw j := by
  induction taps generalizing k with
  | nil => cases h
  | cons t ts ih =>
    rw [unknownFrom, List.mem_cons] at h
    rcases h with rfl | h
    · exact ⟨t, by simp, _, rfl⟩
    · obtain ⟨v, hv, d, rfl⟩ := ih h
      exact ⟨v, by simp [hv], d, rfl⟩

/-- Every TAP is legal and its registers fit. -/
def ChainFits (taps : List Tap) : Prop := ∀ t ∈ taps, t.legal = true ∧ t.fits = true

theorem clockChain_fits {taps : List Tap} (tms tdi : Bool) (h : ChainFits taps) :
    ChainFits (clockChain taps tms tdi) := by
  intro u hu
  obtain ⟨t, ht, d, rfl⟩ := mem_clockChain hu
  refine ⟨?_, Tap.clock_fits tms d (h t ht).1 (h t ht).2⟩
  rw [Tap.legal_congr (Tap.clock_fixed t tms d)]
  exact (h t ht).1

theorem unknownChain_fits {taps : List Tap} (draw : Nat) (h : ChainFits taps) :
    ChainFits (unknownChain draw taps) := by
  intro u hu
  obtain ⟨t, ht, j, rfl⟩ := mem_unknownFrom hu
  refine ⟨?_, Tap.unknown_fits t draw j⟩
  rw [Tap.legal_congr (Tap.unknown_fixed t draw j)]
  exact (h t ht).1

@[simp] theorem chainAfter_nil (taps : List Tap) : chainAfter taps [] = taps := rfl

@[simp] theorem chainAfter_cons (taps : List Tap) (c : Bool × Bool) (cs : List (Bool × Bool)) :
    chainAfter taps (c :: cs) = chainAfter (clockChain taps c.1 c.2) cs := rfl

theorem chainAfter_append (taps : List Tap) (a b : List (Bool × Bool)) :
    chainAfter taps (a ++ b) = chainAfter (chainAfter taps a) b := by
  simp [chainAfter, List.foldl_append]

@[simp] theorem samplesOf_length (taps : List Tap) (cs : List (Bool × Bool)) :
    (samplesOf taps cs).length = cs.length := by
  induction cs generalizing taps with
  | nil => rfl
  | cons c cs ih => simp [samplesOf, ih]

theorem samplesOf_append (taps : List Tap) (a b : List (Bool × Bool)) :
    samplesOf taps (a ++ b) = samplesOf taps a ++ samplesOf (chainAfter taps a) b := by
  induction a generalizing taps with
  | nil => rfl
  | cons c cs ih => simp [samplesOf, ih]

end Sys2Proof.Machine
end

