-- ==== Sys2Proof/Laws/Engine.lean ====
section
/-! SUPPORT. The engine: the frame of a command, what a run of clocks does in and outside loopback, and the
engine's run through its queue. -/

namespace Sys2Proof.Machine

open Sys2Proof Sys2Proof.Safety

/-! ## Frames: the engine's state and the chain, nothing else -/

theorem clock_frame (tms tdi : Bool) (s : State) : (clock tms tdi s).2 = { s with
    taps := (clock tms tdi s).2.taps, freeCount := (clock tms tdi s).2.freeCount } := by
  unfold clock; split <;> rfl

theorem tmsClocks_frame (tdi : Bool) (ts : List Bool) (s : State) : (tmsClocks tdi ts s).2 = { s with
    tmsPin := (tmsClocks tdi ts s).2.tmsPin
    taps := (tmsClocks tdi ts s).2.taps
    freeCount := (tmsClocks tdi ts s).2.freeCount } := by
  induction ts generalizing s with
  | nil => rfl
  | cons t ts ih =>
    simp only [tmsClocks]
    rw [ih, clock_frame]

theorem dataClocks_frame (bs : List Bool) (s : State) : (dataClocks bs s).2 = { s with
    taps := (dataClocks bs s).2.taps, freeCount := (dataClocks bs s).2.freeCount } := by
  induction bs generalizing s with
  | nil => rfl
  | cons b bs ih =>
    simp only [dataClocks]
    rw [ih, clock_frame]

theorem bytesClocks_frame (ps : List Byte) (s : State) : (bytesClocks ps s).2 = { s with
    taps := (bytesClocks ps s).2.taps, freeCount := (bytesClocks ps s).2.freeCount } := by
  induction ps generalizing s with
  | nil => rfl
  | cons p ps ih =>
    simp only [bytesClocks]
    rw [ih, dataClocks_frame]

/-- A command changes the engine's latch, its replies, the chain and the draws, and nothing else. -/
theorem runCommand_frame (i : Instr) (s : State) : runCommand i s = { s with
    tmsPin := (runCommand i s).tmsPin
    replyQueue := (runCommand i s).replyQueue
    taps := (runCommand i s).taps
    freeCount := (runCommand i s).freeCount } := by
  cases i <;> simp only [runCommand, tmsCommand, bitsCommand, replyPartial, reply]
  case tmsOut => rw [tmsClocks_frame]
  case tmsInout => rw [tmsClocks_frame]
  case bytesOut => rw [bytesClocks_frame]
  case bytesInout => rw [bytesClocks_frame]
  case bitsOut => rw [dataClocks_frame]
  case bitsInout => rw [dataClocks_frame]

@[simp] theorem runCommand_cmdQueue (i : Instr) (s : State) : (runCommand i s).cmdQueue = s.cmdQueue := by
  rw [runCommand_frame]

@[simp] theorem runCommand_params (i : Instr) (s : State) : (runCommand i s).params = s.params := by
  rw [runCommand_frame]

@[simp] theorem runCommand_loopback (i : Instr) (s : State) : (runCommand i s).loopback = s.loopback := by
  rw [runCommand_frame]

@[simp] theorem runCommand_tapShadow (i : Instr) (s : State) : (runCommand i s).tapShadow = s.tapShadow := by
  rw [runCommand_frame]

@[simp] theorem runCommand_tmsShadow (i : Instr) (s : State) : (runCommand i s).tmsShadow = s.tmsShadow := by
  rw [runCommand_frame]

/-! ## The engine reads nothing else -/

/-- Two states agree on everything the engine reads but its queue. -/
structure SameEngine (s t : State) : Prop where
  params : s.params = t.params
  loopback : s.loopback = t.loopback
  tmsPin : s.tmsPin = t.tmsPin
  replyQueue : s.replyQueue = t.replyQueue
  taps : s.taps = t.taps
  freeCount : s.freeCount = t.freeCount

theorem SameEngine.clock {s t : State} (h : SameEngine s t) (tms tdi : Bool) :
    (clock tms tdi s).1 = (clock tms tdi t).1 ∧
      SameEngine (Machine.clock tms tdi s).2 (Machine.clock tms tdi t).2 := by
  have hl := h.loopback
  unfold Machine.clock
  cases e : s.loopback <;> rw [e] at hl <;> simp only [← hl, if_true, if_false, Bool.false_eq_true]
  · exact ⟨by rw [h.taps], h.params, rfl, h.tmsPin, h.replyQueue, by simp [h.taps], h.freeCount⟩
  · exact ⟨trivial, h.params, rfl, h.tmsPin, h.replyQueue, by simp [h.taps, h.freeCount],
      by simp [h.freeCount]⟩

theorem SameEngine.tmsClocks {s t : State} (h : SameEngine s t) (tdi : Bool) (ts : List Bool) :
    (tmsClocks tdi ts s).1 = (tmsClocks tdi ts t).1 ∧
      SameEngine (Machine.tmsClocks tdi ts s).2 (Machine.tmsClocks tdi ts t).2 := by
  induction ts generalizing s t with
  | nil => exact ⟨rfl, h⟩
  | cons b ts ih =>
    have h1 : SameEngine { s with tmsPin := b } { t with tmsPin := b } :=
      ⟨h.params, h.loopback, rfl, h.replyQueue, h.taps, h.freeCount⟩
    have h2 := h1.clock b tdi
    have h3 := ih h2.2
    simp only [Machine.tmsClocks]
    exact ⟨by rw [h2.1, h3.1], h3.2⟩

theorem SameEngine.dataClocks {s t : State} (h : SameEngine s t) (bs : List Bool) :
    (dataClocks bs s).1 = (dataClocks bs t).1 ∧
      SameEngine (Machine.dataClocks bs s).2 (Machine.dataClocks bs t).2 := by
  induction bs generalizing s t with
  | nil => exact ⟨rfl, h⟩
  | cons b bs ih =>
    have h2 := h.clock s.tmsPin b
    have h3 := ih h2.2
    simp only [Machine.dataClocks]
    rw [← h.tmsPin]
    exact ⟨by rw [h2.1, h3.1], h3.2⟩

theorem SameEngine.bytesClocks {s t : State} (h : SameEngine s t) (ps : List Byte) :
    (bytesClocks ps s).1 = (bytesClocks ps t).1 ∧
      SameEngine (Machine.bytesClocks ps s).2 (Machine.bytesClocks ps t).2 := by
  induction ps generalizing s t with
  | nil => exact ⟨rfl, h⟩
  | cons p ps ih =>
    have h2 := h.dataClocks (byteBits 8 p)
    have h3 := ih h2.2
    simp only [Machine.bytesClocks]
    exact ⟨by rw [h2.1, h3.1], h3.2⟩

theorem SameEngine.replyPartial {r q : List Bool × State} (h1 : r.1 = q.1) (h : SameEngine r.2 q.2) :
    SameEngine (Machine.replyPartial r) (Machine.replyPartial q) := by
  refine ⟨h.params, h.loopback, h.tmsPin, ?_, h.taps, by simp [Machine.replyPartial, h.freeCount]⟩
  simp [Machine.replyPartial, h.replyQueue, h.params, h1, h.freeCount]

/-- What a command does depends on the engine, the chain, the parameters and the draws only. -/
theorem SameEngine.runCommand {s t : State} (h : SameEngine s t) (i : Instr) :
    SameEngine (runCommand i s) (runCommand i t) := by
  cases i <;> simp only [Machine.runCommand, tmsCommand, bitsCommand]
  case tmsOut => exact (h.tmsClocks _ _).2
  case tmsInout => exact SameEngine.replyPartial (h.tmsClocks _ _).1 (h.tmsClocks _ _).2
  case bytesOut => exact (h.bytesClocks _).2
  case bytesInout payload =>
    have h2 := h.bytesClocks payload
    exact ⟨h2.2.params, h2.2.loopback, h2.2.tmsPin, by simp [h2.1, h2.2.replyQueue], h2.2.taps,
      h2.2.freeCount⟩
  case bitsOut => exact (h.dataClocks _).2
  case bitsInout => exact SameEngine.replyPartial (h.dataClocks _).1 (h.dataClocks _).2
  all_goals exact h

theorem SameEngine.refl (s : State) : SameEngine s s := ⟨rfl, rfl, rfl, rfl, rfl, rfl⟩

/-- A command does not look at the queue. -/
theorem runCommand_setQueue (i : Instr) (s : State) (q : List Byte) :
    runCommand i { s with cmdQueue := q } = { runCommand i s with cmdQueue := q } := by
  have h : SameEngine { s with cmdQueue := q } s := ⟨rfl, rfl, rfl, rfl, rfl, rfl⟩
  have h2 := h.runCommand i
  rw [runCommand_frame i { s with cmdQueue := q }, runCommand_frame i s, h2.tmsPin, h2.replyQueue, h2.taps,
    h2.freeCount]

/-! ## The engine's run through its queue (40_engine_commands.md R100) -/

/-- Fuel beyond the queue's length changes nothing. -/
theorem engineRun_fuel (f g : Nat) (s : State) (hf : s.cmdQueue.length ≤ f) (hg : s.cmdQueue.length ≤ g) :
    engineRun f s = engineRun g s := by
  induction f generalizing g s with
  | zero =>
    have hq : s.cmdQueue = [] := List.length_eq_zero_iff.mp (by omega)
    cases g with
    | zero => rfl
    | succ g => simp [engineRun, hq, decodeCommand]
  | succ f ih =>
    cases g with
    | zero =>
      have hq : s.cmdQueue = [] := List.length_eq_zero_iff.mp (by omega)
      simp [engineRun, hq, decodeCommand]
    | succ g =>
      simp only [engineRun]
      split
      · rename_i i rest h
        have hl := decodeCommand_length h
        apply ih <;> simp <;> omega
      · rfl

/-- The engine runs the command at the front of its queue first. -/
theorem engineDrain_command {s : State} {i : Instr} {rest : List Byte}
    (h : decodeCommand s.params s.cmdQueue = .ok (i, rest)) :
    engineDrain s = engineDrain (runCommand i { s with cmdQueue := rest }) := by
  have hl := decodeCommand_length h
  unfold engineDrain
  obtain ⟨n, hn⟩ : ∃ n, s.cmdQueue.length = n + 1 := ⟨s.cmdQueue.length - 1, by omega⟩
  rw [hn, engineRun, h]
  apply engineRun_fuel <;> simp
  omega

/-- The engine stops where no complete command stands. -/
theorem engineDrain_stop {s : State} {e : DecodeError} (h : decodeCommand s.params s.cmdQueue = .error e) :
    engineDrain s = s := by
  unfold engineDrain
  cases s.cmdQueue.length with
  | zero => rfl
  | succ n => rw [engineRun, h]

theorem engineDrain_nil {s : State} (h : s.cmdQueue = []) : engineDrain s = s :=
  engineDrain_stop (e := .truncated) (by rw [h]; rfl)

/-- An induction along the engine's run. -/
theorem engineDrain_induct {P : State → State → Prop} (stop : ∀ s e, decodeCommand s.params s.cmdQueue = .error e →
      P s s)
    (go : ∀ s i rest, decodeCommand s.params s.cmdQueue = .ok (i, rest) →
      P (runCommand i { s with cmdQueue := rest }) (engineDrain (runCommand i { s with cmdQueue := rest })) →
      P s (engineDrain (runCommand i { s with cmdQueue := rest }))) (s : State) : P s (engineDrain s) := by
  generalize hn : s.cmdQueue.length = n
  induction n using Nat.strong_induction_on generalizing s with
  | _ n ih =>
    cases h : decodeCommand s.params s.cmdQueue with
    | error e => rw [engineDrain_stop h]; exact stop s e h
    | ok r =>
      obtain ⟨i, rest⟩ := r
      have hl := decodeCommand_length h
      rw [engineDrain_command h]
      refine go s i rest h (ih rest.length (by omega) _ (by simp))

/-- What the engine's run changes: its own state, the chain and the draws. -/
theorem engineDrain_frame (s : State) : engineDrain s = { s with
    tmsPin := (engineDrain s).tmsPin
    cmdQueue := (engineDrain s).cmdQueue
    replyQueue := (engineDrain s).replyQueue
    taps := (engineDrain s).taps
    freeCount := (engineDrain s).freeCount } := by
  refine engineDrain_induct (P := fun s d => d = { s with
    tmsPin := d.tmsPin, cmdQueue := d.cmdQueue, replyQueue := d.replyQueue, taps := d.taps,
    freeCount := d.freeCount }) (fun s e _ => rfl) (fun s i rest _ h => ?_) s
  rw [h, runCommand_frame]

@[simp] theorem engineDrain_params (s : State) : (engineDrain s).params = s.params := by rw [engineDrain_frame]

@[simp] theorem engineDrain_tapShadow (s : State) : (engineDrain s).tapShadow = s.tapShadow := by
  rw [engineDrain_frame]

@[simp] theorem engineDrain_tmsShadow (s : State) : (engineDrain s).tmsShadow = s.tmsShadow := by
  rw [engineDrain_frame]

@[simp] theorem engineDrain_loopback (s : State) : (engineDrain s).loopback = s.loopback := by
  rw [engineDrain_frame]

@[simp] theorem engineDrain_desync (s : State) : (engineDrain s).desync = s.desync := by rw [engineDrain_frame]

/-- The engine's run depends on the engine, the chain, the parameters and the draws only. -/
theorem engineDrain_congr {s t : State} (h : SameEngine s t) (hq : s.cmdQueue = t.cmdQueue) :
    SameEngine (engineDrain s) (engineDrain t) ∧ (engineDrain s).cmdQueue = (engineDrain t).cmdQueue := by
  refine engineDrain_induct (P := fun s d => ∀ t, SameEngine s t → s.cmdQueue = t.cmdQueue →
    SameEngine d (engineDrain t) ∧ d.cmdQueue = (engineDrain t).cmdQueue)
    (fun s e hd t h hq => ?_) (fun s i rest hd ih t h hq => ?_) s t h hq
  · rw [engineDrain_stop (by rw [← h.params, ← hq]; exact hd)]
    exact ⟨h, hq⟩
  · rw [engineDrain_command (s := t) (by rw [← h.params, ← hq]; exact hd)]
    refine ih _ (SameEngine.runCommand ?_ i) (by simp)
    exact ⟨h.params, h.loopback, h.tmsPin, h.replyQueue, h.taps, h.freeCount⟩

/-- A drained engine stays where it is. -/
theorem engineDrain_idem (s : State) : engineDrain (engineDrain s) = engineDrain s :=
  engineDrain_induct (P := fun _ d => engineDrain d = d) (fun _ _ h => engineDrain_stop h) (fun _ _ _ _ h => h) s

/-- If the engine can run all it holds, then bytes that arrive after it are run after it. -/
theorem engineDrain_append (s : State) (q : List Byte) (h : (engineDrain s).cmdQueue = []) :
    engineDrain { s with cmdQueue := s.cmdQueue ++ q } = engineDrain { engineDrain s with cmdQueue := q } := by
  refine engineDrain_induct (P := fun s d => d.cmdQueue = [] →
    engineDrain { s with cmdQueue := s.cmdQueue ++ q } = engineDrain { d with cmdQueue := q })
    (fun s e _ hq => ?_) (fun s i rest hd ih hq => ?_) s h
  · rw [hq, List.nil_append]
  · rw [← ih hq]
    rw [engineDrain_command (s := { s with cmdQueue := s.cmdQueue ++ q }) (decodeCommand_append q hd)]
    congr 1
    have h1 := runCommand_setQueue i s (rest ++ q)
    have h2 := runCommand_setQueue i s rest
    rw [h2]
    exact h1

/-- Commands that the engine runs, one after another. -/
def runCommands (is : List Instr) (s : State) : State := is.foldl (fun t i => runCommand i t) s

@[simp] theorem runCommands_nil (s : State) : runCommands [] s = s := rfl

@[simp] theorem runCommands_cons (i : Instr) (is : List Instr) (s : State) :
    runCommands (i :: is) s = runCommands is (runCommand i s) := rfl

theorem runCommands_append (a b : List Instr) (s : State) :
    runCommands (a ++ b) s = runCommands b (runCommands a s) := by
  simp [runCommands, List.foldl_append]

/-- Commands change the engine's latch, its replies, the chain and the draws, and nothing else. -/
theorem runCommands_frame (is : List Instr) (s : State) : runCommands is s = { s with
    tmsPin := (runCommands is s).tmsPin
    replyQueue := (runCommands is s).replyQueue
    taps := (runCommands is s).taps
    freeCount := (runCommands is s).freeCount } := by
  induction is generalizing s with
  | nil => rfl
  | cons i is ih => rw [runCommands_cons, ih, runCommand_frame]

/-- Instructions that are well-formed engine commands. -/
def Commands (is : List Instr) : Prop := ∀ i ∈ is, i.wf = true ∧ i.space = .tx

/-- A queue of encoded commands is run to its end. -/
theorem engineDrain_commands (is : List Instr) (s : State) (hp : s.params.distinct) (hi : Commands is)
    (hq : s.cmdQueue = is.flatMap (encode s.params)) :
    engineDrain s = runCommands is { s with cmdQueue := [] } := by
  induction is generalizing s with
  | nil => rw [engineDrain_nil hq, runCommands_nil, ← show s.cmdQueue = [] from hq]
  | cons i is ih =>
    have h1 := hi i (by simp)
    rw [List.flatMap_cons] at hq
    have hd := decodeCommand_encode s.params i (is.flatMap (encode s.params)) hp h1.1 h1.2
    rw [← hq] at hd
    rw [engineDrain_command hd, runCommands_cons, ih _ (by simpa using hp)
      (fun j hj => hi j (by simp [hj])) (by simp)]
    congr 1
    rw [runCommand_setQueue i s]
    exact (runCommand_setQueue i s []).symm

/-! ## Runs of clocks outside loopback (40_engine_commands.md R102) -/

theorem clock_chain {s : State} (tms tdi : Bool) (h : s.loopback = false) :
    clock tms tdi s = (chainTdo s.taps, { s with taps := clockChain s.taps tms tdi }) := by
  simp [clock, h]

theorem tmsClocks_chain (tdi : Bool) (ts : List Bool) (s : State) (h : s.loopback = false) :
    tmsClocks tdi ts s = (samplesOf s.taps (ts.map fun t => (t, tdi)), { s with
      tmsPin := ts.getLast?.getD s.tmsPin, taps := chainAfter s.taps (ts.map fun t => (t, tdi)) }) := by
  induction ts generalizing s with
  | nil => rfl
  | cons t ts ih =>
    have hc := clock_chain (s := { s with tmsPin := t }) t tdi h
    simp only [tmsClocks, hc, List.map_cons, samplesOf, chainAfter_cons]
    have hi := ih { s with tmsPin := t, taps := clockChain s.taps t tdi } h
    rw [hi]
    simp only [List.getLast?_cons, Option.getD_some]

theorem dataClocks_chain (bs : List Bool) (s : State) (h : s.loopback = false) :
    dataClocks bs s = (samplesOf s.taps (bs.map fun b => (s.tmsPin, b)), { s with
      taps := chainAfter s.taps (bs.map fun b => (s.tmsPin, b)) }) := by
  induction bs generalizing s with
  | nil => rfl
  | cons b bs ih =>
    have hc := clock_chain (s := s) s.tmsPin b h
    simp only [dataClocks, hc, List.map_cons, samplesOf, chainAfter_cons]
    have hi := ih { s with taps := clockChain s.taps s.tmsPin b } h
    rw [hi]

/-- The bits of a byte rebuilt from eight samples. -/
theorem byteBits_byteOfBits {bs : List Bool} (h : bs.length = 8) : byteBits 8 (byteOfBits bs) = bs := by
  apply bits_ext (by simp [h])
  intro i
  rw [byteBits_getD, byteOfBits_getLsbD]
  by_cases hi : i < 8
  · simp [hi]
  · have : bs.length ≤ i := by omega
    simp [hi, List.getD, List.getElem?_eq_none this]

theorem bytesClocks_chain (ps : List Byte) (s : State) (h : s.loopback = false) :
    ((bytesClocks ps s).1.length = ps.length ∧
      payloadBits (bytesClocks ps s).1 = samplesOf s.taps ((payloadBits ps).map fun b => (s.tmsPin, b))) ∧
    (bytesClocks ps s).2 = { s with taps := chainAfter s.taps ((payloadBits ps).map fun b => (s.tmsPin, b)) } := by
  induction ps generalizing s with
  | nil => exact ⟨⟨rfl, rfl⟩, rfl⟩
  | cons p ps ih =>
    have hc := dataClocks_chain (byteBits 8 p) s h
    have hi := ih { s with taps := chainAfter s.taps ((byteBits 8 p).map fun b => (s.tmsPin, b)) } h
    have e : payloadBits (p :: ps) = byteBits 8 p ++ payloadBits ps := rfl
    simp only [bytesClocks, hc, e, List.map_append, chainAfter_append, samplesOf_append]
    refine ⟨⟨by simp [hi.1.1], ?_⟩, hi.2⟩
    rw [← hi.1.2]
    show byteBits 8 (byteOfBits _) ++ payloadBits _ = _
    rw [byteBits_byteOfBits (by simp)]

/-! ## Runs of clocks in loopback (40_engine_commands.md R112) -/

theorem clock_loopback {s : State} (tms tdi : Bool) (h : s.loopback = true) :
    clock tms tdi s =
      (tdi, { s with taps := unknownChain s.freeCount s.taps, freeCount := s.freeCount + 1 }) := by
  simp [clock, h]

theorem tmsClocks_loopback (tdi : Bool) (ts : List Bool) (s : State) (h : s.loopback = true) :
    (tmsClocks tdi ts s).1 = List.replicate ts.length tdi ∧
      (tmsClocks tdi ts s).2.tmsPin = ts.getLast?.getD s.tmsPin := by
  induction ts generalizing s with
  | nil => exact ⟨rfl, rfl⟩
  | cons t ts ih =>
    have hc := clock_loopback (s := { s with tmsPin := t }) t tdi h
    simp only [tmsClocks, hc, List.length_cons, List.replicate_succ]
    have hi := ih { s with
      tmsPin := t, taps := unknownChain s.freeCount s.taps, freeCount := s.freeCount + 1 } h
    rw [hi.1, hi.2]
    simp only [List.getLast?_cons, Option.getD_some, and_self]

theorem dataClocks_loopback (bs : List Bool) (s : State) (h : s.loopback = true) : (dataClocks bs s).1 = bs := by
  induction bs generalizing s with
  | nil => rfl
  | cons b bs ih =>
    have hc := clock_loopback (s := s) s.tmsPin b h
    simp only [dataClocks, hc]
    exact congrArg (b :: ·) (ih _ h)

theorem bytesClocks_loopback (ps : List Byte) (s : State) (h : s.loopback = true) : (bytesClocks ps s).1 = ps := by
  induction ps generalizing s with
  | nil => rfl
  | cons p ps ih =>
    simp only [bytesClocks]
    rw [dataClocks_loopback _ s h, byteOfBits_byteBits, ih _ (by rw [dataClocks_frame]; exact h)]

/-! ## The chain's TAPs through the engine -/

theorem clock_fixed (tms tdi : Bool) (s : State) :
    (clock tms tdi s).2.taps.map Tap.fixed = s.taps.map Tap.fixed := by
  unfold clock; split <;> simp

theorem tmsClocks_fixed (tdi : Bool) (ts : List Bool) (s : State) :
    (tmsClocks tdi ts s).2.taps.map Tap.fixed = s.taps.map Tap.fixed := by
  induction ts generalizing s with
  | nil => rfl
  | cons t ts ih => simp only [tmsClocks]; rw [ih, clock_fixed]

theorem dataClocks_fixed (bs : List Bool) (s : State) :
    (dataClocks bs s).2.taps.map Tap.fixed = s.taps.map Tap.fixed := by
  induction bs generalizing s with
  | nil => rfl
  | cons b bs ih => simp only [dataClocks]; rw [ih, clock_fixed]

theorem bytesClocks_fixed (ps : List Byte) (s : State) :
    (bytesClocks ps s).2.taps.map Tap.fixed = s.taps.map Tap.fixed := by
  induction ps generalizing s with
  | nil => rfl
  | cons p ps ih => simp only [bytesClocks]; rw [ih, dataClocks_fixed]

/-- A command changes no parameter of a TAP, and adds or removes none. -/
theorem runCommand_fixed (i : Instr) (s : State) :
    (runCommand i s).taps.map Tap.fixed = s.taps.map Tap.fixed := by
  cases i <;> simp only [runCommand, tmsCommand, bitsCommand, replyPartial, reply_taps, tmsClocks_fixed,
    dataClocks_fixed, bytesClocks_fixed]

theorem engineDrain_fixed (s : State) : (engineDrain s).taps.map Tap.fixed = s.taps.map Tap.fixed :=
  engineDrain_induct (P := fun s d => d.taps.map Tap.fixed = s.taps.map Tap.fixed) (fun _ _ _ => rfl)
    (fun _ i _ _ h => by rw [h, runCommand_fixed]) s

theorem clock_fits (tms tdi : Bool) (s : State) (h : ChainFits s.taps) : ChainFits (clock tms tdi s).2.taps := by
  unfold clock
  split
  · exact unknownChain_fits _ h
  · exact clockChain_fits _ _ h

theorem tmsClocks_fits (tdi : Bool) (ts : List Bool) (s : State) (h : ChainFits s.taps) :
    ChainFits (tmsClocks tdi ts s).2.taps := by
  induction ts generalizing s with
  | nil => exact h
  | cons t ts ih => exact ih _ (clock_fits _ _ _ h)

theorem dataClocks_fits (bs : List Bool) (s : State) (h : ChainFits s.taps) :
    ChainFits (dataClocks bs s).2.taps := by
  induction bs generalizing s with
  | nil => exact h
  | cons b bs ih => exact ih _ (clock_fits _ _ _ h)

theorem bytesClocks_fits (ps : List Byte) (s : State) (h : ChainFits s.taps) :
    ChainFits (bytesClocks ps s).2.taps := by
  induction ps generalizing s with
  | nil => exact h
  | cons p ps ih => exact ih _ (dataClocks_fits _ _ h)

/-- A command keeps every TAP legal and its registers within their widths. -/
theorem runCommand_fits (i : Instr) (s : State) (h : ChainFits s.taps) : ChainFits (runCommand i s).taps := by
  cases i <;> simp only [runCommand, tmsCommand, bitsCommand, replyPartial, reply_taps]
  case tmsOut => exact tmsClocks_fits _ _ _ h
  case tmsInout => exact tmsClocks_fits _ _ _ h
  case bytesOut => exact bytesClocks_fits _ _ h
  case bytesInout => exact bytesClocks_fits _ _ h
  case bitsOut => exact dataClocks_fits _ _ h
  case bitsInout => exact dataClocks_fits _ _ h
  all_goals exact h

theorem engineDrain_fits (s : State) (h : ChainFits s.taps) : ChainFits (engineDrain s).taps :=
  engineDrain_induct (P := fun s d => ChainFits s.taps → ChainFits d.taps) (fun _ _ _ h => h)
    (fun _ i _ _ ih h => ih (runCommand_fits i _ h)) s h

end Sys2Proof.Machine
end

