-- ==== Sys2Proof/Laws/Ops.lean ====
section
/-! SUPPORT. The shared operations of the block: what the check, the writes and the read can do. -/

namespace Sys2Proof.Machine

open Sys2Proof Sys2Proof.Safety

/-! ## Check (41_bit_engine_encoder.md R130) -/

/-- An accepted operation with no precondition failing runs its body. -/
theorem checked_run {n : Nat} {data : List Byte} {nc ns : Bool}
    {body : State → Host.Outcome State Fault Refusal} {s : State} (hf : s.fault = none)
    (hc : contractCheck n data nc ns s = none) : checked n data nc ns body s = body s := by
  simp only [checked, hf, hc]

/-- What a checked operation can do: stop stuck, raise a contract fault, or run its body. -/
theorem checked_cases {n : Nat} {data : List Byte} {nc ns : Bool}
    {body : State → Host.Outcome State Fault Refusal} {s t : State} (h : checked n data nc ns body s = .next t) :
    s.fault = none ∧ ((∃ k, contractCheck n data nc ns s = some k ∧ t = raiseFault k s) ∨
      (contractCheck n data nc ns s = none ∧ body s = .next t)) := by
  unfold checked at h
  cases hf : s.fault with
  | some k => simp only [hf] at h; cases h
  | none =>
    simp only [hf] at h
    cases hc : contractCheck n data nc ns s with
    | some k =>
      simp only [hc] at h
      injection h with h
      exact ⟨rfl, .inl ⟨k, rfl, h.symm⟩⟩
    | none => simp only [hc] at h; exact ⟨rfl, .inr ⟨rfl, h⟩⟩

/-- The check passes exactly when the block is in step and every precondition asked for holds. -/
theorem contractCheck_none {n : Nat} {data : List Byte} {nc ns : Bool} {s : State} :
    contractCheck n data nc ns s = none ↔
      s.desync = false ∧ (nc = true → n ≠ 0 ∧ (n + 7) / 8 ≤ data.length) ∧ (ns = true → ShadowKnown s) := by
  unfold contractCheck ceilDiv8
  cases hd : s.desync
  case true => simp
  case false =>
    have hk : (s.tapShadow == single .rti || s.tapShadow == single .tlr) = true ↔ ShadowKnown s := by
      simp only [Bool.or_eq_true, beq_iff_eq]
    simp only [Bool.false_eq_true, if_false, true_and]
    cases nc
    case false =>
      simp only [Bool.false_and, Bool.false_eq_true, if_false, false_implies, true_and]
      cases ns
      case false => simp
      case true =>
        simp only [Bool.true_and, true_implies, ← hk]
        cases (s.tapShadow == single .rti || s.tapShadow == single .tlr) <;> simp
    case true =>
      simp only [Bool.true_and, beq_iff_eq, decide_eq_true_eq, true_implies]
      by_cases h0 : n = 0
      case pos => simp [h0]
      case neg =>
        by_cases h1 : data.length < (n + 7) / 8
        case pos =>
          simp only [h0, h1, if_true, if_false, reduceCtorEq, false_iff, not_and]
          intro h; omega
        case neg =>
          have h2 : (n + 7) / 8 ≤ data.length := by omega
          simp only [h0, h1, if_false, h2, ne_eq, not_false_eq_true, and_self, true_and]
          cases ns
          case false => simp
          case true =>
            simp only [Bool.true_and, true_implies, ← hk]
            cases (s.tapShadow == single .rti || s.tapShadow == single .tlr) <;> simp

/-- The check of an operation with payload that any state of the shadow accepts. -/
theorem contractCheck_payload {count : Count} {data : List Byte} {s : State} (ha : Accepting s)
    (hp : PayloadOk count data) : contractCheck count.toNat data true false s = none := by
  refine contractCheck_none.mpr ⟨ha.2, fun _ => ⟨fun h => hp.1 ?_, hp.2⟩, fun h => by cases h⟩
  exact BitVec.eq_of_toNat_eq (by simpa using h)

theorem contractCheck_scan {count : Count} {data : List Byte} {s : State} (ha : Accepting s)
    (hp : PayloadOk count data) (hk : ShadowKnown s) : contractCheck count.toNat data true true s = none :=
  contractCheck_none.mpr ⟨ha.2, (contractCheck_none.mp (contractCheck_payload ha hp)).2.1, fun _ => hk⟩

/-! ## Flow -/

@[simp] theorem Flow.andThen_run (s : State) (g : State → Flow) : (Flow.run s).andThen g = g s := rfl

@[simp] theorem Flow.andThen_ended (s : State) (g : State → Flow) : (Flow.ended s).andThen g = .ended s := rfl

@[simp] theorem Flow.andThen_refused (r : Refusal) (g : State → Flow) :
    (Flow.refused r).andThen g = .refused r := rfl

theorem Flow.andThen_assoc (f : Flow) (g h : State → Flow) :
    (f.andThen g).andThen h = f.andThen fun s => (g s).andThen h := by cases f <;> rfl

@[simp] theorem Flow.returned_run (s : State) :
    (Flow.run s).returned = .next { s with status := statusOk, subcause := 0 } := rfl

@[simp] theorem Flow.returned_ended (s : State) : (Flow.ended s).returned = .next s := rfl

@[simp] theorem Flow.returnedEmpty_run (s : State) :
    (Flow.run s).returnedEmpty = .next { s with result := [], status := statusOk, subcause := 0 } := rfl

@[simp] theorem Flow.returnedEmpty_ended (s : State) : (Flow.ended s).returnedEmpty = .next s := rfl

/-- A returned operation ran all its phases, or one of them ended it. -/
theorem Flow.returned_cases {f : Flow} {t : State} (h : f.returned = .next t) :
    (∃ s, f = .run s ∧ t = { s with status := statusOk, subcause := 0 }) ∨ f = .ended t := by
  cases f with
  | run s => injection h with h; exact .inl ⟨s, rfl, h.symm⟩
  | ended s => injection h with h; exact .inr (by rw [h])
  | refused r => cases h

theorem Flow.returnedEmpty_cases {f : Flow} {t : State} (h : f.returnedEmpty = .next t) :
    (∃ s, f = .run s ∧ t = { s with result := [], status := statusOk, subcause := 0 }) ∨ f = .ended t := by
  cases f with
  | run s => injection h with h; exact .inl ⟨s, rfl, h.symm⟩
  | ended s => injection h with h; exact .inr (by rw [h])
  | refused r => cases h

/-! ## Writes (60_exceptions.md R263, R269) -/

/-- The shadows after the clocks of commands in order. -/
def shadowCommands (is : List Instr) (s : State) : State := is.foldl (fun t i => shadowCommand i t) s

@[simp] theorem shadowCommands_nil (s : State) : shadowCommands [] s = s := rfl

@[simp] theorem shadowCommands_cons (i : Instr) (is : List Instr) (s : State) :
    shadowCommands (i :: is) s = shadowCommands is (shadowCommand i s) := rfl

theorem shadowCommands_append (a b : List Instr) (s : State) :
    shadowCommands (a ++ b) s = shadowCommands b (shadowCommands a s) := by
  simp [shadowCommands, List.foldl_append]

theorem shadowCommands_frame (is : List Instr) (s : State) : shadowCommands is s = { s with
    tapShadow := (shadowCommands is s).tapShadow, tmsShadow := (shadowCommands is s).tmsShadow } := by
  induction is generalizing s with
  | nil => rfl
  | cons i is ih =>
    rw [shadowCommands_cons, ih, shadowCommand_frame]

theorem shadowCommands_congr (is : List Instr) (s t : State) (h1 : s.tapShadow = t.tapShadow)
    (h2 : s.tmsShadow = t.tmsShadow) :
    (shadowCommands is s).tapShadow = (shadowCommands is t).tapShadow ∧
      (shadowCommands is s).tmsShadow = (shadowCommands is t).tmsShadow := by
  induction is generalizing s t with
  | nil => exact ⟨h1, h2⟩
  | cons i is ih =>
    have h := shadowCommand_congr i s t h1 h2
    exact ih _ _ h.1 h.2

/-- The block after the given commands are emitted, their writes all successful. -/
def emitted (is : List Instr) (s : State) : State :=
  { s with
    txLog := s.txLog ++ is.flatMap (encode s.params)
    cmdQueue := s.cmdQueue ++ is.flatMap (encode s.params)
    tapShadow := (shadowCommands is s).tapShadow
    tmsShadow := (shadowCommands is s).tmsShadow
    writeFails := spendWrites is.length s.writeFails }

@[simp] theorem spendWrites_zero (w : List Nat) : spendWrites 0 w = w := by cases w <;> rfl

theorem spendWrites_add (a b : Nat) (w : List Nat) : spendWrites b (spendWrites a w) = spendWrites (a + b) w := by
  cases w with
  | nil => rfl
  | cons n w => simp [spendWrites, Nat.sub_sub]

@[simp] theorem emitted_nil (s : State) : emitted [] s = s := by simp [emitted]

theorem emitted_append (a b : List Instr) (s : State) : emitted (a ++ b) s = emitted b (emitted a s) := by
  have h := shadowCommands_congr b (emitted a s) (shadowCommands a s) rfl rfl
  have h1 := h.1
  have h2 := h.2
  unfold emitted at h1 h2 ⊢
  simp only [h1, h2, shadowCommands_append, List.flatMap_append, List.append_assoc, List.length_append,
    spendWrites_add]

theorem emitCommand_ok {i : Instr} {s : State} (h : WritesOk 1 s) : emitCommand i s = .run (emitted [i] s) := by
  have key : ∀ t : State, t.tapShadow = s.tapShadow → t.tmsShadow = s.tmsShadow → shadowCommand i t = { t with
      tapShadow := (shadowCommand i s).tapShadow, tmsShadow := (shadowCommand i s).tmsShadow } := by
    intro t h1 h2
    have := shadowCommand_congr i t s h1 h2
    rw [shadowCommand_frame, this.1, this.2]
  unfold WritesOk at h
  unfold emitCommand transportWrite
  cases hw : s.writeFails with
  | nil =>
    simp only [if_true]
    refine congrArg Flow.run ((key _ (by rfl) (by rfl)).trans ?_)
    simp [emitted, hw, spendWrites]
  | cons n later =>
    rw [hw] at h
    cases n with
    | zero => exact absurd h (by simp)
    | succ n =>
      simp only [if_true]
      refine congrArg Flow.run ((key _ (by rfl) (by rfl)).trans ?_)
      simp [emitted, hw, spendWrites]

theorem writesOk_split {a b : Nat} {s : State} {is : List Instr} (hl : is.length = a) (h : WritesOk (a + b) s) :
    WritesOk a s ∧ WritesOk b (emitted is s) := by
  unfold WritesOk at h ⊢
  cases hw : s.writeFails with
  | nil => simp [emitted, hw, spendWrites]
  | cons n later => rw [hw] at h; simp only [emitted, hw, spendWrites, hl]; omega

/-- Commands whose writes all succeed. -/
theorem emitAll_ok {is : List Instr} {s : State} (h : WritesOk is.length s) :
    emitAll is s = .run (emitted is s) := by
  induction is generalizing s with
  | nil => simp [emitAll]
  | cons i is ih =>
    rw [List.length_cons, Nat.add_comm] at h
    have h2 := writesOk_split (is := [i]) rfl h
    rw [emitAll, emitCommand_ok h2.1, Flow.andThen_run, ih h2.2, ← emitted_append, List.singleton_append]

/-- The block after a failed write: the commands before it are emitted, its own bytes are logged, and it raises
TransportIoError. -/
def writeFailed (before : List Instr) (i : Instr) (later : List Nat) (s : State) : State :=
  raiseError .transportIoError
    { emitted before s with
      txLog := (emitted before s).txLog ++ encode s.params i, writeFails := later }

/-- The commands up to the one whose write fails. -/
theorem emitAll_fails {is : List Instr} {s : State} {k : Nat} {later : List Nat}
    (hw : s.writeFails = k :: later) (hk : k < is.length) :
    emitAll is s = .ended (writeFailed (is.take k) is[k] later s) := by
  induction is generalizing s k with
  | nil => cases hk
  | cons i is ih =>
    cases k with
    | zero =>
      rw [emitAll]
      simp only [emitCommand, transportWrite, hw, Bool.false_eq_true, if_false, Flow.andThen_ended]
      simp [writeFailed]
    | succ k =>
      have h1 : WritesOk 1 s := by simp [WritesOk, hw]
      have hk2 : k < is.length := by simpa using hk
      rw [emitAll, emitCommand_ok h1, Flow.andThen_run,
        ih (s := emitted [i] s) (k := k) (by simp [emitted, hw, spendWrites]) hk2]
      congr 1
      simp only [writeFailed, ← emitted_append, List.singleton_append, List.take_succ_cons,
        List.getElem_cons_succ]
      rfl

/-- The writes of some commands all succeed, or one of them fails. -/
theorem emitAll_cases (is : List Instr) (s : State) :
    (WritesOk is.length s ∧ emitAll is s = .run (emitted is s)) ∨
      ∃ k later, ∃ hk : k < is.length, s.writeFails = k :: later ∧
        emitAll is s = .ended (writeFailed (is.take k) is[k] later s) := by
  cases hw : s.writeFails with
  | nil => exact .inl ⟨by simp [WritesOk, hw], emitAll_ok (by simp [WritesOk, hw])⟩
  | cons k later =>
    by_cases hk : k < is.length
    · exact .inr ⟨k, later, hk, rfl, emitAll_fails hw hk⟩
    · have : WritesOk is.length s := by simp only [WritesOk, hw]; omega
      exact .inl ⟨this, emitAll_ok this⟩

/-! ## The read (41_bit_engine_encoder.md R139) -/

/-- A receive that the engine does not stall: what its read returned, then the verdict on it. -/
theorem receive_read {expected : Nat} {rebuilt : List Byte → List Byte} {s : State}
    (hs : engineStalled (engineDrain s) = none) :
    receive expected rebuilt s =
      let r := transportRead (engineDrain s)
      let u : State := { r.2 with rxLog := r.2.rxLog ++ r.1.1 }
      match readError expected r.1.1 r.1.2 with
      | some err => .ended (raiseError err u)
      | none => .run { u with result := rebuilt r.1.1 } := by
  simp only [receive, hs] <;> rfl

/-- A read changes the reply queue and spends a draw. -/
theorem transportRead_frame (s : State) : (transportRead s).2 = { s with
    replyQueue := (transportRead s).2.replyQueue, readDraws := (transportRead s).2.readDraws } := by
  unfold transportRead
  cases hd : s.readDraws with
  | nil => simp only
  | cons d later => cases d <;> rfl

/-- What a receive can do. -/
theorem receive_cases (expected : Nat) (rebuilt : List Byte → List Byte) (s : State) :
    (∃ r, receive expected rebuilt s = .refused r) ∨
      ∃ rx io left draws,
        let u : State := { engineDrain s with replyQueue := left, readDraws := draws, rxLog := s.rxLog ++ rx }
        (readError expected rx io = none ∧ receive expected rebuilt s = .run { u with result := rebuilt rx }) ∨
          ∃ e, readError expected rx io = some e ∧ receive expected rebuilt s = .ended (raiseError e u) := by
  cases hs : engineStalled (engineDrain s) with
  | some r => exact .inl ⟨r, by simp only [receive, hs]⟩
  | none =>
    have hr : (engineDrain s).rxLog = s.rxLog := by rw [engineDrain_frame]
    have e := transportRead_frame (engineDrain s)
    rw [receive_read hs]
    generalize transportRead (engineDrain s) = r at e ⊢
    obtain ⟨⟨rx, io⟩, u⟩ := r
    refine .inr ⟨rx, io, u.replyQueue, u.readDraws, ?_⟩
    have hu : u.rxLog = s.rxLog := (congrArg State.rxLog e).trans hr
    simp only at e ⊢
    cases readError expected rx io with
    | none => exact .inl ⟨rfl, by rw [hu]; rw [e]⟩
    | some err => exact .inr ⟨err, rfl, by rw [hu]; rw [e]⟩

/-- A full answer of exactly the expected bytes. -/
theorem receive_full {expected : Nat} {rebuilt : List Byte → List Byte} {s : State} (hr : ReadFull s)
    (hq : (engineDrain s).cmdQueue = []) (hl : (engineDrain s).replyQueue.length = expected) :
    receive expected rebuilt s = .run { engineDrain s with
      replyQueue := []
      readDraws := s.readDraws.tail
      rxLog := s.rxLog ++ (engineDrain s).replyQueue
      result := rebuilt (engineDrain s).replyQueue } := by
  have h1 : engineStalled (engineDrain s) = none := by simp [engineStalled, hq, decodeCommand]
  have h2 : (engineDrain s).readDraws = s.readDraws := by rw [engineDrain_frame]
  have h3 : (engineDrain s).rxLog = s.rxLog := by rw [engineDrain_frame]
  unfold ReadFull at hr
  unfold receive
  simp only [h1]
  cases hd : s.readDraws with
  | nil => simp [transportRead, h2, hd, readError, hl, h3]
  | cons d later =>
    rw [hd] at hr
    cases d <;> simp only at hr
    simp [transportRead, h2, hd, readError, hl, h3]

end Sys2Proof.Machine
end

