-- ==== Sys2Proof/Laws/Plans.lean ====
section
/-! SUPPORT. The plans of the raw shifts: their commands, their TX bytes and the clocks the block counts for
them (41_bit_engine_encoder.md R131 to R136). -/

namespace Sys2Proof.Machine

open Sys2Proof Sys2Proof.Safety

/-! ## Groups of a range -/

/-- The first `min n (m * k)` numbers, in `k` groups of at most `m`. -/
theorem range_groups (m n k : Nat) :
    List.range (min n (m * k)) =
      (List.range k).flatMap fun c => (List.range (min m (n - m * c))).map fun j => m * c + j := by
  induction k with
  | zero => simp
  | succ k ih =>
    rw [List.range_succ, List.flatMap_append, ← ih]
    have e : min n (m * (k + 1)) = min n (m * k) + min m (n - m * k) := by rw [Nat.mul_succ]; omega
    rw [e, List.range_add]
    congr 1
    simp only [List.flatMap_cons, List.flatMap_nil, List.append_nil]
    by_cases h : n ≤ m * k
    · have : n - m * k = 0 := by omega
      simp [this]
    · have : min n (m * k) = m * k := by omega
      rw [this]

/-- All of `n` numbers, in as many groups as it takes. -/
theorem range_groups_all {m n k : Nat} (h : n ≤ m * k) :
    List.range n =
      (List.range k).flatMap fun c => (List.range (min m (n - m * c))).map fun j => m * c + j := by
  rw [← range_groups, Nat.min_eq_left h]

/-! ## SHIFT_TMS -/

theorem lenField_byte {n : Nat} (h : n ≤ 8) : ((lenField n).setWidth 8 : Byte) = BitVec.ofNat 8 (n - 1) := by
  apply BitVec.eq_of_toNat_eq
  simp only [lenField, BitVec.toNat_setWidth, BitVec.toNat_ofNat]
  omega

theorem lenField_clocks {n : Nat} (h0 : 1 ≤ n) (h : n ≤ 8) : (lenField n).toNat + 1 = n := by
  simp only [lenField, BitVec.toNat_ofNat]
  omega

@[simp] theorem tmsPlan_length (data : List Byte) (n : Nat) : (tmsPlan data n).length = (n + 7) / 8 := by
  simp [tmsPlan, ceilDiv8]

theorem tmsPlan_commands (data : List Byte) (n : Nat) : Commands (tmsPlan data n) := by
  intro i hi
  simp only [tmsPlan, List.mem_map] at hi
  obtain ⟨k, -, rfl⟩ := hi
  exact ⟨rfl, rfl⟩

theorem tmsPlan_bytes (p : Params) (data : List Byte) (n : Nat) :
    (tmsPlan data n).flatMap (encode p) = tmsBytes p data n := by
  rw [tmsPlan, tmsBytes, List.flatMap_map]
  refine List.flatMap_congr fun k _ => ?_
  simp only [encode, encodeShort, Config.tmsGroupMax]
  rw [lenField_byte (by omega)]
  rfl

/-- The groups of a TMS walk, as the bits of its commands. -/
theorem tmsPlan_bits (data : List Byte) (n : Nat) :
    bufBits data n = (List.range (ceilDiv8 n)).flatMap fun k =>
      byteBits (min Config.tmsGroupMax (n - 8 * k))
        (lowBits (min Config.tmsGroupMax (n - 8 * k)) (memByte data k)) := by
  unfold bufBits
  rw [range_groups_all (m := 8) (n := n) (k := ceilDiv8 n) (by unfold ceilDiv8; omega), List.map_flatMap]
  refine List.flatMap_congr fun k _ => ?_
  rw [byteBits_lowBits (Nat.le_refl _), byteBits, List.map_map]
  refine List.map_congr_left fun j hj => ?_
  have hj := List.mem_range.mp hj
  simp only [Function.comp, bufBit, memByte]
  have h1 : (8 * k + j) / 8 = k := by omega
  have h2 : (8 * k + j) % 8 = j := by omega
  rw [h1, h2]

theorem shadowCommands_tmsPlan (data : List Byte) (n : Nat) (s : State) :
    shadowCommands (tmsPlan data n) s = (bufBits data n).foldl clockTms s := by
  rw [tmsPlan_bits, List.foldl_flatMap, shadowCommands, tmsPlan, List.foldl_map]
  apply List.foldl_ext
  intro t k hk
  have hk := List.mem_range.mp hk
  unfold ceilDiv8 at hk
  simp only [shadowCommand]
  rw [lenField_clocks (by simp only [Config.tmsGroupMax]; omega) (by simp only [Config.tmsGroupMax]; omega)]

/-- The shadows after a TMS walk of `n ≥ 1` bits (41_bit_engine_encoder.md R132). -/
theorem shadowCommands_tms {data : List Byte} {n : Nat} (s : State) (h : n ≠ 0) :
    (shadowCommands (tmsPlan data n) s).tapShadow = walk s.tapShadow (bufBits data n) ∧
      (shadowCommands (tmsPlan data n) s).tmsShadow = .ofBool (bufBit data (n - 1)) := by
  rw [shadowCommands_tmsPlan, clockTms_fold]
  refine ⟨rfl, ?_⟩
  obtain ⟨m, rfl⟩ := Nat.exists_eq_succ_of_ne_zero h
  simp [bufBits_succ]

/-- A TMS walk whose writes all succeed. -/
theorem shiftTmsPhase_ok {data : List Byte} {n : Nat} {s : State} (h : n ≠ 0) (hw : WritesOk ((n + 7) / 8) s) :
    shiftTmsPhase data n s = .run { s with
      txLog := s.txLog ++ tmsBytes s.params data n
      cmdQueue := s.cmdQueue ++ tmsBytes s.params data n
      tapShadow := walk s.tapShadow (bufBits data n)
      tmsShadow := .ofBool (bufBit data (n - 1))
      writeFails := spendWrites ((n + 7) / 8) s.writeFails } := by
  have hs := shadowCommands_tms (data := data) s h
  rw [shiftTmsPhase, emitAll_ok (by simpa using hw)]
  simp only [emitted, tmsPlan_bytes, hs.1, hs.2, tmsPlan_length]

/-! ## Data shifts -/

theorem remainder_pos {n : Nat} (h : n ≠ 0) : 1 ≤ remainderBits n ∧ remainderBits n ≤ 8 := by
  unfold remainderBits wholeBytes; omega

theorem whole_add_remainder (n : Nat) : 8 * wholeBytes n + (remainderBits n - 1) = n - 1 := by
  unfold remainderBits wholeBytes; omega

theorem whole_le {n : Nat} {data : List Byte} (h : n ≠ 0) (hd : (n + 7) / 8 ≤ data.length) :
    wholeBytes n < data.length := by
  unfold wholeBytes; omega

theorem memRead_length {data : List Byte} {addr n : Nat} (h : addr + n ≤ data.length) :
    (memRead data addr n).length = n := by
  simp [memRead]; omega

/-- The payloads of the bytes commands, one after another, are the first `b` bytes of DATA. -/
theorem bytesPlan_payloads {m b : Nat} (data : List Byte) (hm : 1 ≤ m) :
    (List.range ((b + m - 1) / m)).flatMap (fun c => memRead data (m * c) (min m (b - m * c))) =
      data.take b := by
  have key : ∀ k, (List.range k).flatMap (fun c => memRead data (m * c) (min m (b - m * c))) =
      data.take (min b (m * k)) := by
    intro k
    induction k with
    | zero => simp
    | succ k ih =>
      rw [List.range_succ, List.flatMap_append, ih]
      have e : min b (m * (k + 1)) = min b (m * k) + min m (b - m * k) := by rw [Nat.mul_succ]; omega
      rw [e, List.take_add]
      congr 1
      simp only [List.flatMap_cons, List.flatMap_nil, List.append_nil, memRead]
      by_cases h : b ≤ m * k
      · have : b - m * k = 0 := by omega
        simp [this]
      · have : min b (m * k) = m * k := by omega
        rw [this]
  rw [key, Nat.min_eq_left]
  have h1 := Nat.div_add_mod (b + m - 1) m
  have h2 := Nat.mod_lt (b + m - 1) hm
  omega

theorem chunk_bounds {m b c : Nat} (hm : 1 ≤ m) (hc : c < (b + m - 1) / m) :
    1 ≤ min m (b - m * c) ∧ m * c + min m (b - m * c) ≤ b := by
  have h1 : m * (c + 1) ≤ b + m - 1 := by
    have := (Nat.le_div_iff_mul_le hm).mp hc
    rw [Nat.mul_comm]; exact this
  rw [Nat.mul_succ] at h1
  omega

theorem bytesPlan_commands {b : Nat} {data : List Byte} (capture : Bool) (hb : b ≤ data.length) :
    Commands (bytesPlan Config.bulkMaxBytes capture data b) := by
  intro i hi
  simp only [bytesPlan, List.mem_map, List.mem_range] at hi
  obtain ⟨c, hc, rfl⟩ := hi
  have h := chunk_bounds (m := Config.bulkMaxBytes) (by decide) hc
  have hl := memRead_length (data := data) (addr := Config.bulkMaxBytes * c)
    (n := min Config.bulkMaxBytes (b - Config.bulkMaxBytes * c)) (by omega)
  have hw : isBulkPayload
      (memRead data (Config.bulkMaxBytes * c) (min Config.bulkMaxBytes (b - Config.bulkMaxBytes * c))) = true := by
    simp only [isBulkPayload, hl, Bool.and_eq_true, decide_eq_true_eq]
    omega
  cases capture <;> exact ⟨hw, rfl⟩

theorem tdiPlan_commands {n : Nat} {data : List Byte} (capture : Bool) (h : n ≠ 0)
    (hd : (n + 7) / 8 ≤ data.length) : Commands (tdiPlan capture data n) := by
  intro i hi
  simp only [tdiPlan, List.mem_append, List.mem_singleton] at hi
  rcases hi with (hi | hi) | rfl
  · exact bytesPlan_commands capture (Nat.le_of_lt (whole_le h hd)) i hi
  · split at hi
    · rw [List.mem_singleton] at hi; subst hi; cases capture <;> exact ⟨rfl, rfl⟩
    · cases hi
  · cases capture <;> exact ⟨rfl, rfl⟩

theorem tdiPlan_length (capture : Bool) (data : List Byte) (n : Nat) :
    (tdiPlan capture data n).length = tdiCommands n := by
  simp only [tdiPlan, tdiCommands, bytesPlan, List.length_append, List.length_map, List.length_range,
    List.length_singleton, wholeBytes, remainderBits, Config.bulkMaxBytes]
  by_cases h : 2 ≤ n - 8 * ((n - 1) / 8) <;> simp [h]

/-- The bytes loop of R134 writes the chunks in order. -/
theorem bytesLoop_chunks (opc : Byte) (data : List Byte) (b : Nat) (fuel c : Nat) (hb : b ≤ data.length)
    (hf : b ≤ fuel + 65536 * c) :
    bytesLoop opc data b fuel (65536 * c) =
      (List.range ((b + 65535) / 65536 - c)).flatMap fun k =>
        encodeBulk opc (memRead data (65536 * (c + k)) (min 65536 (b - 65536 * (c + k)))) := by
  induction fuel generalizing c with
  | zero =>
    have : (b + 65535) / 65536 - c = 0 := by omega
    simp [bytesLoop, this]
  | succ fuel ih =>
    rw [bytesLoop]
    split
    · rename_i h
      obtain ⟨k, hk⟩ : ∃ k, (b + 65535) / 65536 - c = k + 1 := ⟨(b + 65535) / 65536 - c - 1, by omega⟩
      have hk2 : (b + 65535) / 65536 - (c + 1) = k := by omega
      rw [hk, List.range_succ_eq_map, List.flatMap_cons, List.flatMap_map]
      have hl := memRead_length (data := data) (addr := 65536 * c) (n := min 65536 (b - 65536 * c)) (by omega)
      simp only [Nat.add_zero]
      congr 1
      · simp only [encodeBulk, hl]
        rfl
      · by_cases hm : 65536 * (c + 1) ≤ b
        · have e : 65536 * c + min 65536 (b - 65536 * c) = 65536 * (c + 1) := by omega
          rw [e, ih (c + 1) (by omega), hk2]
          refine List.flatMap_congr fun j _ => ?_
          have : c + 1 + j = c + (j + 1) := by omega
          rw [this]
        · have : k = 0 := by omega
          subst this
          have hn : bytesLoop opc data b fuel (65536 * c + min 65536 (b - 65536 * c)) = [] := by
            cases fuel with
            | zero => rfl
            | succ f => rw [bytesLoop, if_neg (by omega)]
          rw [hn]; rfl
    · have : (b + 65535) / 65536 - c = 0 := by omega
      simp [this]

/-- The opcodes of the three commands of a data shift. -/
theorem tdiPlan_bytes (p : Params) (capture : Bool) {data : List Byte} {n : Nat} (h : n ≠ 0)
    (hd : (n + 7) / 8 ≤ data.length) :
    (tdiPlan capture data n).flatMap (encode p) =
      tdiBytes (if capture then p.opcBytesInout else p.opcBytesOut)
        (if capture then p.opcBitsInout else p.opcBitsOut)
        (if capture then p.opcTmsInout else p.opcTmsOut) data n := by
  have hr := remainder_pos h
  have hb := Nat.le_of_lt (whole_le h hd)
  have hc : ∀ opc, bytesLoop opc data (wholeBytes n) (wholeBytes n) 0 =
      (List.range ((wholeBytes n + 65535) / 65536)).flatMap fun k =>
        encodeBulk opc (memRead data (65536 * k) (min 65536 (wholeBytes n - 65536 * k))) := by
    intro opc
    have := bytesLoop_chunks opc data (wholeBytes n) (wholeBytes n) 0 hb (by omega)
    simpa using this
  have hf : finalByte (bufBit data (n - 1)) = if bufBit data (n - 1) then 0x81 else 0x01 := by
    cases bufBit data (n - 1) <;> rfl
  have hl : remainderBits n - 1 - 1 = remainderBits n - 2 := by omega
  simp only [tdiPlan, tdiBytes, List.flatMap_append, bytesPlan, List.flatMap_map]
  change _ = bytesLoop _ data (wholeBytes n) (wholeBytes n) 0 ++
    (if 2 ≤ remainderBits n then [_, BitVec.ofNat 8 (remainderBits n - 2),
      BitVec.ofNat 8 ((data.getD (wholeBytes n) 0).toNat % 2 ^ (remainderBits n - 1))] else []) ++ _
  rw [hc, ← hf]
  congr 1
  · congr 1
    · cases capture <;> rfl
    · split
      · cases capture <;>
          simp only [bitsInstr, List.flatMap_cons, List.flatMap_nil, List.append_nil, encode, encodeShort,
            if_true, if_false, Bool.false_eq_true, lenField_byte (show remainderBits n - 1 ≤ 8 by omega), hl] <;> rfl
      · rfl
  · cases capture <;> rfl

/-! ### The shadows -/

theorem clockDataTimes_add (a b : Nat) (s : State) :
    clockDataTimes (a + b) s = clockDataTimes b (clockDataTimes a s) := by
  rw [clockDataTimes_eq, clockDataTimes_eq, clockDataTimes_eq, Nat.add_comm, Function.iterate_add_apply]

theorem shadowCommands_bytes (m : Nat) (capture : Bool) (data : List Byte) (s : State) (ks : List Nat)
    (b : Nat) :
    shadowCommands (ks.map fun c => bytesInstr capture (memRead data (m * c) (min m (b - m * c)))) s =
      clockDataTimes (8 * (ks.flatMap fun c => memRead data (m * c) (min m (b - m * c))).length) s := by
  induction ks generalizing s with
  | nil => rfl
  | cons k ks ih =>
    rw [List.map_cons, shadowCommands_cons, ih, List.flatMap_cons, List.length_append, Nat.mul_add,
      clockDataTimes_add]
    cases capture <;> rfl

/-- A data shift is `n - 1` data clocks and one clock with TMS 1 for the block's shadows. -/
theorem shadowCommands_tdiPlan {n : Nat} {data : List Byte} (capture : Bool) (s : State) (h : n ≠ 0)
    (hd : (n + 7) / 8 ≤ data.length) :
    shadowCommands (tdiPlan capture data n) s = clockTms (clockDataTimes (n - 1) s) true := by
  have hr := remainder_pos h
  have hb := Nat.le_of_lt (whole_le h hd)
  have hp := bytesPlan_payloads (m := Config.bulkMaxBytes) (b := wholeBytes n) data (by decide)
  rw [tdiPlan]
  simp only [shadowCommands_append]
  have h1 : shadowCommands (bytesPlan Config.bulkMaxBytes capture data (wholeBytes n)) s =
      clockDataTimes (8 * wholeBytes n) s := by
    rw [bytesPlan, shadowCommands_bytes, hp, List.length_take, Nat.min_eq_left hb]
  have h2 : ∀ t, shadowCommands (if 2 ≤ remainderBits n then [bitsInstr capture (lenField (remainderBits n - 1))
      (lowBits (remainderBits n - 1) (memByte data (wholeBytes n)))] else []) t =
        clockDataTimes (remainderBits n - 1) t := by
    intro t
    split
    · have := lenField_clocks (n := remainderBits n - 1) (by omega) (by omega)
      cases capture <;> simp only [shadowCommands_cons, shadowCommands_nil, bitsInstr, shadowCommand, this,
        if_true, if_false, Bool.false_eq_true]
    · have : remainderBits n - 1 = 0 := by omega
      rw [this]; rfl
  have h3 : ∀ t, shadowCommands [finalInstr capture (finalByte (bufBit data (n - 1)))] t = clockTms t true := by
    intro t
    cases capture <;> cases bufBit data (n - 1) <;> rfl
  rw [h1, h2, h3, ← clockDataTimes_add, whole_add_remainder]

/-- The shadows after a data shift (41_bit_engine_encoder.md R135). -/
theorem shadowCommands_tdi {n : Nat} {data : List Byte} (capture : Bool) (s : State) (h : n ≠ 0)
    (hd : (n + 7) / 8 ≤ data.length) :
    (shadowCommands (tdiPlan capture data n) s).tapShadow = tdiShadow n s.tapShadow s.tmsShadow ∧
      (shadowCommands (tdiPlan capture data n) s).tmsShadow = .high := by
  rw [shadowCommands_tdiPlan capture s h hd, clockDataTimes_eq]
  exact ⟨rfl, rfl⟩

/-- The commands of a data shift whose writes all succeed. -/
theorem emitTdi_ok {data : List Byte} {n : Nat} {s : State} (capture : Bool) (h : n ≠ 0)
    (hd : (n + 7) / 8 ≤ data.length) (hw : WritesOk (tdiCommands n) s) :
    emitAll (tdiPlan capture data n) s = .run { s with
      txLog := s.txLog ++ (if capture then transferBytes s.params data n else shiftBytes s.params data n)
      cmdQueue := s.cmdQueue ++ (if capture then transferBytes s.params data n else shiftBytes s.params data n)
      tapShadow := tdiShadow n s.tapShadow s.tmsShadow
      tmsShadow := .high
      writeFails := spendWrites (tdiCommands n) s.writeFails } := by
  have hs := shadowCommands_tdi (data := data) capture s h hd
  rw [emitAll_ok (by rw [tdiPlan_length]; exact hw)]
  simp only [emitted, tdiPlan_bytes s.params capture h hd, hs.1, hs.2, tdiPlan_length]
  cases capture <;> rfl

end Sys2Proof.Machine
end

