-- ==== Sys2Proof/Laws/Capture.lean ====
section
/-! SUPPORT. A capturing data shift through the engine: the samples of its clocks and the replies they are
packed into (41_bit_engine_encoder.md R136, R137, 40_engine_commands.md R106 to R109). -/

namespace Sys2Proof.Machine

open Sys2Proof Sys2Proof.Safety

/-! ## Clocks and replies -/

theorem clock_reply (tms tdi : Bool) (q : List Byte) (s : State) :
    clock tms tdi (reply q s) = ((clock tms tdi s).1, reply q (clock tms tdi s).2) := by
  cases h : s.loopback <;> simp [clock, h] <;> rfl

theorem dataClocks_reply (bs : List Bool) (q : List Byte) (s : State) :
    dataClocks bs (reply q s) = ((dataClocks bs s).1, reply q (dataClocks bs s).2) := by
  induction bs generalizing s with
  | nil => rfl
  | cons b bs ih =>
    simp only [dataClocks, reply_tmsPin, clock_reply, ih]

theorem bytesClocks_reply (ps q : List Byte) (s : State) :
    bytesClocks ps (reply q s) = ((bytesClocks ps s).1, reply q (bytesClocks ps s).2) := by
  induction ps generalizing s with
  | nil => rfl
  | cons p ps ih =>
    simp only [bytesClocks, dataClocks_reply, ih]

theorem bytesClocks_append (a b : List Byte) (s : State) :
    bytesClocks (a ++ b) s =
      ((bytesClocks a s).1 ++ (bytesClocks b (bytesClocks a s).2).1, (bytesClocks b (bytesClocks a s).2).2) := by
  induction a generalizing s with
  | nil => rfl
  | cons p ps ih => simp only [List.cons_append, bytesClocks, ih]

theorem reply_reply (a b : List Byte) (s : State) : reply b (reply a s) = reply (a ++ b) s := by
  simp [reply]

/-- Capturing bytes commands, one after another, are one run of clocks over all their payloads. -/
theorem runCommands_bytesInout (ps : List (List Byte)) (s : State) :
    runCommands (ps.map Instr.bytesInout) s =
      reply (bytesClocks ps.flatten s).1 (bytesClocks ps.flatten s).2 := by
  induction ps generalizing s with
  | nil => simp [bytesClocks, reply]
  | cons p ps ih =>
    simp only [List.map_cons, runCommands_cons, runCommand, ih, List.flatten_cons, bytesClocks_append,
      bytesClocks_reply, reply_reply]

/-- The bits of one data byte from its bit offset on. -/
theorem bufBits_tail {data : List Byte} (b k : Nat) (hk : k ≤ 8) :
    bufBits data (8 * b + k) = bufBits data (8 * b) ++ byteBits k (memByte data b) := by
  unfold bufBits
  rw [List.range_add, List.map_append, List.map_map]
  congr 1
  refine List.map_congr_left fun j hj => ?_
  have hj := List.mem_range.mp hj
  have h1 : (8 * b + j) / 8 = b := by omega
  have h2 : (8 * b + j) % 8 = j := by omega
  simp only [Function.comp, bufBit, memByte, h1, h2]

theorem bufBits_take {data : List Byte} {b : Nat} (h : b ≤ data.length) :
    payloadBits (data.take b) = bufBits data (8 * b) := by
  rw [payloadBits_eq, List.length_take, Nat.min_eq_left h]
  refine List.map_congr_left fun i hi => ?_
  have hi := List.mem_range.mp hi
  unfold bufBit
  have h1 : i / 8 < b := by omega
  simp only [List.getD, List.getElem?_take_of_lt h1]

/-! ## A capturing data shift -/

/-- The engine's run of a capturing data shift, phase by phase. -/
theorem runCommands_tdiPlan {data : List Byte} {n : Nat} (s : State) (h : n ≠ 0) :
    runCommands (tdiPlan true data n) s =
      let r := bytesClocks (data.take (wholeBytes n)) s
      let s1 := reply r.1 r.2
      let s2 := if 2 ≤ remainderBits n then
        replyPartial (dataClocks (byteBits (remainderBits n - 1) (memByte data (wholeBytes n))) s1) else s1
      replyPartial (tmsClocks (bufBit data (n - 1)) [true] s2) := by
  have hr := remainder_pos h
  have hp := bytesPlan_payloads (m := Config.bulkMaxBytes) (b := wholeBytes n) data (by decide)
  rw [tdiPlan]
  simp only [runCommands_append]
  have h1 : runCommands (bytesPlan Config.bulkMaxBytes true data (wholeBytes n)) s =
      reply (bytesClocks (data.take (wholeBytes n)) s).1 (bytesClocks (data.take (wholeBytes n)) s).2 := by
    have e : bytesPlan Config.bulkMaxBytes true data (wholeBytes n) =
        ((List.range ((wholeBytes n + Config.bulkMaxBytes - 1) / Config.bulkMaxBytes)).map fun c =>
          memRead data (Config.bulkMaxBytes * c)
            (min Config.bulkMaxBytes (wholeBytes n - Config.bulkMaxBytes * c))).map Instr.bytesInout := by
      rw [List.map_map]; rfl
    rw [e, runCommands_bytesInout, ← List.flatMap_def, hp]
  rw [h1]
  have h3 : ∀ t, runCommands [finalInstr true (finalByte (bufBit data (n - 1)))] t =
      replyPartial (tmsClocks (bufBit data (n - 1)) [true] t) := by
    intro t
    cases bufBit data (n - 1) <;> rfl
  rw [h3]
  congr 2
  split
  · have := lenField_clocks (n := remainderBits n - 1) (by omega) (by omega)
    simp only [runCommands_cons, runCommands_nil, bitsInstr, if_true, runCommand, bitsCommand, this,
      byteBits_lowBits (Nat.le_refl _)]
  · rfl

/-- The replies of a capturing data shift of `n` bits: the whole bytes, the partial byte if there is one, the
final byte. -/
def repliesOf (j : Justify) (whole : List Byte) (low : List Bool) (last : Bool) (fill fill' : Byte) : List Byte :=
  whole ++ (if low = [] then [] else [pack j low fill]) ++ [pack j [last] fill']

/-- Outside loopback, a capturing data shift clocks the chain and replies with its samples. -/
theorem runTransfer_chain {data : List Byte} {n : Nat} {s : State} (h : n ≠ 0) (hd : (n + 7) / 8 ≤ data.length)
    (hl : s.loopback = false) : ∃ whole low last fill fill',
      whole.length = wholeBytes n ∧ low.length = remainderBits n - 1 ∧
      payloadBits whole ++ low ++ [last] = samplesOf s.taps (tdiClocks data n s.tmsPin) ∧
      runCommands (tdiPlan true data n) s = { s with
        tmsPin := true
        taps := chainAfter s.taps (tdiClocks data n s.tmsPin)
        replyQueue := s.replyQueue ++ repliesOf s.params.captureJustify whole low last fill fill'
        freeCount := s.freeCount + partialReplies n } := by
  have hr := remainder_pos h
  have hb := Nat.le_of_lt (whole_le h hd)
  have hbytes := bytesClocks_chain (data.take (wholeBytes n)) s hl
  rw [bufBits_take hb] at hbytes
  obtain ⟨⟨hwl, hws⟩, hst⟩ := hbytes
  rw [List.length_take, Nat.min_eq_left hb] at hwl
  rw [runCommands_tdiPlan s h]
  generalize hW : (bytesClocks (data.take (wholeBytes n)) s).1 = whole at hwl hws
  generalize hc1 : (bufBits data (8 * wholeBytes n)).map (fun b => (s.tmsPin, b)) = c1 at hws hst
  have hclk : (bufBits data (n - 1)).map (fun b => (s.tmsPin, b)) =
      c1 ++ (byteBits (remainderBits n - 1) (memByte data (wholeBytes n))).map (fun b => (s.tmsPin, b)) := by
    rw [← hc1, ← List.map_append, ← bufBits_tail _ _ (by omega), whole_add_remainder]
  generalize hc2 : (byteBits (remainderBits n - 1) (memByte data (wholeBytes n))).map (fun b => (s.tmsPin, b)) = c2
    at hclk
  have hdata := dataClocks_chain (byteBits (remainderBits n - 1) (memByte data (wholeBytes n)))
    (reply whole { s with taps := chainAfter s.taps c1 }) (by simpa using hl)
  simp only [reply_tmsPin, hc2, reply_taps] at hdata
  have hlow : (samplesOf (chainAfter s.taps c1) c2).length = remainderBits n - 1 := by
    rw [samplesOf_length, ← hc2]; simp
  have hfin : ∀ u : State, u.loopback = false → tmsClocks (bufBit data (n - 1)) [true] u =
      ([chainTdo u.taps], { u with tmsPin := true, taps := clockChain u.taps true (bufBit data (n - 1)) }) :=
    fun u hu => tmsClocks_chain _ [true] u hu
  refine ⟨whole, samplesOf (chainAfter s.taps c1) c2, chainTdo (chainAfter s.taps (c1 ++ c2)),
    Config.freeFill s.freeCount, Config.freeFill (s.freeCount + (partialReplies n - 1)), hwl, hlow, ?_, ?_⟩
  · rw [tdiClocks, hclk, samplesOf_append, samplesOf_append, hws]
    rfl
  · have hpr : partialReplies n = (if 2 ≤ remainderBits n then 1 else 0) + 1 := rfl
    have hck : tdiClocks data n s.tmsPin = c1 ++ c2 ++ [(true, bufBit data (n - 1))] := by
      rw [tdiClocks, hclk]
    simp only [hst, hW]
    rw [hck, chainAfter_append _ (c1 ++ c2), hpr]
    by_cases h2 : 2 ≤ remainderBits n
    · have hne : samplesOf (chainAfter s.taps c1) c2 ≠ [] := by
        intro e; rw [e] at hlow; simp at hlow; omega
      simp only [h2, if_true, hdata, replyPartial]
      rw [hfin _ (by simpa [reply] using hl)]
      simp [reply, repliesOf, hne, chainAfter_append]
    · have h0 : remainderBits n - 1 = 0 := by omega
      have e2 : c2 = [] := by rw [← hc2, h0]; rfl
      simp only [h2, if_false]
      rw [hfin _ (by simpa [reply] using hl), e2]
      simp [reply, repliesOf, replyPartial, samplesOf]

/-- In loopback, a capturing data shift replies with the bits it was given (40_engine_commands.md R112). -/
theorem runTransfer_loopback {data : List Byte} {n : Nat} {s : State} (h : n ≠ 0) (hl : s.loopback = true) :
    ∃ fill fill', (runCommands (tdiPlan true data n) s).replyQueue = s.replyQueue ++
      repliesOf s.params.captureJustify (data.take (wholeBytes n))
        (byteBits (remainderBits n - 1) (memByte data (wholeBytes n))) (bufBit data (n - 1)) fill fill' := by
  have hbytes := bytesClocks_loopback (data.take (wholeBytes n)) s hl
  have hf := bytesClocks_frame (data.take (wholeBytes n)) s
  rw [runCommands_tdiPlan s h]
  generalize hr : bytesClocks (data.take (wholeBytes n)) s = r at hbytes hf
  obtain ⟨rw1, rs⟩ := r
  simp only at hbytes hf
  have hrl : rs.loopback = true := by rw [hf]; exact hl
  have hrq : rs.replyQueue = s.replyQueue := by rw [hf]
  have hrp : rs.params = s.params := by rw [hf]
  have hfin : ∀ u : State, u.loopback = true → (tmsClocks (bufBit data (n - 1)) [true] u).1 =
      [bufBit data (n - 1)] := fun u hu => (tmsClocks_loopback _ [true] u hu).1
  have hfr : ∀ u : State, (tmsClocks (bufBit data (n - 1)) [true] u).2.replyQueue = u.replyQueue ∧
      (tmsClocks (bufBit data (n - 1)) [true] u).2.params = u.params := fun u => by
    rw [tmsClocks_frame]; exact ⟨rfl, rfl⟩
  by_cases h2 : 2 ≤ remainderBits n
  · have hd := dataClocks_loopback (byteBits (remainderBits n - 1) (memByte data (wholeBytes n))) rs hrl
    have hdf := dataClocks_frame (byteBits (remainderBits n - 1) (memByte data (wholeBytes n))) rs
    simp only [h2, if_true, dataClocks_reply]
    generalize dataClocks (byteBits (remainderBits n - 1) (memByte data (wholeBytes n))) rs = d at hd hdf ⊢
    obtain ⟨d1, d2⟩ := d
    simp only at hd hdf ⊢
    have hdl : d2.loopback = true := by rw [hdf]; exact hrl
    have hdq : d2.replyQueue = s.replyQueue := by rw [hdf]; exact hrq
    have hdp : d2.params = s.params := by rw [hdf]; exact hrp
    have hne : byteBits (remainderBits n - 1) (memByte data (wholeBytes n)) ≠ [] := by
      intro e
      have := congrArg List.length e
      simp at this; omega
    refine ⟨Config.freeFill d2.freeCount, Config.freeFill
      (tmsClocks (bufBit data (n - 1)) [true] (replyPartial (d1, reply rw1 d2))).2.freeCount, ?_⟩
    rw [replyPartial, hfin _ (by simpa [replyPartial, reply] using hdl)]
    simp only [reply_replyQueue, (hfr _).1, (hfr _).2, replyPartial, reply_params, reply_freeCount, hdq, hdp, hd,
      hbytes, repliesOf, hne, if_false, List.append_assoc]
  · have h0 : remainderBits n - 1 = 0 := by omega
    refine ⟨0, Config.freeFill (tmsClocks (bufBit data (n - 1)) [true] (reply rw1 rs)).2.freeCount, ?_⟩
    simp only [h2, if_false]
    rw [replyPartial, hfin _ (by simpa [reply] using hrl)]
    simp only [reply_replyQueue, (hfr _).1, (hfr _).2, reply_params, hrq, hrp, hbytes, repliesOf, h0,
      List.append_assoc]
    rfl

theorem repliesOf_length {j : Justify} {whole : List Byte} {low : List Bool} {last : Bool} {fill fill' : Byte}
    {n : Nat} (hw : whole.length = wholeBytes n) (hl : low.length = remainderBits n - 1) :
    (repliesOf j whole low last fill fill').length = expectedReplies n := by
  have : expectedReplies n = wholeBytes n + (if 2 ≤ remainderBits n then 1 else 0) + 1 := rfl
  rw [this]
  simp only [repliesOf, List.length_append, hw, List.length_singleton]
  by_cases h : 2 ≤ remainderBits n
  · have : low ≠ [] := by intro e; rw [e] at hl; simp at hl; omega
    simp [h, this]
  · have : low = [] := List.length_eq_zero_iff.mp (by omega)
    simp [h, this]

/-- In any case a capturing data shift is answered by exactly `E` bytes (41_bit_engine_encoder.md R137). -/
theorem runTransfer_replies {data : List Byte} {n : Nat} (s : State) (h : n ≠ 0) (hd : (n + 7) / 8 ≤ data.length) :
    (runCommands (tdiPlan true data n) s).replyQueue.length = s.replyQueue.length + expectedReplies n := by
  cases hl : s.loopback with
  | false =>
    obtain ⟨whole, low, last, fill, fill', h1, h2, -, h3⟩ := runTransfer_chain h hd hl
    rw [h3, List.length_append, repliesOf_length h1 h2]
  | true =>
    obtain ⟨fill, fill', h1⟩ := runTransfer_loopback (data := data) h hl
    have hb := Nat.le_of_lt (whole_le h hd)
    rw [h1, List.length_append, repliesOf_length (n := n) (by simp [hb]) (by simp)]

end Sys2Proof.Machine
end

