-- ==== Sys2Proof/Laws/Exec.lean ====
section
/-! SUPPORT. What an instruction can do, said once: the steps its phases are made of, and how it returns. -/

namespace Sys2Proof.Machine

open Sys2Proof Sys2Proof.Safety

/-- A relation between states that every step of an operation's phases keeps: commands emitted, the bytes of a
failed write logged, a read made after the engine's run, a RESULT set. -/
structure Stepwise (R : State → State → Prop) : Prop where
  refl : ∀ s, R s s
  trans : ∀ s t u, R s t → R t u → R s u
  emitted : ∀ is s, Commands is → R s (Machine.emitted is s)
  logged : ∀ (s : State) bytes fails, R s { s with txLog := s.txLog ++ bytes, writeFails := fails }
  received : ∀ (s : State) bytes left draws, R s { engineDrain s with
    replyQueue := left, readDraws := draws, rxLog := s.rxLog ++ bytes }
  result : ∀ (s : State) r, R s { s with result := r }

/-- An error that a transport raises (60_exceptions.md R261). -/
def IsTransportError (e : ErrorKind) : Prop := e = .transportIoError ∨ e = .transportTimeout ∨ e = .excessBytes

/-- How phases end: they run on, or they end with a transport error. -/
def Flow.Follows (R : State → State → Prop) (s : State) : Flow → Prop
  | .run t => R s t
  | .ended t => ∃ u e, R s u ∧ IsTransportError e ∧ t = raiseError e u
  | .refused _ => True

theorem Flow.Follows.andThen {R : State → State → Prop} (hR : Stepwise R) {s : State} {f : Flow} {g : State → Flow}
    (hf : f.Follows R s) (hg : ∀ t, R s t → (g t).Follows R t) : (f.andThen g).Follows R s := by
  cases f with
  | run t =>
    have h := hg t hf
    simp only [Flow.andThen]
    cases hgt : g t with
    | run u => rw [hgt] at h; exact hR.trans _ _ _ hf h
    | ended u =>
      rw [hgt] at h
      obtain ⟨v, e, h1, h2, h3⟩ := h
      exact ⟨v, e, hR.trans _ _ _ hf h1, h2, h3⟩
    | refused r => trivial
  | ended t => exact hf
  | refused r => trivial

theorem emitAll_follows {R : State → State → Prop} (hR : Stepwise R) {is : List Instr} (hi : Commands is)
    (s : State) : (emitAll is s).Follows R s := by
  rcases emitAll_cases is s with ⟨-, h⟩ | ⟨k, later, hk, -, h⟩
  · rw [h]; exact hR.emitted is s hi
  · rw [h]
    refine ⟨_, .transportIoError, ?_, .inl rfl, rfl⟩
    have ht : Commands (is.take k) := fun i h => hi i (List.mem_of_mem_take h)
    exact hR.trans _ _ _ (hR.emitted _ s ht) (hR.logged _ _ _)

theorem readError_transport {expected : Nat} {rx : List Byte} {io : Bool} {e : ErrorKind}
    (h : readError expected rx io = some e) : IsTransportError e := by
  unfold readError at h
  split at h
  · injection h with h; exact .inl h.symm
  · split at h
    · injection h with h; exact .inr (.inl h.symm)
    · split at h
      · injection h with h; exact .inr (.inr h.symm)
      · cases h

theorem receive_follows {R : State → State → Prop} (hR : Stepwise R) (expected : Nat)
    (rebuilt : List Byte → List Byte) (s : State) : (receive expected rebuilt s).Follows R s := by
  rcases receive_cases expected rebuilt s with ⟨r, h⟩ | ⟨rx, io, left, draws, h⟩
  · rw [h]; trivial
  · rcases h with ⟨-, h⟩ | ⟨e, he, h⟩
    · rw [h]; exact hR.trans _ _ _ (hR.received s rx left draws) (hR.result _ _)
    · rw [h]; exact ⟨_, e, hR.received s rx left draws, readError_transport he, rfl⟩

/-- A payload of `n ≥ 1` bits that DATA holds. -/
def DataHolds (n : Nat) (data : List Byte) : Prop := n ≠ 0 ∧ (n + 7) / 8 ≤ data.length

theorem shiftTmsPhase_follows {R : State → State → Prop} (hR : Stepwise R) (data : List Byte) (n : Nat)
    (s : State) : (shiftTmsPhase data n s).Follows R s := emitAll_follows hR (tmsPlan_commands _ _) _

theorem shiftTdiPhase_follows {R : State → State → Prop} (hR : Stepwise R) {data : List Byte} {n : Nat}
    (hp : DataHolds n data) (s : State) : (shiftTdiPhase data n s).Follows R s :=
  emitAll_follows hR (tdiPlan_commands _ hp.1 hp.2) _

theorem transferTdiPhase_follows {R : State → State → Prop} (hR : Stepwise R) {data : List Byte} {n : Nat}
    (hp : DataHolds n data) (s : State) : (transferTdiPhase data n s).Follows R s :=
  (emitAll_follows hR (tdiPlan_commands _ hp.1 hp.2) _).andThen hR fun _ _ => receive_follows hR _ _ _

theorem entryPhase_follows {R : State → State → Prop} (hR : Stepwise R) (v : Byte) (k : Nat) (s : State) :
    (entryPhase v k s).Follows R s := by
  unfold entryPhase; split <;> exact shiftTmsPhase_follows hR _ _ _

theorem shiftScan_follows {R : State → State → Prop} (hR : Stepwise R) (v : Byte) (k : Nat) {data : List Byte}
    {n : Nat} (hp : DataHolds n data) (s : State) : (shiftScan v k data n s).Follows R s :=
  ((entryPhase_follows hR _ _ _).andThen hR fun _ _ => shiftTdiPhase_follows hR hp _).andThen hR
    fun _ _ => shiftTmsPhase_follows hR _ _ _

theorem transferScan_follows {R : State → State → Prop} (hR : Stepwise R) (v : Byte) (k : Nat)
    {data : List Byte} {n : Nat} (hp : DataHolds n data) (s : State) : (transferScan v k data n s).Follows R s :=
  ((entryPhase_follows hR _ _ _).andThen hR fun _ _ => transferTdiPhase_follows hR hp _).andThen hR
    fun _ _ => shiftTmsPhase_follows hR _ _ _

/-- How an instruction returns with a next state: as a command of the engine, with a contract fault, with
STATUS OK after all its phases (out of step, only `idle(0)` does), or with a transport error after some of them. -/
inductive Returns (R : State → State → Prop) (i : Instr) (s : State) : State → Prop where
  | command (h : i.space = .tx) : Returns R i s (runCommand i s)
  | contract (k : ContractFault) (h : s.fault = none) (hp : i.space = .port) (hk : isBlockFault k = true) :
      Returns R i s (raiseFault k s)
  | done (u : State) (h : s.fault = none) (hp : i.space = .port) (hu : R s u)
      (hd : s.desync = false ∨ u = { s with result := [] }) :
      Returns R i s { u with status := statusOk, subcause := 0 }
  | error (u : State) (e : ErrorKind) (h : s.fault = none) (hp : i.space = .port) (hu : R s u)
      (he : IsTransportError e) (hd : s.desync = false) : Returns R i s (raiseError e u)

theorem contractCheck_block {n : Nat} {data : List Byte} {nc ns : Bool} {s : State} {k : ContractFault}
    (h : contractCheck n data nc ns s = some k) : isBlockFault k = true := by
  unfold contractCheck at h
  repeat' split at h
  all_goals first | (injection h with h; subst h; rfl) | cases h

/-- A checked operation whose body follows a relation. -/
theorem checked_returns {R : State → State → Prop} (hR : Stepwise R) {i : Instr} {n : Nat} {data : List Byte}
    {nc ns empty : Bool} {body : State → Flow} {s t : State} (hp : i.space = .port)
    (hb : contractCheck n data nc ns s = none → (body s).Follows R s)
    (h : checked n data nc ns (fun s => if empty then (body s).returnedEmpty else (body s).returned) s = .next t) :
    Returns R i s t := by
  obtain ⟨hf, hc⟩ := checked_cases h
  rcases hc with ⟨k, hk, rfl⟩ | ⟨hc, hr⟩
  · exact .contract k hf hp (contractCheck_block hk)
  · have hd := (contractCheck_none.mp hc).1
    replace hb := hb hc
    cases empty
    · rcases Flow.returned_cases hr with ⟨u, hu, rfl⟩ | hu
      · rw [hu] at hb; exact .done u hf hp hb (.inl hd)
      · rw [hu] at hb
        obtain ⟨u, e, h1, h2, rfl⟩ := hb
        exact .error u e hf hp h1 h2 hd
    · rcases Flow.returnedEmpty_cases hr with ⟨u, hu, rfl⟩ | hu
      · rw [hu] at hb
        exact .done { u with result := [] } hf hp (hR.trans _ _ _ hb (hR.result u []))
          (.inl hd)
      · rw [hu] at hb
        obtain ⟨u, e, h1, h2, rfl⟩ := hb
        exact .error u e hf hp h1 h2 hd

/-- Everything an instruction that takes a step can do. -/
theorem exec_returns {R : State → State → Prop} (hR : Stepwise R) {i : Instr} {s t : State}
    (h : exec i s = .next t) : Returns R i s t := by
  have hp : ∀ {n d ns}, contractCheck n d true ns s = none → DataHolds n d :=
    fun hc => (contractCheck_none.mp hc).2.1 rfl
  cases i
  case shiftTms c d => exact checked_returns hR (empty := true) rfl (fun _ => shiftTmsPhase_follows hR _ _ _) h
  case shiftTdi c d => exact checked_returns hR (empty := true) rfl (fun hc => shiftTdiPhase_follows hR (hp hc) _) h
  case transferTdi c d =>
    exact checked_returns hR (empty := false) rfl (fun hc => transferTdiPhase_follows hR (hp hc) _) h
  case tapReset => exact checked_returns hR (empty := true) rfl (fun _ => shiftTmsPhase_follows hR _ _ _) h
  case shiftIr c d => exact checked_returns hR (empty := true) rfl (fun hc => shiftScan_follows hR _ _ (hp hc) _) h
  case transferIr c d =>
    exact checked_returns hR (empty := false) rfl (fun hc => transferScan_follows hR _ _ (hp hc) _) h
  case shiftDr c d => exact checked_returns hR (empty := true) rfl (fun hc => shiftScan_follows hR _ _ (hp hc) _) h
  case transferDr c d =>
    exact checked_returns hR (empty := false) rfl (fun hc => transferScan_follows hR _ _ (hp hc) _) h
  case idle c =>
    simp only [exec, execIdle] at h
    cases hf : s.fault with
    | some k => simp only [hf] at h; cases h
    | none =>
      simp only [hf] at h
      split at h
      · injection h with h
        subst h
        exact .done { s with result := [] } hf rfl (hR.result s []) (.inr rfl)
      · exact checked_returns hR (empty := true) (body := idlePhase c.toNat) rfl
          (fun _ => shiftTmsPhase_follows hR _ _ _) h
  case reservedOp op c d =>
    simp only [exec, execReservedOp] at h
    cases hf : s.fault with
    | some k => simp only [hf] at h; cases h
    | none =>
      simp only [hf] at h
      injection h with h
      subst h
      exact .contract .illegalOperation hf rfl rfl
  all_goals
    injection h with h
    subst h
    exact .command rfl

end Sys2Proof.Machine
end

