-- ==== Sys2Proof/Laws/Client.lean ====
section
/-! SUPPORT. What a client procedure and a step of the machine can do, said once. -/

namespace Sys2Proof.Machine

open Sys2Proof Sys2Proof.Safety

/-! ## An access of another length (93_implementation_defined.md I14) -/

@[simp] theorem Tap.spoil_state (t : Tap) (draw tap : Nat) : (t.spoil draw tap).state = t.state := by
  unfold Tap.spoil; cases t.selected <;> rfl

theorem Tap.spoil_fixed (t : Tap) (draw tap : Nat) : (t.spoil draw tap).fixed = t.fixed := by
  unfold Tap.spoil; cases t.selected <;> rfl

theorem Tap.spoil_fits {t : Tap} (draw tap : Nat) (h : t.fits = true) : (t.spoil draw tap).fits = true := by
  unfold Tap.spoil
  cases t.selected with
  | bypass => exact h
  | idcode => exact h
  | echo =>
    rw [Tap.fits_iff] at h ⊢
    exact ⟨h.1, h.2.1, Nat.mod_lt _ (Nat.two_pow_pos _), h.2.2.2⟩

/-- Every TAP of the spoiled chain is one of the engine's run, spoiled or not. -/
theorem mem_spoilTarget {c : ChainParameters} {s : State} {u : Tap} (h : u ∈ (spoilTarget c s).taps) :
    ∃ t ∈ (engineDrain s).taps, u = t ∨ ∃ draw tap, u = t.spoil draw tap := by
  obtain ⟨i, hi, rfl⟩ := List.mem_iff_getElem.mp h
  simp only [spoilTarget, List.length_modify] at hi
  refine ⟨(engineDrain s).taps[i], List.getElem_mem hi, ?_⟩
  simp only [spoilTarget, List.getElem_modify]
  split
  · exact .inr ⟨_, _, rfl⟩
  · exact .inl rfl

/-- What the end of an access changes. -/
theorem spoilTarget_frame (c : ChainParameters) (s : State) : spoilTarget c s = { s with
    tmsPin := (engineDrain s).tmsPin
    cmdQueue := (engineDrain s).cmdQueue
    replyQueue := (engineDrain s).replyQueue
    taps := (spoilTarget c s).taps
    freeCount := (engineDrain s).freeCount + 1 } := by
  unfold spoilTarget
  rw [engineDrain_frame]

theorem spoilTarget_fits (c : ChainParameters) {s : State} (h : ChainFits s.taps) :
    ChainFits (spoilTarget c s).taps := by
  intro u hu
  obtain ⟨t, ht, rfl | ⟨d, k, rfl⟩⟩ := mem_spoilTarget hu
  · exact engineDrain_fits s h u ht
  · have := engineDrain_fits s h t ht
    exact ⟨by rw [Tap.legal_congr (Tap.spoil_fixed t d k)]; exact this.1, Tap.spoil_fits d k this.2⟩

/-- An access whose length is that of the target's register answers with the decode, and changes nothing more. -/
theorem accessResult_fits {write : Bool} {c : ChainParameters} {cap : List Byte} {len : Nat} {s : State}
    (h : lengthFits c len s = true) : accessResult write c cap len s = .done (bufNat cap c.drPre len) s := by
  rw [accessResult, if_pos h]

/-- A read of any length ends with a value, and changes at most the draws. -/
theorem accessResult_read (c : ChainParameters) (cap : List Byte) (len : Nat) (s : State) :
    ∃ v n, accessResult false c cap len s = .done v { s with freeCount := n } := by
  unfold accessResult
  split
  · exact ⟨_, s.freeCount, rfl⟩
  · exact ⟨_, s.freeCount + 1, rfl⟩

/-! ## Client procedures (46_client_procedures.md) -/

/-- A relation between states that block operations and the client's own register keep. -/
structure Clientwise (R : State → State → Prop) : Prop where
  refl : ∀ s, R s s
  trans : ∀ s t u, R s t → R t u → R s u
  accept : ∀ op count data s t, Machine.accept op count data s = .next t → R s t
  selection : ∀ (s : State) x, R s { s with selection := x }
  spoil : ∀ c s, R s (spoilTarget c s)
  draw : ∀ s, R s (drawResult s)

/-- A part of a procedure follows a relation, and raises contract faults of the client only. -/
def Client.Follows {α : Type} (R : State → State → Prop) (s : State) : Client α → Prop
  | .done _ t => R s t
  | .error _ _ t => R s t
  | .contract k t => R s t ∧ isBlockFault k = false
  | .fault _ => True
  | .refused _ => True

theorem Client.Follows.andThen {α β : Type} {R : State → State → Prop} (hR : Clientwise R) {s : State}
    {c : Client α} {g : α → State → Client β} (hc : c.Follows R s) (hg : ∀ a t, (g a t).Follows R t) :
    (c.andThen g).Follows R s := by
  cases c with
  | done a t =>
    have h := hg a t
    simp only [Client.andThen]
    cases hgt : g a t with
    | done b u => rw [hgt] at h; exact hR.trans _ _ _ hc h
    | error x y u => rw [hgt] at h; exact hR.trans _ _ _ hc h
    | contract k u => rw [hgt] at h; exact ⟨hR.trans _ _ _ hc h.1, h.2⟩
    | fault f => trivial
    | refused r => trivial
  | error x y t => exact hc
  | contract k t => exact hc
  | fault f => trivial
  | refused r => trivial

variable {R : State → State → Prop}

theorem issue_follows (hR : Clientwise R) (op : Byte) (n : Nat) (data : List Byte) (s : State) :
    (issue op n data s).Follows R s := by
  unfold issue
  split
  · cases h : accept op (BitVec.ofNat 32 n) data s with
    | next t =>
      have hr := hR.accept _ _ _ _ _ h
      simp only
      split
      · exact hr
      · exact hr
    | fault f => trivial
    | refused r => trivial
  · trivial

theorem idcodePass_follows (hR : Clientwise R) (s : State) : (idcodePass s).Follows R s :=
  (issue_follows hR _ _ _ _).andThen hR fun _ _ =>
    (issue_follows hR _ _ _ _).andThen hR fun _ t => hR.refl t

theorem irLengthPass_follows (hR : Clientwise R) (k : Nat) (s : State) : (irLengthPass k s).Follows R s :=
  (issue_follows hR _ _ _ _).andThen hR fun _ _ =>
    (issue_follows hR _ _ _ _).andThen hR fun cap t => by
      cases decodeIrLengths k cap 0 0 <;> exact hR.refl t

theorem scan_follows (hR : Clientwise R) (s : State) : (scan s).Follows R s := by
  unfold scan
  split
  · trivial
  · exact (idcodePass_follows hR s).andThen hR fun _ _ =>
      (irLengthPass_follows hR _ _).andThen hR fun _ t => hR.refl t

theorem selectTarget_follows (hR : Clientwise R) (id : BitVec 32) (s : State) :
    (selectTarget id s).Follows R s := by
  have h : (selectTarget id s).Follows R { s with selection := none } :=
    (scan_follows hR _).andThen hR fun taps t => by
      cases h : taps[taps.findIdx fun t => t.idcode == id]? with
      | none => simp only [h]; exact hR.refl t
      | some x => simp only [h]; exact hR.selection t _
  have h0 := hR.selection s none
  cases hc : selectTarget id s with
  | done a t => rw [hc] at h; exact hR.trans _ _ _ h0 h
  | error x y t => rw [hc] at h; exact hR.trans _ _ _ h0 h
  | contract k t => rw [hc] at h; exact ⟨hR.trans _ _ _ h0 h.1, h.2⟩
  | fault f => trivial
  | refused r => trivial

theorem access_follows (hR : Clientwise R) (write : Bool) (address value len : Nat) (s : State) :
    (access write address value len s).Follows R s := by
  unfold access
  cases s.selection with
  | none => exact hR.refl s
  | some c =>
    simp only
    split
    · exact hR.refl s
    · split
      · exact ⟨hR.refl s, rfl⟩
      · split
        · exact ⟨hR.refl s, rfl⟩
        · exact (issue_follows hR _ _ _ _).andThen hR fun _ _ =>
            (issue_follows hR _ _ _ _).andThen hR fun _ _ =>
              (issue_follows hR _ _ _ _).andThen hR fun _ t => by
                unfold accessResult
                split
                · exact hR.refl t
                · cases write
                  · exact hR.draw t
                  · exact hR.spoil c t

theorem runProc_follows (hR : Clientwise R) (p : ClientProc) (s : State) : (runProc p s).Follows R s := by
  cases p
  case scan => exact (scan_follows hR s).andThen hR fun _ t => hR.refl t
  case selectTarget => exact (selectTarget_follows hR _ s).andThen hR fun _ t => hR.refl t
  all_goals exact (access_follows hR _ _ _ _ s).andThen hR fun _ t => hR.refl t

/-- What a client procedure that takes a step leaves: the block after its operations, the reply, and a client
fault at most. -/
theorem clientTurn_cases (hR : Clientwise R) {p : ClientProc} {s t : State} (h : clientTurn p s = .next t) :
    s.clientFault = none ∧ ∃ u r, R s u ∧ (t = { u with clientReply := r } ∨
      ∃ k, isBlockFault k = false ∧ t = { u with clientReply := r, clientFault := some k }) := by
  have hf := runProc_follows hR p s
  unfold clientTurn at h
  cases hc : s.clientFault with
  | some k => simp only [hc] at h; cases h
  | none =>
    simp only [hc] at h
    refine ⟨rfl, ?_⟩
    cases hr : runProc p s with
    | done r u => rw [hr] at h hf; injection h with h; exact ⟨u, _, hf, .inl h.symm⟩
    | error x y u => rw [hr] at h hf; injection h with h; exact ⟨u, _, hf, .inl h.symm⟩
    | contract k u => rw [hr] at h hf; injection h with h; exact ⟨u, _, hf.1, .inr ⟨k, hf.2, h.symm⟩⟩
    | fault f => rw [hr] at h; cases h
    | refused r => rw [hr] at h; cases h

/-! ## Steps -/

/-- The decoder of TX answers with engine commands only. -/
theorem decodeCommand_space {p : Params} {bs rest : List Byte} {i : Instr}
    (h : decodeCommand p bs = .ok (i, rest)) : i.space = .tx := by
  have hs : ∀ {mk : LenField → Byte → Instr} {bs : List Byte}, (∀ l d, (mk l d).space = .tx) →
      decodeShort mk bs = .ok (i, rest) → i.space = .tx := by
    intro mk bs hm h
    match bs, h with
    | l :: d :: tail, h =>
      simp only [decodeShort] at h
      split at h
      · simp only [Except.ok.injEq, Prod.mk.injEq] at h; rw [← h.1]; exact hm _ _
      · cases h
  have hb : ∀ {mk : List Byte → Instr} {bs : List Byte}, (∀ p, (mk p).space = .tx) →
      decodeBulk mk bs = .ok (i, rest) → i.space = .tx := by
    intro mk bs hm h
    match bs, h with
    | ll :: lh :: tail, h =>
      simp only [decodeBulk] at h
      split at h
      · simp only [Except.ok.injEq, Prod.mk.injEq] at h; rw [← h.1]; exact hm _
      · cases h
  match bs, h with
  | b :: tail, h =>
    simp only [decodeCommand] at h
    repeat' split at h
    all_goals
      first
      | exact hs (fun _ _ => rfl) h
      | exact hb (fun _ => rfl) h
      | cases h

theorem exec_command {i : Instr} (h : i.space = .tx) (s : State) : exec i s = .next (runCommand i s) := by
  cases i <;> first | rfl | cases h

/-- Everything a step can do. -/
inductive Steps (s : State) : State → Prop where
  | engine (i : Instr) (rest : List Byte) (hd : s.desync = false)
      (hc : decodeCommand s.params s.cmdQueue = .ok (i, rest)) (hs : i.space = .tx) :
      Steps s (runCommand i { s with cmdQueue := rest })
  | idle (h : s.pending = []) : Steps s s
  | operation (op : Byte) (count : Count) (data : List Byte) (rest : List Request) (u : State)
      (h : s.pending = .operation op count data :: rest) (hu : accept op count data s = .next u) :
      Steps s { u with pending := rest, position := u.position + 1 }
  | action (a : HostAction) (rest : List Request) (h : s.pending = .action a :: rest) :
      Steps s { hostAct a s with pending := rest, position := (hostAct a s).position + 1 }
  | procedure (p : ClientProc) (rest : List Request) (u : State) (h : s.pending = .procedure p :: rest)
      (hu : clientTurn p s = .next u) :
      Steps s { u with pending := rest, position := u.position + 1 }

theorem step_cases {s t : State} (h : step s = .next t) : Steps s t := by
  unfold step at h
  cases ht : engineTurn s with
  | command i rest =>
    simp only [ht] at h
    unfold engineTurn at ht
    cases hd : s.desync with
    | true => simp [hd] at ht
    | false =>
      simp only [hd, Bool.false_eq_true, if_false] at ht
      cases hc : decodeCommand s.params s.cmdQueue with
      | error e => rw [hc] at ht; cases e <;> cases ht
      | ok r =>
        rw [hc] at ht
        simp only [Turn.command.injEq] at ht
        obtain ⟨h1, h2⟩ := ht
        have hs : i.space = .tx := by
          have := decodeCommand_space (i := r.1) (rest := r.2) hc
          rw [← h1]; exact this
        rw [exec_command hs] at h
        injection h with h
        subst h
        exact .engine i rest hd (by rw [hc, ← h1, ← h2]) hs
  | stalled r => simp only [ht] at h; cases h
  | waits =>
    simp only [ht] at h
    unfold hostTurn at h
    cases hp : s.pending with
    | nil => simp only [hp] at h; injection h with h; subst h; exact .idle hp
    | cons r rest =>
      simp only [hp] at h
      cases hr : serve r s with
      | fault f => rw [hr] at h; cases h
      | refused f => rw [hr] at h; cases h
      | next u =>
        rw [hr] at h
        injection h with h
        subst h
        cases r with
        | operation op count data => exact .operation op count data rest u hp hr
        | action a => injection hr with hr; subst hr; exact .action a rest hp
        | procedure p => exact .procedure p rest u hp hr

end Sys2Proof.Machine
end

