-- ==== Sys2Proof/Laws/PerInstr.lean ====
section
/-! SUPPORT. Facts of each instruction as syntax: the first byte and the length of its encoding. -/

namespace Sys2Proof.Laws.Layout

open Sys2Proof

/-- The first byte of an instruction's encoding, as the opcode table gives it (30_encoding.md R72, R76 to
R81). -/
def head (p : Params) : Instr → Byte
  | .shiftTms _ _ => 0x01
  | .shiftTdi _ _ => 0x02
  | .transferTdi _ _ => 0x03
  | .tapReset => 0x10
  | .idle _ => 0x11
  | .shiftIr _ _ => 0x12
  | .transferIr _ _ => 0x13
  | .shiftDr _ _ => 0x14
  | .transferDr _ _ => 0x15
  | .reservedOp op _ _ => op
  | .tmsOut _ _ => p.opcTmsOut
  | .tmsInout _ _ => p.opcTmsInout
  | .bytesOut _ => p.opcBytesOut
  | .bytesInout _ => p.opcBytesInout
  | .bitsOut _ _ => p.opcBitsOut
  | .bitsInout _ _ => p.opcBitsInout

/-- The length of an instruction's encoding in bytes (30_encoding.md R71, R75, R85). -/
def size : Instr → Nat
  | .shiftTms _ data => 5 + data.length
  | .shiftTdi _ data => 5 + data.length
  | .transferTdi _ data => 5 + data.length
  | .tapReset => 5
  | .idle _ => 5
  | .shiftIr _ data => 5 + data.length
  | .transferIr _ data => 5 + data.length
  | .shiftDr _ data => 5 + data.length
  | .transferDr _ data => 5 + data.length
  | .reservedOp _ _ data => 5 + data.length
  | .tmsOut _ _ => 3
  | .tmsInout _ _ => 3
  | .bytesOut payload => 3 + payload.length
  | .bytesInout payload => 3 + payload.length
  | .bitsOut _ _ => 3
  | .bitsInout _ _ => 3

/-- An instruction's encoding starts with its row's byte and has its layout's length. -/
def Statement (i : Instr) : Prop :=
  ∀ p : Params, (encode p i).head? = some (head p i) ∧ (encode p i).length = size i

theorem descriptor_length (op : Byte) (count : Count) (data : List Byte) :
    (encodeDescriptor op count data).length = 5 + data.length := by
  simp [encodeDescriptor, countBytes]; omega

theorem bulk_length (opc : Byte) (payload : List Byte) : (encodeBulk opc payload).length = 3 + payload.length := by
  simp [encodeBulk]; omega

theorem shiftTms (count : Count) (data : List Byte) : Statement (.shiftTms count data) :=
  fun _ => ⟨rfl, descriptor_length _ _ _⟩

theorem shiftTdi (count : Count) (data : List Byte) : Statement (.shiftTdi count data) :=
  fun _ => ⟨rfl, descriptor_length _ _ _⟩

theorem transferTdi (count : Count) (data : List Byte) : Statement (.transferTdi count data) :=
  fun _ => ⟨rfl, descriptor_length _ _ _⟩

theorem tapReset : Statement .tapReset := fun _ => ⟨rfl, descriptor_length _ _ _⟩

theorem idle (cycles : Count) : Statement (.idle cycles) := fun _ => ⟨rfl, descriptor_length _ _ _⟩

theorem shiftIr (count : Count) (data : List Byte) : Statement (.shiftIr count data) :=
  fun _ => ⟨rfl, descriptor_length _ _ _⟩

theorem transferIr (count : Count) (data : List Byte) : Statement (.transferIr count data) :=
  fun _ => ⟨rfl, descriptor_length _ _ _⟩

theorem shiftDr (count : Count) (data : List Byte) : Statement (.shiftDr count data) :=
  fun _ => ⟨rfl, descriptor_length _ _ _⟩

theorem transferDr (count : Count) (data : List Byte) : Statement (.transferDr count data) :=
  fun _ => ⟨rfl, descriptor_length _ _ _⟩

theorem reservedOp (op : Byte) (count : Count) (data : List Byte) : Statement (.reservedOp op count data) :=
  fun _ => ⟨rfl, descriptor_length _ _ _⟩

theorem tmsOut (l : LenField) (d : Byte) : Statement (.tmsOut l d) := fun _ => ⟨rfl, rfl⟩

theorem tmsInout (l : LenField) (d : Byte) : Statement (.tmsInout l d) := fun _ => ⟨rfl, rfl⟩

theorem bytesOut (payload : List Byte) : Statement (.bytesOut payload) := fun _ => ⟨rfl, bulk_length _ _⟩

theorem bytesInout (payload : List Byte) : Statement (.bytesInout payload) := fun _ => ⟨rfl, bulk_length _ _⟩

theorem bitsOut (l : LenField) (d : Byte) : Statement (.bitsOut l d) := fun _ => ⟨rfl, rfl⟩

theorem bitsInout (l : LenField) (d : Byte) : Statement (.bitsInout l d) := fun _ => ⟨rfl, rfl⟩

end Sys2Proof.Laws.Layout
end

