-- ==== Sys2Proof/Tests/Slice0.lean ====
section
/-! SUPPORT. The model's own tests: well-formedness, decoding, one step of each instruction against
95_test_vectors.md, and a witness for the hypotheses of each statement. -/

namespace Sys2Proof.Tests

open Sys2Proof Sys2Proof.Machine Sys2Proof.Safety

set_option Elab.async false

/-! ## Helpers -/

/-- The next state, if there is one. -/
def after (o : Host.Outcome State Fault Refusal) : Option State :=
  match o with
  | .next t => some t
  | .fault _ => none
  | .refused _ => none

/-- The refusal, if it is one. -/
def refusal (o : Host.Outcome State Fault Refusal) : Option Refusal :=
  match o with
  | .next _ => none
  | .fault _ => none
  | .refused r => some r

/-- What the vectors show of a reply: TX, STATUS, RESULT and the two shadows. -/
def seen (o : Host.Outcome State Fault Refusal) : Option (List Byte × Byte × List Byte × TapSet × TmsLevel) :=
  (after o).map fun t => (t.txLog, t.status, t.result, t.tapShadow, t.tmsShadow)

/-- The block at a known TAP state and TMS level, with the empty chain. -/
def blockAt (s : TapState) (l : TmsLevel) : State :=
  { State.reset with tapShadow := single s, tmsShadow := l }

/-- The same block, whose next read the environment answers with these bytes. -/
def answered (s : TapState) (l : TmsLevel) (rx : List Byte) : State :=
  { blockAt s l with readDraws := [.bytes rx] }

/-- A TAP of the single-TAP chain of V-A7, in a given state with a given data shift register. -/
def tapIn (s : TapState) (dr : Nat) : Tap := { Tap.powerUp 0x1000563D 5 with state := s, drSr := dr }

/-- The engine with that TAP. -/
def engineAt (s : TapState) (dr : Nat) (pin : Bool) : State :=
  { State.reset with taps := [tapIn s dr], tmsPin := pin }

/-- What a command shows of the chain: each TAP's state and its two shift registers. -/
def chainSeen (o : Host.Outcome State Fault Refusal) : Option (List (TapState × Nat × Nat)) :=
  (after o).map fun t => t.taps.map fun u => (u.state, u.irSr, u.drSr)

/-- Whether `step` takes a next state. -/
def stepsOn (s : State) : Bool := (after (step s)).isSome

/-- A payload of `n` equal bytes. -/
theorem bulk_replicate (n : Nat) (b : Byte) :
    isBulkPayload (List.replicate n b) = (decide (1 ≤ n) && decide (n ≤ 65536)) := by
  simp only [isBulkPayload, List.length_replicate, Config.bulkMaxBytes]

/-! ## Well-formedness: an ill-formed term for each check, which the check refuses -/

theorem test_wf_reservedOp_refuses_shift_tms : Instr.wf (.reservedOp 0x01 0 []) = false := by decide

theorem test_wf_reservedOp_refuses_transfer_dr : Instr.wf (.reservedOp 0x15 0 []) = false := by decide

theorem test_wf_reservedOp_admits_0x16 : Instr.wf (.reservedOp 0x16 7 [1]) = true := by decide

theorem test_wf_bytesOut_refuses_empty : Instr.wf (.bytesOut []) = false := by decide

theorem test_wf_bytesInout_refuses_empty : Instr.wf (.bytesInout []) = false := by decide

theorem test_wf_bytesOut_refuses_65537 : Instr.wf (.bytesOut (List.replicate 65537 0)) = false := 
  (bulk_replicate _ _).trans (by decide)

theorem test_wf_bytesInout_refuses_65537 : Instr.wf (.bytesInout (List.replicate 65537 0)) = false := 
  (bulk_replicate _ _).trans (by decide)

theorem test_wf_bytesOut_admits_65536 : Instr.wf (.bytesOut (List.replicate 65536 0)) = true := 
  (bulk_replicate _ _).trans (by decide)

theorem test_wf_bytesInout_admits_65536 : Instr.wf (.bytesInout (List.replicate 65536 0)) = true := 
  (bulk_replicate _ _).trans (by decide)

/-! ## Decoding: words written out from 30_encoding.md R72 and R75 to R81, byte 0 lowest -/

theorem test_decode_shift_tms : decodeTableWord 56 0x05AB_0000000B_01 = some (.shiftTms 11 [0xAB, 0x05]) := by
  decide

theorem test_decode_shift_tdi : decodeTableWord 48 0x80_00000008_02 = some (.shiftTdi 8 [0x80]) := by decide

theorem test_decode_transfer_tdi : decodeTableWord 48 0x1F_00000005_03 = some (.transferTdi 5 [0x1F]) := by
  decide

theorem test_decode_tap_reset : decodeTableWord 8 0x10 = some .tapReset := by decide

theorem test_decode_idle : decodeTableWord 40 0x01020304_11 = some (.idle 0x01020304) := by decide

theorem test_decode_shift_ir : decodeTableWord 48 0x01_00000005_12 = some (.shiftIr 5 [0x01]) := by decide

theorem test_decode_transfer_ir : decodeTableWord 48 0xFF_00000008_13 = some (.transferIr 8 [0xFF]) := by decide

theorem test_decode_shift_dr : decodeTableWord 48 0x01_00000001_14 = some (.shiftDr 1 [0x01]) := by decide

theorem test_decode_transfer_dr :
    decodeTableWord 56 0x01A5_00000009_15 = some (.transferDr 9 [0xA5, 0x01]) := by decide

theorem test_decode_reserved_op : decodeTableWord 8 0x0F = some (.reservedOp 0x0F 0 []) := by decide

theorem test_decode_tms_out : decodeTableWord 24 0x05_02_4B = some (.tmsOut 2 0x05) := by decide

theorem test_decode_tms_inout : decodeTableWord 24 0x81_00_6B = some (.tmsInout 0 0x81) := by decide

theorem test_decode_bytes_out :
    decodeTableWord 48 0x00563D_0002_19 = some (.bytesOut [0x3D, 0x56, 0x00]) := by decide

theorem test_decode_bytes_inout : decodeTableWord 32 0xA5_0000_39 = some (.bytesInout [0xA5]) := by decide

theorem test_decode_bits_out : decodeTableWord 24 0x0F_03_1B = some (.bitsOut 3 0x0F) := by decide

theorem test_decode_bits_inout : decodeTableWord 24 0x0F_03_3B = some (.bitsInout 3 0x0F) := by decide

/-- R75, R78: the high length byte counts 256s, and the bytes after the payload are left. -/
theorem test_decode_bulk_length_high_byte :
    decodeCommand Params.default (0x19 :: 0x01 :: 0x01 :: List.replicate 259 0x5A) =
      .ok (.bytesOut (List.replicate 258 0x5A), [0x5A]) := by decide +kernel

theorem test_decode_refuses_unknown_opcode :
    decodeCommand Params.default [0x80, 0x00, 0x00] = .error (.unknownOpcode 0x80) := by decide

theorem test_decode_refuses_length_8 :
    decodeCommand Params.default [0x4B, 0x08, 0x00] = .error (.lengthOutOfRange 0x08) := by decide

theorem test_decode_waits_for_whole_command :
    decodeCommand Params.default [0x19, 0x01, 0x00, 0x5A] = .error .truncated := by decide

/-! ## A word of each row of the opcode table steps from reset -/

theorem test_fetch_descriptors :
    [0x01, 0x02, 0x03, 0x10, 0x11, 0x12, 0x13, 0x14, 0x15, 0x04].all
      (fun w => stepsOn (State.reset.withFetchWord 8 w)) = true := by decide

theorem test_fetch_commands :
    [0x4B, 0x6B, 0x19, 0x39, 0x1B, 0x3B].all
      (fun w => stepsOn (State.reset.withFetchWord 8 w)) = true := by decide

/-! ## The block's operations (95_test_vectors.md sections 3 to 6 and 8) -/

/-- V-T4. -/
theorem test_shift_tms_two_groups :
    seen (exec (.shiftTms 11 [0xAB, 0x05]) (blockAt .rti .low)) =
      some ([0x4B, 0x07, 0xAB, 0x4B, 0x02, 0x05], 0x00, [], single .selDr, .high) := by decide +kernel

/-- V-T6: bits past COUNT are masked. -/
theorem test_shift_tms_masks :
    seen (exec (.shiftTms 3 [0xFF]) (blockAt .shDr .low)) =
      some ([0x4B, 0x02, 0x07], 0x00, [], single .selDr, .high) := by decide +kernel

/-- V-S4. -/
theorem test_shift_tdi_bytes_and_bits :
    seen (exec (.shiftTdi 10 [0x3C, 0x02]) (blockAt .shDr .low)) =
      some ([0x19, 0x00, 0x00, 0x3C, 0x1B, 0x00, 0x00, 0x4B, 0x00, 0x81], 0x00, [], single .ex1Dr, .high) := by
  decide +kernel

/-- V-Q5: the level is unknown, so each data clock takes both branches. -/
theorem test_shift_tdi_unknown_level :
    (after (exec (.shiftTdi 3 [0x00]) State.reset)).map (·.tapShadow) =
      some (single .tlr ||| single .selDr ||| single .ex1Dr ||| single .ex2Dr ||| single .upDr |||
        single .selIr ||| single .ex1Ir ||| single .ex2Ir ||| single .upIr) := by decide +kernel

/-- V-X4, left-justified replies. -/
theorem test_transfer_tdi_rebuilds :
    seen (exec (.transferTdi 10 [0x3C, 0x02]) (answered .shDr .low [0x3C, 0x00, 0x80])) =
      some ([0x39, 0x00, 0x00, 0x3C, 0x3B, 0x00, 0x00, 0x6B, 0x00, 0x81], 0x00, [0x3C, 0x02],
        single .ex1Dr, .high) := by decide +kernel

/-- V-E4: one byte too many. -/
theorem test_transfer_tdi_excess :
    (after (exec (.transferTdi 5 [0x1F]) (answered .shDr .low [0xF0, 0x80, 0x00]))).map
        (fun t => (t.rxLog, t.status, t.subcause, t.result)) = some ([0xF0, 0x80, 0x00], 0x03, 1, []) := by
  decide +kernel

/-- V-C1. -/
theorem test_tap_reset :
    seen (exec .tapReset State.reset) =
      some ([0x4B, 0x07, 0xFF, 0x4B, 0x07, 0xFF, 0x4B, 0x07, 0xFF, 0x4B, 0x07, 0xFF, 0x4B, 0x07, 0xFF],
        0x00, [], single .tlr, .high) := by decide +kernel

/-- R264 with V-E8: a stuck block refuses even TAP_RESET. -/
theorem test_tap_reset_stuck :
    after (exec .tapReset { State.reset with fault := some .zeroCount }) = none := by decide +kernel

/-- V-C3: one more clock from `{TLR}`. -/
theorem test_idle_folds :
    seen (exec (.idle 10) (blockAt .tlr .high)) =
      some ([0x4B, 0x07, 0x00, 0x4B, 0x02, 0x00], 0x00, [], single .rti, .low) := by decide +kernel

/-- V-C5. -/
theorem test_idle_zero :
    seen (exec (.idle 0) (blockAt .tlr .high)) = some ([], 0x00, [], single .tlr, .high) := by decide +kernel

/-- V-C7. -/
theorem test_shift_ir_folds :
    seen (exec (.shiftIr 5 [0x01]) (blockAt .tlr .high)) =
      some ([0x4B, 0x04, 0x06, 0x1B, 0x03, 0x01, 0x4B, 0x00, 0x01, 0x4B, 0x01, 0x01], 0x00, [],
        single .rti, .low) := by decide +kernel

/-- V-C13. -/
theorem test_shift_ir_needs_known_state :
    seen (exec (.shiftIr 5 [0x00]) State.reset) = some ([], 0x84, [], allStates, .x) := by decide +kernel

/-- V-C8. -/
theorem test_transfer_ir_folds :
    seen (exec (.transferIr 8 [0xFF]) (answered .tlr .high [0xFE, 0x80])) =
      some ([0x4B, 0x04, 0x06, 0x3B, 0x06, 0x7F, 0x6B, 0x00, 0x81, 0x4B, 0x01, 0x01], 0x00, [0xFF],
        single .rti, .low) := by decide +kernel

/-- R165: no exit walk after a read error. -/
theorem test_transfer_ir_timeout_skips_exit :
    seen (exec (.transferIr 8 [0xFF]) (answered .rti .low [0xFE])) =
      some ([0x4B, 0x03, 0x03, 0x3B, 0x06, 0x7F, 0x6B, 0x00, 0x81], 0x02, [], allStates, .x) := by
  decide +kernel

/-- V-C9. -/
theorem test_shift_dr :
    seen (exec (.shiftDr 32 [0x3D, 0x56, 0x00, 0x10]) (blockAt .rti .low)) =
      some ([0x4B, 0x02, 0x01, 0x19, 0x02, 0x00, 0x3D, 0x56, 0x00, 0x1B, 0x06, 0x10, 0x4B, 0x00, 0x01,
        0x4B, 0x01, 0x01], 0x00, [], single .rti, .low) := by decide +kernel

/-- V-E9: the second write fails. -/
theorem test_shift_dr_write_fails :
    seen (exec (.shiftDr 1 [0x01]) { blockAt .rti .low with writeFails := [1] }) =
      some ([0x4B, 0x02, 0x01, 0x4B, 0x00, 0x81], 0x01, [], allStates, .x) := by decide +kernel

/-- V-C10. -/
theorem test_transfer_dr :
    seen (exec (.transferDr 9 [0xA5, 0x01]) (answered .rti .low [0xA5, 0x80])) =
      some ([0x4B, 0x02, 0x01, 0x39, 0x00, 0x00, 0xA5, 0x6B, 0x00, 0x81, 0x4B, 0x01, 0x01], 0x00,
        [0xA5, 0x01], single .rti, .low) := by decide +kernel

/-- P2 step 2b: the read of the IDCODE register. -/
theorem test_transfer_dr_reads_idcode :
    (after (exec (.transferDr 32 [0, 0, 0, 0]) (answered .rti .low [0x3D, 0x56, 0x00, 0x20, 0x00]))).map
      (·.result) = some [0x3D, 0x56, 0x00, 0x10] := by decide +kernel

/-- V-E6. -/
theorem test_reserved_op :
    seen (exec (.reservedOp 0x04 0 []) (blockAt .rti .low)) = some ([], 0x80, [], single .rti, .low) := by
  decide +kernel

/-- R264: IllegalOperation comes before ResyncRequired. -/
theorem test_reserved_op_before_resync :
    (after (exec (.reservedOp 0x04 0 []) { State.reset with desync := true })).map (·.fault) =
      some (some .illegalOperation) := by decide +kernel

/-- V-E5: ResyncRequired comes before ZeroCount. -/
theorem test_resync_before_zero_count :
    (after (exec (.shiftTdi 0 [0x00]) { State.reset with desync := true })).map (·.status) = some 0x81 := by
  decide +kernel

/-! ## The engine's commands (40_engine_commands.md R103 to R108, 45_reference_target.md R195) -/

/-- R103: the bits of D go out lowest first, so the TAP walks to Shift-IR with `1` captured (R195). -/
theorem test_tms_out_walks :
    chainSeen (exec (.tmsOut 3 0x03) (engineAt .rti 0 false)) = some [(.shIr, 1, 0)] := by decide +kernel

/-- R103: TDI is D[7] on a TMS clock, and the latch keeps the last TMS bit. -/
theorem test_tms_out_final_bit :
    ((after (exec (.tmsOut 0 0x81) (engineAt .shDr 0 false))).map (·.tmsPin),
      chainSeen (exec (.tmsOut 0 0x81) (engineAt .shDr 0 false))) =
      (some true, some [(.ex1Dr, 0, 0x80000000)]) := by decide +kernel

/-- R104: one reply byte, the chain clocked as by TMS_OUT. -/
theorem test_tms_inout_clocks :
    ((after (exec (.tmsInout 0 0x01) (engineAt .shDr 3 false))).map (·.replyQueue.length),
      chainSeen (exec (.tmsInout 0 0x01) (engineAt .shDr 3 false))) =
      (some 1, some [(.ex1Dr, 0, 1)]) := by decide +kernel

/-- R105: low bit of the first byte first, at the latch's level. -/
theorem test_bytes_out_shifts :
    chainSeen (exec (.bytesOut [0x01, 0x80]) (engineAt .shDr 0 false)) =
      some [(.shDr, 0, 0x80010000)] := by decide +kernel

/-- R105: the latch at 1 leaves Shift-DR on the first clock. -/
theorem test_bytes_out_uses_latch :
    chainSeen (exec (.bytesOut [0xFF]) (engineAt .shDr 0 true)) = some [(.tlr, 0, 0x80000000)] := by
  decide +kernel

/-- R106, V-A7: the low bytes of the IDCODE come out of Shift-DR. -/
theorem test_bytes_inout_captures :
    (after (exec (.bytesInout [0x00, 0x00]) (engineAt .shDr 0x1000563D false))).map (·.replyQueue) =
      some [0x3D, 0x56] := by decide +kernel

/-- R107: n = L + 1 clocks. -/
theorem test_bits_out_shifts :
    chainSeen (exec (.bitsOut 2 0x05) (engineAt .shDr 0 false)) = some [(.shDr, 0, 0xA0000000)] := by
  decide +kernel

/-- R108: one reply byte and the clocks of BITS_OUT. -/
theorem test_bits_inout_clocks :
    ((after (exec (.bitsInout 2 0x05) (engineAt .shDr 0x1F false))).map (·.replyQueue.length),
      chainSeen (exec (.bitsInout 2 0x05) (engineAt .shDr 0x1F false))) =
      (some 1, some [(.shDr, 0, 0xA0000003)]) := by decide +kernel

/-- R109, V-X5: four samples of 1 at the high end, whatever the other bits are. -/
theorem test_pack_left : ∀ fill : Byte,
    (pack .left [true, true, true, true] fill).toNat / 16 = 0xF := by decide +kernel

/-- R109: the same at the low end. -/
theorem test_pack_right : ∀ fill : Byte,
    (pack .right [true, true, true, true] fill).toNat % 16 = 0xF := by decide +kernel

/-- V-X4, RIGHT, with any value in the unused reply bits (92_eei_decisions.md D42). -/
theorem test_rebuild_right : ∀ fill : Byte,
    rebuild .right 10 [0x3C, fill &&& 0xFE, 0x01 ||| fill] = [0x3C, 0x02] := by decide +kernel

/-! ## The client (95_test_vectors.md sections 7 and 9) -/

/-- V-D3. -/
theorem test_decoder_three_taps : decodeIrLengths 3 [0x11, 0xD0, 0xFF, 0xFF] 0 0 = some [4, 8, 2] := by
  decide +kernel

/-- V-D4. -/
theorem test_decoder_empty_window : decodeIrLengths 1 [0x01, 0xFE] 0 0 = some [9] := by decide +kernel

/-- V-D6, V-D7 and V-D9. -/
theorem test_decoder_refuses :
    decodeIrLengths 1 [0xE0] 0 0 = none ∧ decodeIrLengths 1 [0x01] 0 0 = none ∧
      decodeIrLengths 2 [0x21] 0 0 = none := by decide +kernel

/-- V-K4. -/
theorem test_chain_parameters :
    chainParameters [⟨0x0BA00477, 4⟩, ⟨0x06413041, 8⟩, ⟨0x12345679, 2⟩] 1 ⟨0x06413041, 8⟩ =
      { irPre := 4, irPost := 2, drPre := 1, drPost := 1, irLength := 8 } := by decide +kernel

/-- V-K8: the IR value. -/
theorem test_ir_value :
    irValue { irPre := 4, irPost := 2, drPre := 1, drPost := 1, irLength := 8 } 0x01 = 0x301F := by
  decide +kernel

/-- V-K6. -/
theorem test_nothing_selected :
    (after (clientTurn (.readRegister 0x01 32) State.reset)).map (·.clientReply) = some (.error 0x05 0) := by
  decide +kernel

/-- V-K5. -/
theorem test_address_out_of_range :
    (after (clientTurn (.readRegister 0x20 32)
      { State.reset with selection := some ⟨0, 0, 0, 0, 5⟩ })).map (fun t => (t.clientReply, t.txLog)) =
      some (.error 0x04 0, []) := by decide +kernel

/-- V-A7, P2 step 2: the IDCODE register read through the three operations. -/
theorem test_read_register_idcode :
    (after (clientTurn (.readRegister32 0x01) { blockAt .rti .low with
      selection := some ⟨0, 0, 0, 0, 5⟩, readDraws := [.bytes [0x3D, 0x56, 0x00, 0x20, 0x00]] })).map
        (fun t => (t.clientReply, t.txLog)) =
      some (.value 0x1000563D, [0x4B, 0x03, 0x03, 0x1B, 0x03, 0x01, 0x4B, 0x00, 0x01, 0x4B, 0x01, 0x01,
        0x4B, 0x02, 0x01, 0x39, 0x02, 0x00, 0x00, 0x00, 0x00, 0x3B, 0x06, 0x00, 0x6B, 0x00, 0x01,
        0x4B, 0x01, 0x01]) := by decide +kernel

/-- R200, I14: a read of another length leaves the register as Update-DR latched it. -/
theorem test_read_of_other_length_keeps_echo :
    (match accessResult false ⟨0, 0, 0, 0, 5⟩ [0xFF] 8
        { State.reset with taps := [{ tapIn .rti 0 with ir := 2, echoInstr := some 2, echo := 0x1234 }] } with
      | .done _ t => t.taps.map (·.echo)
      | .error _ _ _ => []
      | .contract _ _ => []
      | .fault _ => []
      | .refused _ => []) = [0x1234] := by decide +kernel

/-! ## Witnesses: states and operands that meet the hypotheses of each statement -/

/-- A block in `{RTI}` whose next `n` writes succeed and the one after them fails. -/
def witnessBlock (n : Nat) : State := { blockAt .rti .low with writeFails := [n] }

/-- The same in `{TLR}`. -/
def witnessFold (n : Nat) : State := { blockAt .tlr .high with writeFails := [n] }

/-- A stuck block out of step. -/
def stuck : State := { State.reset with fault := some .zeroCount, desync := true }

/-- A block out of step. -/
def outOfStep : State := { State.reset with desync := true }

theorem witness_DecodeEncodeAgree :
    Params.default.distinct ∧ Instr.wf (.tmsOut 7 0xFF) = true ∧ Instr.wf (.reservedOp 0xFF 0xFFFFFFFF []) = true ∧
      Instr.wf (.bytesOut [0x00]) = true ∧ Instr.wf (.bytesInout (List.replicate 65536 0)) = true :=
  ⟨by decide, by decide, by decide, by decide, test_wf_bytesInout_admits_65536⟩

theorem witness_TxStreamParsesIntoItsCommands :
    Params.default.distinct ∧ ∀ i ∈ [Instr.tmsOut 7 0xFF, .bytesInout [0x01], .bitsOut 0 0x00],
      i.wf = true ∧ i.space = .tx := by decide

theorem witness_ReservedOpRaisesIllegalOperation :
    State.reset.fault = none ∧ ∀ op ∈ [(0x00 : Byte), 0x04, 0x0F, 0x16, 0xFF],
      op = 0x00 ∨ (0x04 ≤ op ∧ op ≤ 0x0F) ∨ 0x16 ≤ op := by decide

theorem witness_StepRunsTheDecodedInstruction_command :
    State.reset.desync = false ∧
      decodeCommand State.reset.params [0x4B, 0x07, 0xFF, 0x6B] = .ok (.tmsOut 7 0xFF, [0x6B]) := by decide

/-- A request whose operation goes on, one that is stuck, and one whose engine is given bytes of no meaning. -/
theorem witness_StepRunsTheDecodedInstruction_request :
    decodeCommand State.reset.params State.reset.cmdQueue = .error .truncated ∧
    (after (exec (decodeRequest 0x10 0 []) State.reset)).isSome = true ∧
    exec (decodeRequest 0x10 0 []) stuck = .fault (.blockStuck .zeroCount) ∧
    decodeCommand State.reset.params [0x4B] = .error .truncated ∧
    refusal (exec (decodeRequest 0x03 1 [0x01]) { State.reset with cmdQueue := [0x4B] }) =
      some (.engineLengthOutOfRange 0x6B) := by
  refine ⟨by decide, by decide +kernel, rfl, by decide, by decide +kernel⟩

theorem witness_FiveHighClocksReachReset : allStates ≠ 0 ∧ single .tlr ≠ 0 := by decide

/-- One state and operand for each clause, the counts and lengths at their bounds. -/
theorem witness_CheckPrecedesEveryOperation :
    stuck.fault = some .zeroCount ∧ outOfStep.fault = none ∧ outOfStep.desync = true ∧
    State.reset.fault = none ∧ State.reset.desync = false ∧ (1 : Count) ≠ 0 ∧
    [(0x01 : Byte)].length < ((9 : Count).toNat + 7) / 8 ∧
    PayloadOk 8 [0x01] ∧ PayloadOk 1 [0x01] ∧ ¬ ShadowKnown State.reset := by decide

theorem witness_ShiftTmsResult :
    Accepting (witnessBlock 2) ∧ PayloadOk 16 [0xAB, 0x05] ∧
      WritesOk (((16 : Count).toNat + 7) / 8) (witnessBlock 2) :=
  ⟨by decide, by decide, by simp [WritesOk, witnessBlock]⟩

theorem witness_ShiftTdiResult :
    Accepting (witnessBlock 3) ∧ PayloadOk 16 [0x3C, 0x02] ∧
      WritesOk (tdiCommands (16 : Count).toNat) (witnessBlock 3) :=
  ⟨by decide, by decide, by simp [WritesOk, witnessBlock, tdiCommands]⟩

theorem witness_TransferTdiResult :
    Accepting (witnessBlock 1) ∧ PayloadOk 1 [0x01] ∧ WritesOk (tdiCommands (1 : Count).toNat) (witnessBlock 1) ∧
      (witnessBlock 1).params.distinct ∧ (witnessBlock 1).loopback = false ∧ EngineIdle (witnessBlock 1) ∧
      ReadFull (witnessBlock 1) :=
  ⟨by decide, by decide, by simp [WritesOk, witnessBlock, tdiCommands], by decide, by decide, by decide, trivial⟩

theorem witness_TapResetResult :
    Accepting { State.reset with writeFails := [5] } ∧ State.reset.tapShadow ≠ 0 ∧
      WritesOk 5 { State.reset with writeFails := [5] } :=
  ⟨by decide, by decide, Nat.le_refl 5⟩

/-- Both shadows, eight clocks and nine. -/
theorem witness_IdleResult :
    State.reset.fault = none ∧
    (Accepting (witnessBlock 1) ∧ ShadowKnown (witnessBlock 1) ∧ (8 : Count) ≠ 0 ∧
      WritesOk ((8 + 7) / 8) (witnessBlock 1)) ∧
    (Accepting (witnessFold 2) ∧ ShadowKnown (witnessFold 2) ∧ WritesOk ((8 + 1 + 7) / 8) (witnessFold 2)) :=
  ⟨by decide, ⟨by decide, by decide, by decide, Nat.le_refl 1⟩, by decide, by decide, Nat.le_refl 2⟩

theorem witness_ShiftScanResult :
    (Accepting (witnessBlock 3) ∧ ShadowKnown (witnessBlock 3) ∧ PayloadOk 1 [0x01] ∧
      WritesOk (tdiCommands (1 : Count).toNat + 2) (witnessBlock 3)) ∧
    Accepting (witnessFold 4) ∧ ShadowKnown (witnessFold 4) ∧ PayloadOk 8 [0x01] ∧
      WritesOk (tdiCommands (8 : Count).toNat + 2) (witnessFold 4) :=
  ⟨⟨by decide, by decide, by decide, Nat.le_refl 3⟩, by decide, by decide, by decide, Nat.le_refl 4⟩

theorem witness_TransferScanResult :
    Accepting (witnessFold 4) ∧ PayloadOk 8 [0x01] ∧ ShadowKnown (witnessFold 4) ∧
      WritesOk (tdiCommands (8 : Count).toNat + 2) (witnessFold 4) ∧ (witnessFold 4).params.distinct ∧
      (witnessFold 4).loopback = false ∧ EngineIdle (witnessFold 4) ∧ ReadFull (witnessFold 4) :=
  ⟨by decide, by decide, by decide, Nat.le_refl 4, by decide, by decide, by decide, trivial⟩

/-- The STATUS of each raw operation of an expansion: the entry walk, the data phase, the exit walk. -/
def expansionStatus (s : State) (k : Count) (v : Byte) (data : Instr) : Option (List Byte) := do
  let s1 ← after (exec (.shiftTms k [v]) s)
  let s2 ← after (exec data s1)
  let s3 ← after (exec (.shiftTms 2 [0x01]) s2)
  some [s1.status, s2.status, s3.status]

/-- The raw operations of every expansion all succeed, from either shadow. -/
theorem witness_TapOperationsAreTheirExpansions :
    Accepting (blockAt .rti .low) ∧ Accepting (blockAt .tlr .high) ∧ 0 < 1 ∧ 4294967294 + 1 < 2 ^ 32 ∧
    PayloadOk 1 [0x01] ∧
    ([Instr.shiftTdi 1 [1], .transferTdi 1 [1]].all fun i =>
      [((4 : Count), (0x03 : Byte)), (3, 0x01)].all (fun w =>
        expansionStatus (answered .rti .low [0x80]) w.1 w.2 i == some [0x00, 0x00, 0x00]) &&
      [((5 : Count), (0x06 : Byte)), (4, 0x02)].all (fun w =>
        expansionStatus (answered .tlr .high [0x80]) w.1 w.2 i == some [0x00, 0x00, 0x00])) = true := by
  refine ⟨by decide, by decide, by decide, by decide, by decide, by decide +kernel⟩

/-- Every operation that the statement names ends with STATUS OK somewhere. -/
theorem witness_SuccessfulTapOperationEndsIdle :
    ([Instr.tapReset, .idle 0, .idle 1, .shiftIr 1 [1], .transferIr 1 [1], .shiftDr 1 [1], .transferDr 1 [1]].all
      fun i => (after (exec i (answered .tlr .high [0x80]))).map (·.status) == some 0x00) = true := by
  decide +kernel

theorem witness_TxByteCounts :
    ([Instr.shiftTms 8 [1], .shiftTdi 8 [1], .transferTdi 1 [1], .shiftIr 8 [1], .tapReset, .idle 7, .idle 0].all
      fun i => (after (exec i (answered .tlr .high [0x80]))).map (·.status) == some 0x00) = true := by
  decide +kernel

/-- The last of two writes fails. -/
theorem witness_FailedWriteEndsShiftTms :
    Accepting (witnessBlock 1) ∧ PayloadOk 9 [0xAB, 0x05] ∧ (witnessBlock 1).writeFails = 1 :: [] ∧
      1 < ((9 : Count).toNat + 7) / 8 := by decide

/-- Five bits: two replies are expected; one, three, none in time, and an I/O error. -/
theorem witness_FailedReadEndsTransferTdi :
    Accepting (answered .shDr .low [0xF0]) ∧ PayloadOk 5 [0x1F] ∧
      WritesOk (tdiCommands (5 : Count).toNat) (answered .shDr .low [0xF0]) ∧
      (answered .shDr .low [0xF0]).params.distinct ∧ EngineIdle (answered .shDr .low [0xF0]) ∧
      [(0xF0 : Byte)].length < expectedReplies (5 : Count).toNat ∧
      expectedReplies (5 : Count).toNat < [(0xF0 : Byte), 0x80, 0x00].length ∧
      1 < expectedReplies (5 : Count).toNat ∧
      ({ blockAt .shDr .low with readDraws := [.ioError 2] } : State).readDraws = .ioError 2 :: [] :=
  ⟨by decide, by decide, trivial, by decide, by decide, by decide, by decide, by decide, rfl⟩

/-- The block whose next read is answered so. -/
def drawn (d : ReadDraw) : State := { blockAt .tlr .high with readDraws := [d] }

/-- Five bits: two replies are expected; one in time, one or three of the environment's own, none and an I/O
error. -/
theorem witness_FailedReadSkipsTheExitWalk :
    (∀ d ∈ [ReadDraw.short 1, .bytes [0xF0], .bytes [0xF0, 0x80, 0x00], .ioError 0],
      Accepting (drawn d) ∧ PayloadOk 5 [0x1F] ∧ ShadowKnown (drawn d) ∧
      WritesOk (tdiCommands (5 : Count).toNat + 1) (drawn d) ∧ (drawn d).params.distinct ∧ EngineIdle (drawn d)) ∧
      1 < expectedReplies (5 : Count).toNat ∧
      [(0xF0 : Byte)].length < expectedReplies (5 : Count).toNat ∧
      expectedReplies (5 : Count).toNat < [(0xF0 : Byte), 0x80, 0x00].length := by
  refine ⟨fun d _ => ⟨⟨rfl, rfl⟩, by decide, .inr rfl, trivial,
    show Params.default.distinct by decide, rfl, rfl⟩, by decide, by decide, by decide⟩

/-- All three errors happen. -/
theorem witness_DesyncIsSetOnlyByATransportError :
    (after (exec (.shiftTms 1 [1]) (witnessBlock 0))).map (fun t => (t.desync, t.status)) = some (true, 0x01) ∧
    (after (exec (.transferTdi 5 [1]) (answered .shDr .low [0xF0]))).map (fun t => (t.desync, t.status)) =
      some (true, 0x02) ∧
    (after (exec (.transferTdi 5 [1]) (answered .shDr .low [0xF0, 0x80, 0x00]))).map
      (fun t => (t.desync, t.status)) = some (true, 0x03) := by
  refine ⟨by decide +kernel, by decide +kernel, by decide +kernel⟩

/-- Every instruction reaches a next state somewhere. -/
theorem witness_InstructionFrame :
    ([Instr.shiftTms 1 [1], .shiftTdi 1 [1], .transferTdi 1 [1], .tapReset, .idle 1, .shiftIr 1 [1],
      .transferIr 1 [1], .shiftDr 1 [1], .transferDr 1 [1], .reservedOp 0 0 [], .tmsOut 0 1, .tmsInout 0 1,
      .bytesOut [1], .bytesInout [1], .bitsOut 0 1, .bitsInout 0 1].all
      fun i => (after (exec i (blockAt .rti .low))).isSome) = true := by decide +kernel

theorem witness_NonCapturingOperationsNeverRead :
    ([Instr.shiftTms 1 [1], .shiftTdi 1 [1], .tapReset, .idle 0, .shiftIr 1 [1], .shiftDr 1 [1]].all
      fun i => (after (exec i (blockAt .rti .low))).map (fun t => (t.status, t.desync)) == some (0x00, false))
      = true := by decide +kernel

theorem witness_CommandResults : (engineAt .shDr 0 false).loopback = false := by decide

theorem witness_LoopbackCommandsEchoTdi : ({ State.reset with loopback := true } : State).loopback = true := by
  decide

theorem witness_RebuildUndoesPacking : ([] : List Bool).length ≤ 7 ∧ (List.replicate 7 true).length ≤ 7 := by
  decide

theorem witness_ChainIsOneShiftRegister :
    [tapIn .shDr 0x1000563D, tapIn .shDr 7] ≠ [] ∧
    (∀ t ∈ [tapIn .shDr 0x1000563D, tapIn .shDr 7], t.legal = true ∧ t.fits = true ∧ t.state = .shDr) ∧
    (∀ t ∈ [tapIn .shIr 0, tapIn .shIr 1], t.legal = true ∧ t.fits = true ∧ t.state = .shIr) := by decide

theorem witness_CapturedIrPath :
    ∀ t ∈ [tapIn .selIr 0, { tapIn .selIr 0 with irLength := 1 }], t.state = .selIr ∧ 1 ≤ t.irLength := by
  decide

theorem witness_LoopbackTransferReturnsItsInput :
    let s := { witnessBlock 2 with loopback := true }
    Accepting s ∧ PayloadOk 8 [0x80] ∧ WritesOk (tdiCommands (8 : Count).toNat) s ∧ s.params.distinct ∧
      s.loopback = true ∧ EngineIdle s ∧ ReadFull s :=
  ⟨by decide, by decide, Nat.le_refl 2, by decide, rfl, by decide, trivial⟩

/-- A step of the engine from a state that tracks: TAP_RESET's first command, and one TAP. -/
def trackedState : State :=
  { State.reset with taps := [Tap.powerUp 0x1000563D 5], cmdQueue := [0x4B, 0x07, 0xFF] }

theorem witness_ShadowTracksTheChain :
    Tracks trackedState ∧ NoLoopbackNext trackedState ∧ (after (step trackedState)).isSome = true := by
  refine ⟨⟨by decide, rfl, ?_⟩, (by intro h; cases h), by decide +kernel⟩
  simp only [InStep, trackedState, State.reset, State.powerOn]
  refine ⟨rfl, ?_, .inl rfl⟩
  decide +kernel

theorem witness_ValidStateIsKept : Valid trackedState ∧ (after (step trackedState)).isSome = true := by
  refine ⟨⟨by decide, by decide, ?_, ?_, by decide⟩, by decide +kernel⟩ <;> intro k h <;> cases h

theorem witness_PowerOnIsValid :
    Params.default.wf ∧ ∀ t ∈ [Tap.powerUp 0x1000563D 5], t.legal = true ∧ t.fits = true := by decide

theorem witness_OnlyTheHostClearsDesync :
    let s := { outOfStep with pending := [.action .purge] }
    s.desync = true ∧ (after (step s)).map (·.desync) = some false := by decide

theorem witness_FaultStaysUntilPowerUp :
    (after (exec (.reservedOp 0 0 []) State.reset)).map (·.fault) = some (some .illegalOperation) ∧
    stuck.fault = some .zeroCount ∧
    (after (step { stuck with pending := [.action .powerUp] })).map (·.fault) = some none ∧
    engineTurn { stuck with pending := [.action .powerUp] } = .waits := by
  refine ⟨by decide +kernel, by decide, by decide, by decide⟩

theorem witness_ContractFaultWritesNoByte :
    State.reset.fault = none ∧
      (after (exec (.shiftIr 5 [0x00]) State.reset)).map (·.fault) = some (some .tapStateIndeterminate) := by
  refine ⟨by decide, by decide +kernel⟩

theorem witness_ParametersNeverChange : (after (step trackedState)).isSome = true := by decide +kernel

theorem witness_PurgeResult : engineTurn { outOfStep with pending := [.action .purge] } = .waits := by decide

theorem witness_PowerUpResult : engineTurn { stuck with pending := [.action .powerUp] } = .waits := by decide

/-- V-D2 and a TAP of one bit. -/
theorem witness_IrDecoderMeasuresLengths :
    (∀ l ∈ [5, 5, 1], 1 ≤ l) ∧
    bufBits [0x21, 0xFC] ([5, 5, 1].sum + 1) =
      (([5, 5, 1].flatMap fun l => true :: List.replicate (l - 1) false) ++ [true]) ∧
    [5, 5, 1].sum + 1 ≤ 8 * [(0x21 : Byte), 0xFC].length := by decide

/-- A block whose scan selects the TAP. -/
theorem witness_SelectionObeysItsInvariants :
    (match selectTarget 0x1000563D { State.reset with
        taps := [Tap.powerUp 0x1000563D 5],
        readDraws := [.bytes ([0x3D, 0x56, 0x00, 0x10] ++ List.replicate 27 0xFF ++ [0xFE, 0x80]),
          .bytes ([0xE1] ++ List.replicate 30 0xFF ++ [0xFE, 0x80])] } with
      | .done _ t => t.selection
      | .error _ _ _ => none
      | .contract _ _ => none
      | .fault _ => none
      | .refused _ => none) = some ⟨0, 0, 0, 0, 5⟩ := by decide +kernel

/-- Nothing selected, an address just out of range, a chain just too wide, no bits, and the widest chain. -/
theorem witness_RegisterAccessChecksFirst :
    State.reset.clientFault = none ∧ State.reset.selection = none ∧ 2 ^ 5 - 1 < 0x20 ∧ 0x1F ≤ 2 ^ 5 - 1 ∧
      32 < 14 + 5 + 14 ∧ 14 + 5 + 13 ≤ 32 := by decide

theorem witness_IrValueLayout : 0x1F < 2 ^ 5 := by decide

/-- The chain of V-A7 at power-up, and no TAP at all. -/
theorem witness_ScanFindsEveryTap :
    ∀ s ∈ [State.powerOn Params.default [Tap.powerUp 0x1000563D 5], State.reset],
      Accepting s ∧ s.clientFault = none ∧ s.params.wf ∧ s.loopback = false ∧ s.tapShadow ≠ 0 ∧
      (engineDrain s).cmdQueue = [] ∧ (engineDrain s).replyQueue = [] ∧ s.writeFails = [] ∧ s.readDraws = [] ∧
      (∀ t ∈ s.taps, t.legal = true ∧ t.fits = true) ∧ s.taps.length ≤ s.params.maxDeviceCount ∧
      32 * s.params.maxDeviceCount < 2 ^ 32 ∧ (s.taps.map (·.irLength)).sum + 1 ≤ s.params.irScanBits ∧
      s.params.irScanBits < 2 ^ 32 := by decide +kernel

/-- A TAP with each register selected, and one with the all-ones instruction. -/
theorem witness_TapClockResult :
    ∀ ir ∈ [1, 2, 3, 31], ({ tapIn .shDr 1 with ir := ir, echoInstr := some 2 } : Tap).legal = true := by decide

/-- A TAP with an ECHO register, between TDO and a TAP of four instruction bits. -/
def echoTap : Tap := { tapIn .tlr 0 with echoInstr := some 2, echo := 0x12345678 }

/-- Its parameters in that chain. -/
def echoParameters : ChainParameters := ⟨0, 4, 0, 1, 5⟩

/-- The chain in Test-Logic-Reset with that TAP selected. -/
def echoState : State :=
  { State.reset with
    taps := [echoTap, Tap.powerUp 0x0BA00477 4]
    tapShadow := single .tlr
    selection := some echoParameters }

/-- The operations of an access of 32 bits: each one's STATUS, and whether the length fits at the end. -/
def accessStatus (ir dr : List Byte) : Option (List Byte × Bool) := do
  let s1 ← after (exec (.shiftIr 9 ir) { echoState with op := 0x12, count := 9, data := ir })
  let s2 ← after (exec (.transferDr 33 dr) { s1 with op := 0x15, count := 33, data := dr })
  let s3 ← after (exec (.idle 0) { s2 with op := 0x11, count := 0, data := [] })
  some ([s1.status, s2.status, s3.status], lengthFits echoParameters 32 s3)

/-- The ECHO register of 32 bits, read and then written with all ones; and the widest chain. -/
theorem witness_RegisterAccessIsItsOperations :
    echoState.clientFault = none ∧ echoState.selection = some echoParameters ∧
      2 ≤ 2 ^ echoParameters.irLength - 1 ∧ echoState.params.idleCycles = 0 ∧
      14 + 5 + 13 ≤ 32 ∧
      IrRequest echoParameters 2 [0xE2, 0x01] ∧ DrRequest echoParameters 0 32 [0x00, 0x00, 0x00, 0x00, 0x00] ∧
      DrRequest echoParameters 0xFFFFFFFF 32 [0xFF, 0xFF, 0xFF, 0xFF, 0x00] ∧
      accessStatus [0xE2, 0x01] [0x00, 0x00, 0x00, 0x00, 0x00] = some ([0x00, 0x00, 0x00], true) ∧
      accessStatus [0xE2, 0x01] [0xFF, 0xFF, 0xFF, 0xFF, 0x00] = some ([0x00, 0x00, 0x00], true) := by
  have bits : ∀ (buf : List Byte) (f : Nat → Bool), (∀ i, 8 * buf.length ≤ i → f i = false) →
      (∀ i ∈ List.range (8 * buf.length), bufBit buf i = f i) → ∀ i, bufBit buf i = f i := by
    intro buf f hf h i
    by_cases hi : i < 8 * buf.length
    · exact h i (List.mem_range.mpr hi)
    · rw [bufBit_of_ge (by omega), hf i (by omega)]
  refine ⟨rfl, rfl, by decide, by decide, by decide, ⟨rfl, bits _ _ (fun i hi => ?_) (by decide +kernel)⟩,
    ⟨rfl, bits _ _ (fun i hi => ?_) (by decide +kernel)⟩, ⟨rfl, bits _ _ (fun i hi => ?_) (by decide +kernel)⟩,
    by decide +kernel, by decide +kernel⟩
  · have hi : 16 ≤ i := hi
    rw [if_neg (show ¬ i < echoParameters.irPre from show ¬ i < 0 by omega),
      if_neg (show ¬ i < echoParameters.irPre + echoParameters.irLength from show ¬ i < 5 by omega)]
    exact decide_eq_false (show ¬ i < 9 by omega)
  · simp
  · have hi : 40 ≤ i := hi
    rw [decide_eq_false (show ¬ (echoParameters.drPre ≤ i ∧ i < echoParameters.drPre + 32) from
      show ¬ (0 ≤ i ∧ i < 32) by omega)]
    rfl

theorem echoState_ready : ReadyForAccess echoParameters echoState := by
  refine ⟨by decide, rfl, rfl, ⟨echoTap, rfl, by decide⟩, ⟨by decide, rfl, ?_⟩, .inr rfl, by decide, by decide, rfl, rfl,
    by decide⟩
  show (engineDrain echoState).cmdQueue = [] ∧ Covers (engineDrain echoState)
  refine ⟨by decide +kernel, by decide +kernel, .inl rfl⟩

/-- The IDCODE register, the ECHO register, and BYPASS at an address of its own and at all ones. -/
theorem witness_RegisterAccessReachesTheTarget :
    ReadyForAccess echoParameters echoState ∧ (engineDrain echoState).taps[echoParameters.drPre]? = some echoTap ∧
    (∀ a ∈ [1, 2, 3, 31], a ≤ 2 ^ echoParameters.irLength - 1) ∧
    echoParameters.irPre + echoParameters.irLength + echoParameters.irPost ≤ 32 ∧
    (1 = echoTap.idcodeInstr ∧ 0x1000563D = echoTap.idcode.toNat) ∧
    (echoTap.echoInstr = some 2 ∧ 32 = echoTap.echoLen ∧ 0x12345678 = echoTap.echo) ∧
    (31 ≠ echoTap.idcodeInstr ∧ echoTap.echoInstr ≠ some 31) :=
  ⟨echoState_ready, by decide, by decide, by decide, by decide, by decide, by decide⟩

theorem witness_EchoRegisterRoundTrip :
    ReadyForAccess echoParameters echoState ∧ (engineDrain echoState).taps[echoParameters.drPre]? = some echoTap ∧
    echoTap.echoInstr = some 2 ∧ 2 ≤ 2 ^ echoParameters.irLength - 1 ∧ echoTap.echoLen = 32 ∧
    echoParameters.irPre + echoParameters.irLength + echoParameters.irPost ≤ 32 ∧
    echoParameters.drPre + echoTap.echoLen + echoParameters.drPost < 2 ^ 32 :=
  ⟨echoState_ready, by decide, rfl, by decide, by decide, by decide, by decide⟩

end Sys2Proof.Tests
end

section
/-! Proofs about the TAP state machine: the facts of the transition table and the image of a set of states
(10_state.md R26, R27). -/

namespace Sys2Proof.Machine

open Sys2Proof Sys2Proof.Safety

/-! ## Runs of clocks from one state (10_state.md R25, R26) -/

theorem foldl_next_tlr_high (k : Nat) : (List.replicate k true).foldl TapState.next .tlr = .tlr := by
  induction k with
  | zero => rfl
  | succ k ih => exact ih

theorem foldl_next_rti_low (k : Nat) : (List.replicate k false).foldl TapState.next .rti = .rti := by
  induction k with
  | zero => rfl
  | succ k ih => exact ih

theorem foldl_next_five_high (s : TapState) : (List.replicate 5 true).foldl TapState.next s = .tlr := by
  cases s <;> rfl

/-- Five TMS-1 clocks reach Test-Logic-Reset, and further ones stay there. -/
theorem foldl_next_high (s : TapState) (k : Nat) :
    (List.replicate (5 + k) true).foldl TapState.next s = .tlr := by
  rw [List.replicate_add, List.foldl_append, foldl_next_five_high, foldl_next_tlr_high]

/-- A first TMS-0 clock from Test-Logic-Reset reaches Run-Test/Idle, and further ones stay there. -/
theorem foldl_next_tlr_low {n : Nat} (h : 1 ≤ n) :
    (List.replicate n false).foldl TapState.next .tlr = .rti := by
  obtain ⟨k, rfl⟩ := Nat.exists_eq_add_of_le' h
  exact foldl_next_rti_low k

/-! ## Walks of a set of states (10_state.md R27) -/

/-- A walk holds the states that its clocks take the members to. -/
theorem holds_walk (S : TapSet) (ts : List Bool) (s' : TapState) :
    holds (walk S ts) s' = true ↔ ∃ s, holds S s = true ∧ ts.foldl TapState.next s = s' := by
  induction ts generalizing S with
  | nil => simp
  | cons t ts ih =>
    have hstep (s : TapState) : holds (stepSet S (.ofBool t)) s = true ↔ ∃ r, holds S r = true ∧ r.next t = s := by
      cases t <;> exact holds_stepLevel S _ s
    simp only [walk_cons, ih, hstep, List.foldl_cons]
    constructor
    · rintro ⟨_, ⟨r, hr, rfl⟩, h⟩
      exact ⟨r, hr, h⟩
    · rintro ⟨r, hr, h⟩
      exact ⟨_, ⟨r, hr, rfl⟩, h⟩

theorem walk_snoc (S : TapSet) (ts : List Bool) (t : Bool) :
    walk S (ts ++ [t]) = stepSet (walk S ts) (if t then .high else .low) := by
  rw [walk_append]
  cases t <;> rfl

/-- Settles O8: every member of the set ends in Test-Logic-Reset, and there is one. -/
theorem fiveHighClocksReachReset : Obligations.FiveHighClocksReachReset := by
  intro S k hS
  obtain ⟨s, hs⟩ := tapSet_ne_zero.mp hS
  apply tapSet_ext
  intro s'
  rw [Bool.eq_iff_iff, holds_walk, holds_single, decide_eq_true_eq]
  constructor
  · rintro ⟨r, -, hr⟩
    rw [← hr, foldl_next_high]
  · rintro rfl
    exact ⟨s, hs, foldl_next_high s k⟩

/-- Settles O6: membership in a step at a known level, and a step at an unknown level is the union of both. -/
theorem stepSetIsTheImage : Obligations.StepSetIsTheImage := by
  refine ⟨fun S s' => ⟨holds_stepLevel S false s', holds_stepLevel S true s', ?_⟩,
    fun S ts t => ⟨walk_nil S, walk_snoc S ts t⟩,
    fun a b => ⟨holds_allStates a, by rw [holds_single, decide_eq_true_eq]⟩,
    fiveHighClocksReachReset allStates 0 (by decide)⟩
  simp [stepSet]

/-- Settles O7: the two facts about runs of any length are inductions, the others are entries of the table. -/
theorem transitionTableFacts : Obligations.TransitionTableFacts :=
  ⟨foldl_next_high, by decide, by decide, by decide, by decide, by decide, fun _ h => foldl_next_tlr_low h⟩

end Sys2Proof.Machine
end

section
/-! Proofs about single instructions: what none of them writes, the stuck block, and the fetch. -/

namespace Sys2Proof.Machine

open Sys2Proof Sys2Proof.Safety

/-! ## The frame of an instruction (10_state.md R21, R22, R32, R33) -/

/-- What no instruction writes, and that the logs only grow. -/
structure OperationFrame (s t : State) : Prop where
  op : t.op = s.op
  count : t.count = s.count
  data : t.data = s.data
  pending : t.pending = s.pending
  position : t.position = s.position
  selection : t.selection = s.selection
  clientFault : t.clientFault = s.clientFault
  clientReply : t.clientReply = s.clientReply
  params : t.params = s.params
  loopback : t.loopback = s.loopback
  taps : t.taps.map Tap.fixed = s.taps.map Tap.fixed
  txLog : s.txLog <+: t.txLog
  rxLog : s.rxLog <+: t.rxLog

theorem OperationFrame.refl (s : State) : OperationFrame s s :=
  ⟨rfl, rfl, rfl, rfl, rfl, rfl, rfl, rfl, rfl, rfl, rfl, List.prefix_rfl, List.prefix_rfl⟩

theorem OperationFrame.trans {s t u : State} (h : OperationFrame s t) (k : OperationFrame t u) :
    OperationFrame s u where
  op := k.op.trans h.op
  count := k.count.trans h.count
  data := k.data.trans h.data
  pending := k.pending.trans h.pending
  position := k.position.trans h.position
  selection := k.selection.trans h.selection
  clientFault := k.clientFault.trans h.clientFault
  clientReply := k.clientReply.trans h.clientReply
  params := k.params.trans h.params
  loopback := k.loopback.trans h.loopback
  taps := k.taps.trans h.taps
  txLog := h.txLog.trans k.txLog
  rxLog := h.rxLog.trans k.rxLog

/-- The engine, the chain's registers and the draws are none of the frame. -/
theorem OperationFrame.of_engine {s t : State} (h : t = { s with
    tmsPin := t.tmsPin, cmdQueue := t.cmdQueue, replyQueue := t.replyQueue, taps := t.taps,
    freeCount := t.freeCount })
    (ht : t.taps.map Tap.fixed = s.taps.map Tap.fixed) : OperationFrame s t := by
  rw [h]
  exact ⟨rfl, rfl, rfl, rfl, rfl, rfl, rfl, rfl, rfl, rfl, ht, List.prefix_rfl, List.prefix_rfl⟩

theorem runCommand_operationFrame (i : Instr) (s : State) : OperationFrame s (runCommand i s) :=
  .of_engine (by rw [runCommand_frame]) (runCommand_fixed i s)

theorem engineDrain_operationFrame (s : State) : OperationFrame s (engineDrain s) :=
  .of_engine (engineDrain_frame s) (engineDrain_fixed s)

theorem raiseError_operationFrame (e : ErrorKind) (s : State) : OperationFrame s (raiseError e s) :=
  ⟨rfl, rfl, rfl, rfl, rfl, rfl, rfl, rfl, rfl, rfl, unknownChain_fixed _ _, List.prefix_rfl, List.prefix_rfl⟩

/-- The frame of an operation's phases: nor do they write `desync` or `fault`, which only the end of the
operation sets. -/
structure PhaseFrame (s t : State) : Prop extends OperationFrame s t where
  desync : t.desync = s.desync
  fault : t.fault = s.fault

theorem phaseFrame_stepwise : Stepwise PhaseFrame where
  refl s := ⟨.refl s, rfl, rfl⟩
  trans _ _ _ h k := ⟨h.toOperationFrame.trans k.toOperationFrame, k.desync.trans h.desync, k.fault.trans h.fault⟩
  emitted _ s _ :=
    ⟨{ OperationFrame.refl s with txLog := List.prefix_append _ _ }, rfl, rfl⟩
  logged s _ _ := ⟨{ OperationFrame.refl s with txLog := List.prefix_append _ _ }, rfl, rfl⟩
  received s bytes _ _ :=
    ⟨{ engineDrain_operationFrame s with rxLog := List.prefix_append _ _ }, engineDrain_desync s,
      by rw [engineDrain_frame]⟩
  result s _ := ⟨{ OperationFrame.refl s with }, rfl, rfl⟩

theorem exec_operationFrame {i : Instr} {s t : State} (h : exec i s = .next t) : OperationFrame s t := by
  cases exec_returns phaseFrame_stepwise h with
  | command => exact runCommand_operationFrame i s
  | contract => exact { OperationFrame.refl s with }
  | done u _ _ hu => exact { hu.toOperationFrame with }
  | error u e _ _ hu => exact hu.toOperationFrame.trans (raiseError_operationFrame e u)

/-- Settles O24: the frame of an operation's phases, carried over each way an instruction returns. -/
theorem instructionFrame : Obligations.InstructionFrame := by
  intro i s t h
  have f := exec_operationFrame h
  exact ⟨f.op, f.count, f.data, f.pending, f.position, f.selection, f.clientFault, f.clientReply, f.params,
    f.loopback, f.taps, f.txLog, f.rxLog⟩

/-- No instruction clears `desync` (10_state.md R30). -/
theorem exec_keeps_desync {i : Instr} {s t : State} (h : exec i s = .next t) (hd : s.desync = true) :
    t.desync = true := by
  cases exec_returns phaseFrame_stepwise h with
  | command => rw [runCommand_frame]; exact hd
  | contract => exact hd
  | done u _ _ hu => exact hu.desync.trans hd
  | error => rfl

/-! ## The sticky contract fault (10_state.md R31) -/

/-- What sets `fault` replies with the code of its kind. -/
theorem exec_fault_status {i : Instr} {s t : State} {k : ContractFault} (h : exec i s = .next t)
    (hs : s.fault = none) (ht : t.fault = some k) : t.status = k.code := by
  cases exec_returns phaseFrame_stepwise h with
  | command => rw [runCommand_frame, hs] at ht; cases ht
  | contract k' =>
    obtain rfl : k' = k := Option.some.inj ht
    rfl
  | done u _ _ hu => exact absurd (hu.fault.symm.trans ht) (by simp [hs])
  | error u e _ _ hu => exact absurd (hu.fault.symm.trans ht) (by simp [hs])

theorem checked_stuck {n : Nat} {data : List Byte} {nc ns : Bool}
    {body : State → Host.Outcome State Fault Refusal} {s : State} {k : ContractFault} (h : s.fault = some k) :
    checked n data nc ns body s = .fault (.blockStuck k) := by
  simp only [checked, h]

theorem exec_stuck {i : Instr} {s : State} {k : ContractFault} (hi : i.space = .port) (h : s.fault = some k) :
    exec i s = .fault (.blockStuck k) := by
  cases i
  case tmsOut | tmsInout | bytesOut | bytesInout | bitsOut | bitsInout => cases hi
  all_goals simp only [exec, execShiftTms, execShiftTdi, execTransferTdi, execTapReset, execIdle, execShiftIr,
    execTransferIr, execShiftDr, execTransferDr, execReservedOp, checked_stuck h, h]

/-- A descriptor decodes to an operation, never to a command of the engine. -/
theorem decodeRequest_space (op : Byte) (count : Count) (data : List Byte) :
    (decodeRequest op count data).space = .port := by
  unfold decodeRequest decodeOperation
  repeat' split
  all_goals rfl

theorem accept_stuck {s : State} {k : ContractFault} (op : Byte) (count : Count) (data : List Byte)
    (h : s.fault = some k) : accept op count data s = .fault (.blockStuck k) :=
  exec_stuck (decodeRequest_space op count data) h

/-! ## Fetch (10_state.md R22, 40_engine_commands.md R100) -/

theorem engineTurn_of_decode {s : State} {i : Instr} {rest : List Byte} (hd : s.desync = false)
    (h : decodeCommand s.params s.cmdQueue = .ok (i, rest)) : engineTurn s = .command i rest := by
  simp [engineTurn, hd, h]

theorem engineTurn_waits {s : State}
    (h : s.desync = true ∨ decodeCommand s.params s.cmdQueue = .error .truncated) : engineTurn s = .waits := by
  unfold engineTurn
  rcases h with h | h
  · rw [if_pos h]
  · simp only [h, ite_self]

/-- A waiting engine lets the host issue its next request. -/
theorem step_of_waits {s : State} {r : Request} {rest : List Request} (h : engineTurn s = .waits)
    (hp : s.pending = r :: rest) : step s = requestReturned rest (serve r s) := by
  simp only [step, h, hostTurn, hp]

/-- Settles O5: the engine's turn is read off its queue, and a waiting engine leaves the step to the host. -/
theorem stepRunsTheDecodedInstruction : Obligations.StepRunsTheDecodedInstruction := by
  refine ⟨fun s i rest hd hc => ?_, fun s op count data rest hw hp => ?_⟩
  · simp only [step, engineTurn_of_decode hd hc]
  · have hs : step s = requestReturned rest (exec (decodeRequest op count data)
        { s with op := op, count := count, data := data }) := step_of_waits (engineTurn_waits hw) hp
    exact ⟨fun t h => by rw [hs, h]; rfl, fun f h => by rw [hs, h]; rfl, fun r h => by rw [hs, h]; rfl⟩

end Sys2Proof.Machine
end

section
/-! Proofs about steps: a property that every part of a step keeps is kept by the step, and the sticky fields,
the parameters and the state's types are such properties. -/

namespace Sys2Proof.Machine

open Sys2Proof Sys2Proof.Safety

/-! ## Properties that every step keeps -/

/-- What a property must keep for every step to keep it, a host action aside: the engine's command, an operation,
and the updates that the host and the client make of their own fields. -/
structure KeptByAgents (P : State → Prop) : Prop where
  command : ∀ s i rest, s.desync = false → decodeCommand s.params s.cmdQueue = .ok (i, rest) → P s →
    P (runCommand i { s with cmdQueue := rest })
  accept : ∀ op count data s t, Machine.accept op count data s = .next t → P s → P t
  host : ∀ s pending position, P s → P { s with pending := pending, position := position }
  client : ∀ s selection reply, P s → P { s with selection := selection, clientReply := reply }
  clientFault : ∀ s k, isBlockFault k = false → P s → P { s with clientFault := some k }
  spoil : ∀ c s, P s → P (spoilTarget c s)
  draw : ∀ s, P s → P (drawResult s)

theorem KeptByAgents.clientwise {P : State → Prop} (h : KeptByAgents P) : Clientwise fun s t => P s → P t where
  refl _ := id
  trans _ _ _ hst htu := htu ∘ hst
  accept := h.accept
  selection s x := h.client s x s.clientReply
  spoil := h.spoil
  draw := h.draw

/-- The host's request is taken off its program only where the engine waits. -/
theorem engineTurn_of_pending_ne {s t : State} (h : step s = .next t) (hp : t.pending ≠ s.pending) :
    engineTurn s = .waits := by
  cases he : engineTurn s with
  | waits => rfl
  | stalled r => simp only [step, he] at h; cases h
  | command i rest =>
    simp only [step, he] at h
    exact absurd (exec_operationFrame h).pending hp

/-- A step keeps a property that its agents keep, if the host action it makes keeps it. -/
theorem KeptByAgents.step {P : State → Prop} (h : KeptByAgents P) {s t : State} (hst : Machine.step s = .next t)
    (ha : ∀ a, engineTurn s = .waits → s.pending.head? = some (.action a) → P s → P (hostAct a s)) (hs : P s) :
    P t := by
  cases step_cases hst with
  | engine i rest hd hc => exact h.command s i rest hd hc hs
  | idle => exact hs
  | operation op count data rest u hp hu => exact h.host u _ _ (h.accept _ _ _ _ _ hu hs)
  | action a rest hp =>
    have hw := engineTurn_of_pending_ne hst (by rw [hp]; exact (List.cons_ne_self _ _).symm)
    exact h.host _ _ _ (ha a hw (by rw [hp]; rfl) hs)
  | procedure p rest u hp hu =>
    obtain ⟨-, v, r, hv, rfl | ⟨k, hk, rfl⟩⟩ := clientTurn_cases h.clientwise hu
    · exact h.host _ _ _ (h.client _ _ r (hv hs))
    · exact h.host _ _ _ (h.clientFault _ k hk (h.client _ _ r (hv hs)))

/-! ## The parameters, `desync` and `fault` (10_state.md R30, R31, R33) -/

@[simp] theorem spoilTarget_params (c : ChainParameters) (s : State) : (spoilTarget c s).params = s.params := by
  rw [spoilTarget_frame]

@[simp] theorem spoilTarget_desync (c : ChainParameters) (s : State) : (spoilTarget c s).desync = s.desync := by
  rw [spoilTarget_frame]

@[simp] theorem spoilTarget_fault (c : ChainParameters) (s : State) : (spoilTarget c s).fault = s.fault := by
  rw [spoilTarget_frame]

@[simp] theorem spoilTarget_loopback (c : ChainParameters) (s : State) : (spoilTarget c s).loopback = s.loopback := by
  rw [spoilTarget_frame]

@[simp] theorem spoilTarget_tapShadow (c : ChainParameters) (s : State) :
    (spoilTarget c s).tapShadow = s.tapShadow := by
  rw [spoilTarget_frame]

@[simp] theorem spoilTarget_tmsShadow (c : ChainParameters) (s : State) :
    (spoilTarget c s).tmsShadow = s.tmsShadow := by
  rw [spoilTarget_frame]

theorem params_keptByAgents (p : Params) : KeptByAgents fun s => s.params = p where
  command _ _ _ _ _ h := (runCommand_params _ _).trans h
  accept _ _ _ _ _ hu h := (exec_operationFrame hu).params.trans h
  host _ _ _ h := h
  client _ _ _ h := h
  clientFault _ _ _ h := h
  spoil c s h := (spoilTarget_params c s).trans h
  draw _ h := h

theorem desync_keptByAgents : KeptByAgents fun s => s.desync = true where
  command _ _ _ hd _ h := absurd (hd.symm.trans h) (by decide)
  accept _ _ _ _ _ hu h := exec_keeps_desync hu h
  host _ _ _ h := h
  client _ _ _ h := h
  clientFault _ _ _ h := h
  spoil c s h := (spoilTarget_desync c s).trans h
  draw _ h := h

theorem fault_keptByAgents (k : ContractFault) : KeptByAgents fun s => s.fault = some k where
  command s i rest _ _ h := by rw [runCommand_frame]; exact h
  accept op count data _ _ hu h := by rw [accept_stuck op count data h] at hu; cases hu
  host _ _ _ h := h
  client _ _ _ h := h
  clientFault _ _ _ h := h
  spoil c s h := (spoilTarget_fault c s).trans h
  draw _ h := h

/-- Settles O43: no agent and no host action writes the parameters. -/
theorem parametersNeverChange : Obligations.ParametersNeverChange := fun s t h =>
  (params_keptByAgents s.params).step h (fun a _ _ hp => by cases a <;> exact hp) rfl

/-- Settles O40: every agent keeps `desync`, and so does the host's loopback switch. -/
theorem onlyTheHostClearsDesync : Obligations.OnlyTheHostClearsDesync := by
  intro s t h hs ht
  by_contra hn
  obtain ⟨hpurge, hpower⟩ := not_or.mp hn
  have hk : t.desync = true := desync_keptByAgents.step h (fun a _ ha hd => by
    cases a with
    | purge => exact absurd ha hpurge
    | setLoopback => exact hd
    | powerUp => exact absurd ha hpower) hs
  rw [hk] at ht
  cases ht

/-- Settles O41: an operation of a stuck block takes no step, and of the host's actions only a power-up writes
`fault`. -/
theorem faultStaysUntilPowerUp : Obligations.FaultStaysUntilPowerUp := by
  refine ⟨fun i s t k => exec_fault_status, fun s k op count data => exec_stuck (decodeRequest_space op count data),
    fun s t k h hs ht => ?_, fun s rest hw hp => ⟨_, step_of_waits hw hp, rfl⟩⟩
  by_contra hn
  exact ht ((fault_keptByAgents k).step h (fun a _ ha hf => by
    cases a with
    | purge => exact hf
    | setLoopback => exact hf
    | powerUp => exact absurd ha hn) hs)

/-! ## The state within its types (10_state.md R20, R33, 45_reference_target.md R191, R192) -/

theorem allStates_ne_zero : allStates ≠ 0 := by decide

/-- The clocks of a command leave the shadow some state. -/
theorem shadowCommand_ne_zero (i : Instr) {s : State} (h : s.tapShadow ≠ 0) : (shadowCommand i s).tapShadow ≠ 0 := by
  have hdata (n : Nat) : (clockDataTimes n s).tapShadow ≠ 0 := by
    rw [clockDataTimes_eq]
    exact Function.Iterate.rec (· ≠ 0) h (fun _ => stepSet_ne_zero _) n
  have htms (ts : List Bool) : (ts.foldl clockTms s).tapShadow ≠ 0 := by
    rw [clockTms_fold]
    exact walk_ne_zero ts h
  cases i
  case tmsOut | tmsInout => exact htms _
  case bytesOut | bytesInout | bitsOut | bitsInout => exact hdata _
  all_goals exact h

theorem shadowCommands_ne_zero (is : List Instr) {s : State} (h : s.tapShadow ≠ 0) :
    (shadowCommands is s).tapShadow ≠ 0 := by
  induction is generalizing s with
  | nil => exact h
  | cons i is ih => exact ih (shadowCommand_ne_zero i h)

/-- A transport error leaves every TAP state possible and the chain's registers within their widths. -/
theorem raiseError_valid (e : ErrorKind) {s : State} (h : Valid s) : Valid (raiseError e s) := by
  obtain ⟨hp, -, hf, hc, ht⟩ := h
  exact ⟨hp, allStates_ne_zero, hf, hc, unknownChain_fits _ ht⟩

theorem runCommand_valid (i : Instr) {s : State} (h : Valid s) : Valid (runCommand i s) := by
  obtain ⟨hp, hS, hf, hc, ht⟩ := h
  rw [runCommand_frame]
  exact ⟨hp, hS, hf, hc, runCommand_fits i s ht⟩

theorem spoilTarget_valid (c : ChainParameters) {s : State} (h : Valid s) : Valid (spoilTarget c s) := by
  obtain ⟨hp, hS, hf, hc, ht⟩ := h
  rw [spoilTarget_frame]
  exact ⟨hp, hS, hf, hc, spoilTarget_fits c ht⟩

theorem engineDrain_valid {s : State} (h : Valid s) : Valid (engineDrain s) := by
  obtain ⟨hp, hS, hf, hc, ht⟩ := h
  rw [engineDrain_frame]
  exact ⟨hp, hS, hf, hc, engineDrain_fits s ht⟩

theorem emitted_valid (is : List Instr) {s : State} (h : Valid s) : Valid (emitted is s) := by
  obtain ⟨hp, hS, hf, hc, ht⟩ := h
  exact ⟨hp, shadowCommands_ne_zero is hS, hf, hc, ht⟩

theorem valid_stepwise : Stepwise fun s t => Valid s → Valid t where
  refl _ := id
  trans _ _ _ hst htu := htu ∘ hst
  emitted is _ _ := emitted_valid is
  logged _ _ _ := id
  received _ _ _ _ := engineDrain_valid
  result _ _ := id

theorem exec_valid {i : Instr} {s t : State} (h : exec i s = .next t) (hs : Valid s) : Valid t := by
  cases exec_returns valid_stepwise h with
  | command => exact runCommand_valid i hs
  | contract k _ _ hk =>
    obtain ⟨hp, hS, -, hc, ht⟩ := hs
    exact ⟨hp, hS, fun k' h => by cases h; exact hk, hc, ht⟩
  | done u _ _ hu => exact hu hs
  | error u e _ _ hu => exact raiseError_valid e (hu hs)

theorem hostAct_valid (a : HostAction) {s : State} (h : Valid s) : Valid (hostAct a s) := by
  cases a with
  | purge => exact h
  | setLoopback => exact h
  | powerUp =>
    obtain ⟨hp, -, -, hc, ht⟩ := h
    exact ⟨hp, allStates_ne_zero, nofun, hc, ht⟩

theorem valid_keptByAgents : KeptByAgents Valid where
  command s i rest _ _ h := runCommand_valid i (s := { s with cmdQueue := rest }) h
  accept _ _ _ _ _ hu h := exec_valid hu h
  host _ _ _ h := h
  client _ _ _ h := h
  clientFault s k hk h := by
    obtain ⟨hp, hS, hf, -, ht⟩ := h
    exact ⟨hp, hS, hf, fun k' h => by cases h; exact hk, ht⟩
  spoil c _ h := spoilTarget_valid c h
  draw _ h := h

/-- Settles O38: each agent and each host action keeps the state valid. -/
theorem validStateIsKept : Obligations.ValidStateIsKept := fun _ _ hs h =>
  valid_keptByAgents.step h (fun a _ _ => hostAct_valid a) hs

end Sys2Proof.Machine
end

section
/-! Proofs about the shadow and the chain (10_state.md R28, R29, R35): the block's shadow, clocked with the commands
it writes, covers the chain that the engine clocks with them. -/

namespace Sys2Proof.Machine

open Sys2Proof Sys2Proof.Safety

/-! ## The chain under the clocks of a command, outside loopback -/

/-- The clocks of a command, its TMS and TDI levels, with the latch at the given level (40_engine_commands.md R103 to
R108). -/
def commandClocks (i : Instr) (pin : Bool) : List (Bool × Bool) :=
  match i with
  | .tmsOut l d | .tmsInout l d => (byteBits (l.toNat + 1) d).map fun t => (t, d.getLsbD 7)
  | .bytesOut payload | .bytesInout payload => (payloadBits payload).map fun b => (pin, b)
  | .bitsOut l d | .bitsInout l d => (byteBits (l.toNat + 1) d).map fun b => (pin, b)
  | .shiftTms _ _ | .shiftTdi _ _ | .transferTdi _ _ | .tapReset | .idle _ | .shiftIr _ _ | .transferIr _ _
  | .shiftDr _ _ | .transferDr _ _ | .reservedOp _ _ _ => []

/-- The latch after a command: a TMS command leaves it at its last bit. -/
def commandLatch (i : Instr) (pin : Bool) : Bool :=
  match i with
  | .tmsOut l d | .tmsInout l d => (byteBits (l.toNat + 1) d).getLast?.getD pin
  | .bytesOut _ | .bytesInout _ | .bitsOut _ _ | .bitsInout _ _ => pin
  | .shiftTms _ _ | .shiftTdi _ _ | .transferTdi _ _ | .tapReset | .idle _ | .shiftIr _ _ | .transferIr _ _
  | .shiftDr _ _ | .transferDr _ _ | .reservedOp _ _ _ => pin

/-- A command clocks the chain with its clocks and leaves the latch at its level. -/
theorem runCommand_chain (i : Instr) {s : State} (h : s.loopback = false) :
    (runCommand i s).taps = chainAfter s.taps (commandClocks i s.tmsPin) ∧
      (runCommand i s).tmsPin = commandLatch i s.tmsPin := by
  cases i
  case tmsOut l d | tmsInout l d =>
    simp only [runCommand, tmsCommand, replyPartial, reply_taps, reply_tmsPin, tmsClocks_chain _ _ s h]
    exact ⟨rfl, rfl⟩
  case bytesOut p | bytesInout p =>
    simp only [runCommand, reply_taps, reply_tmsPin, (bytesClocks_chain p s h).2]
    exact ⟨rfl, rfl⟩
  case bitsOut l d | bitsInout l d =>
    simp only [runCommand, bitsCommand, replyPartial, reply_taps, reply_tmsPin, dataClocks_chain _ s h]
    exact ⟨rfl, rfl⟩
  all_goals exact ⟨rfl, rfl⟩

/-- Two machines outside loopback whose engines and chains move alike: the replies and the draws play no part. -/
structure SameMoves (s t : State) : Prop where
  params : s.params = t.params
  loopback : s.loopback = false ∧ t.loopback = false
  tmsPin : s.tmsPin = t.tmsPin
  cmdQueue : s.cmdQueue = t.cmdQueue
  taps : s.taps = t.taps

theorem SameMoves.runCommand {s t : State} (h : SameMoves s t) (i : Instr) :
    SameMoves (runCommand i s) (runCommand i t) := by
  obtain ⟨hs, ht⟩ := h.loopback
  have ks := runCommand_chain i hs
  have kt := runCommand_chain i ht
  refine ⟨by simp [h.params], by simp [hs, ht], ?_, by simp [h.cmdQueue], ?_⟩
  · rw [ks.2, kt.2, h.tmsPin]
  · rw [ks.1, kt.1, h.tmsPin, h.taps]

theorem SameMoves.engineDrain {s t : State} (h : SameMoves s t) : SameMoves (engineDrain s) (engineDrain t) := by
  refine engineDrain_induct (P := fun s d => ∀ t, SameMoves s t → SameMoves d (Machine.engineDrain t))
    (fun s e hd t h => ?_) (fun s i rest hd ih t h => ?_) s t h
  · rwa [engineDrain_stop (by rw [← h.params, ← h.cmdQueue]; exact hd)]
  · rw [engineDrain_command (s := t) (by rw [← h.params, ← h.cmdQueue]; exact hd)]
    have hm : SameMoves { s with cmdQueue := rest } { t with cmdQueue := rest } :=
      ⟨h.params, h.loopback, h.tmsPin, rfl, h.taps⟩
    exact ih _ (hm.runCommand i)

/-! ## The shadow covers the chain -/

/-- Every TAP of the chain is in a state of the set. -/
def ChainIn (S : TapSet) (taps : List Tap) : Prop := ∀ t ∈ taps, holds S t.state = true

/-- The block's TMS level is unknown or the given one. -/
def LevelIs (l : TmsLevel) (pin : Bool) : Prop := l = .x ∨ l = .ofBool pin

theorem chainIn_allStates (taps : List Tap) : ChainIn allStates taps := fun t _ => holds_allStates t.state

theorem clockChain_chainIn {S : TapSet} {l : TmsLevel} {taps : List Tap} (tms tdi : Bool) (h : ChainIn S taps)
    (hl : LevelIs l tms) : ChainIn (stepSet S l) (clockChain taps tms tdi) := by
  intro u hu
  obtain ⟨t, ht, d, rfl⟩ := mem_clockChain hu
  rw [Tap.clock_state]
  exact holds_stepSet_of l tms (h t ht) hl

theorem chainAfter_chainIn_walk {S : TapSet} {taps : List Tap} (ts : List Bool) (tdi : Bool) (h : ChainIn S taps) :
    ChainIn (walk S ts) (chainAfter taps (ts.map fun t => (t, tdi))) := by
  induction ts generalizing S taps with
  | nil => exact h
  | cons t ts ih => exact ih (clockChain_chainIn t tdi h (.inr rfl))

theorem chainAfter_chainIn_data {S : TapSet} {l : TmsLevel} {pin : Bool} {taps : List Tap} (bs : List Bool)
    (h : ChainIn S taps) (hl : LevelIs l pin) :
    ChainIn ((fun S => stepSet S l)^[bs.length] S) (chainAfter taps (bs.map fun b => (pin, b))) := by
  induction bs generalizing S taps with
  | nil => exact h
  | cons b bs ih => exact ih (clockChain_chainIn pin b h hl)

/-- The block `b` covers the engine `e` and its chain. `Covers` is the case of one machine. -/
structure BlockCovers (b e : State) : Prop where
  taps : ChainIn b.tapShadow e.taps
  level : LevelIs b.tmsShadow e.tmsPin

theorem clockTms_fold_covers {b e : State} (ts : List Bool) (tdi : Bool) (h : BlockCovers b e) :
    ChainIn (ts.foldl clockTms b).tapShadow (chainAfter e.taps (ts.map fun t => (t, tdi))) ∧
      LevelIs (ts.foldl clockTms b).tmsShadow (ts.getLast?.getD e.tmsPin) := by
  rw [clockTms_fold]
  refine ⟨chainAfter_chainIn_walk ts tdi h.taps, ?_⟩
  cases ts.getLast? with
  | none => exact h.level
  | some t => exact .inr rfl

theorem clockDataTimes_covers {b e : State} {n : Nat} (bs : List Bool) (hn : bs.length = n) (h : BlockCovers b e) :
    ChainIn (clockDataTimes n b).tapShadow (chainAfter e.taps (bs.map fun x => (e.tmsPin, x))) ∧
      LevelIs (clockDataTimes n b).tmsShadow e.tmsPin := by
  rw [clockDataTimes_eq, ← hn]
  exact ⟨chainAfter_chainIn_data bs h.taps h.level, h.level⟩

/-- The block's shadow, clocked with a command, covers the chain that the command has clocked. -/
theorem BlockCovers.command {b e : State} (h : BlockCovers b e) (he : e.loopback = false) (i : Instr) :
    BlockCovers (shadowCommand i b) (runCommand i e) := by
  suffices k : ChainIn (shadowCommand i b).tapShadow (chainAfter e.taps (commandClocks i e.tmsPin)) ∧
      LevelIs (shadowCommand i b).tmsShadow (commandLatch i e.tmsPin) by
    obtain ⟨htaps, hpin⟩ := runCommand_chain i he
    exact ⟨htaps ▸ k.1, hpin ▸ k.2⟩
  cases i
  case tmsOut | tmsInout => exact clockTms_fold_covers _ _ h
  case bytesOut | bytesInout => exact clockDataTimes_covers _ (payloadBits_length _) h
  case bitsOut | bitsInout => exact clockDataTimes_covers _ (byteBits_length _ _) h
  all_goals exact ⟨h.taps, h.level⟩

theorem BlockCovers.commands {b e : State} (h : BlockCovers b e) (he : e.loopback = false) (is : List Instr) :
    BlockCovers (shadowCommands is b) (runCommands is e) := by
  induction is generalizing b e with
  | nil => exact h
  | cons i is ih => exact ih (h.command he i) (by simp [he])

/-! ## The invariant -/

/-- While the streams are in step: the engine can run all it holds, and the shadow covers the chain then. -/
def Settles (s : State) : Prop := (engineDrain s).cmdQueue = [] ∧ BlockCovers s (engineDrain s)

/-- While they may be out of step: the block assumes nothing. -/
def AssumesNothing (s : State) : Prop := s.tapShadow = allStates ∧ s.tmsShadow = .x

theorem covers_engineDrain (s : State) : Covers (engineDrain s) ↔ BlockCovers s (engineDrain s) := by
  rw [Covers, engineDrain_tapShadow, engineDrain_tmsShadow]
  exact ⟨fun h => ⟨h.1, h.2⟩, fun h => ⟨h.taps, h.level⟩⟩

theorem inStep_iff (s : State) :
    InStep s ↔ (s.desync = true → AssumesNothing s) ∧ (s.desync = false → Settles s) := by
  rw [InStep, covers_engineDrain]
  cases s.desync <;> simp [Settles, AssumesNothing]

theorem tracks_distinct {s : State} (h : Tracks s) : s.params.distinct := h.1

theorem tracks_loopback {s : State} (h : Tracks s) : s.loopback = false := h.2.1

theorem settles_of_tracks {s : State} (h : Tracks s) (hd : s.desync = false) : Settles s :=
  ((inStep_iff s).mp h.2.2).2 hd

theorem assumesNothing_of_tracks {s : State} (h : Tracks s) (hd : s.desync = true) : AssumesNothing s :=
  ((inStep_iff s).mp h.2.2).1 hd

theorem tracks_of_settles {s : State} (hp : s.params.distinct) (hl : s.loopback = false) (hd : s.desync = false)
    (h : Settles s) : Tracks s :=
  ⟨hp, hl, (inStep_iff s).mpr ⟨fun k => absurd (hd.symm.trans k) (by decide), fun _ => h⟩⟩

theorem tracks_of_assumesNothing {s : State} (hp : s.params.distinct) (hl : s.loopback = false)
    (hd : s.desync = true) (h : AssumesNothing s) : Tracks s :=
  ⟨hp, hl, (inStep_iff s).mpr ⟨fun _ => h, fun k => absurd (hd.symm.trans k) (by decide)⟩⟩

/-- An engine that holds nothing has settled. -/
theorem settles_of_nil {s : State} (hq : s.cmdQueue = []) (h : BlockCovers s s) : Settles s := by
  rw [Settles, engineDrain_nil hq]
  exact ⟨hq, h⟩

/-- A block that assumes nothing covers every chain. -/
theorem AssumesNothing.blockCovers {b : State} (h : AssumesNothing b) (e : State) : BlockCovers b e :=
  ⟨h.1 ▸ chainIn_allStates e.taps, .inl h.2⟩

/-- The invariant looks at the moves of the engine and the chain and at the block's shadows only. -/
theorem tracks_congr {s t : State} (h : Tracks s) (hm : SameMoves s t) (hd : t.desync = s.desync)
    (hS : t.tapShadow = s.tapShadow) (hl : t.tmsShadow = s.tmsShadow) : Tracks t := by
  have hp : t.params.distinct := hm.params ▸ tracks_distinct h
  cases hds : s.desync with
  | true =>
    obtain ⟨hall, hx⟩ := assumesNothing_of_tracks h hds
    exact tracks_of_assumesNothing hp hm.loopback.2 (hd.trans hds) ⟨hS.trans hall, hl.trans hx⟩
  | false =>
    obtain ⟨hq, hc⟩ := settles_of_tracks h hds
    have hdrain := hm.engineDrain
    refine tracks_of_settles hp hm.loopback.2 (hd.trans hds) ⟨hdrain.cmdQueue ▸ hq, ?_, ?_⟩
    · rw [hS, ← hdrain.taps]
      exact hc.taps
    · rw [hl, ← hdrain.tmsPin]
      exact hc.level

/-- The fields that neither the engine nor the shadows are in may change. -/
theorem tracks_of_same_fields {s t : State} (h : Tracks s) (hb : t.loopback = s.loopback := by rfl)
    (hp : t.params = s.params := by rfl) (hpin : t.tmsPin = s.tmsPin := by rfl)
    (hq : t.cmdQueue = s.cmdQueue := by rfl) (ht : t.taps = s.taps := by rfl) (hd : t.desync = s.desync := by rfl)
    (hS : t.tapShadow = s.tapShadow := by rfl) (hl : t.tmsShadow = s.tmsShadow := by rfl) : Tracks t :=
  tracks_congr h ⟨hp.symm, ⟨tracks_loopback h, hb.trans (tracks_loopback h)⟩, hpin.symm, hq.symm, ht.symm⟩ hd hS hl

theorem engineDrain_tracks {s : State} (h : Tracks s) (hd : s.desync = false) : Tracks (engineDrain s) := by
  obtain ⟨hq, hc⟩ := settles_of_tracks h hd
  exact tracks_of_settles (by simpa using tracks_distinct h) (by simpa using tracks_loopback h) (by simpa using hd)
    (settles_of_nil hq ⟨by simpa using hc.taps, by simpa using hc.level⟩)

/-- Emitted commands: the engine runs them after what it held, and the shadow has been clocked with them. -/
theorem emitted_tracks {s : State} (h : Tracks s) (hd : s.desync = false) {is : List Instr} (hi : Commands is) :
    Tracks (emitted is s) := by
  obtain ⟨hq, hc⟩ := settles_of_tracks h hd
  obtain ⟨hp, hl, -⟩ := h
  have hm : SameMoves (emitted is s) { s with cmdQueue := s.cmdQueue ++ is.flatMap (encode s.params) } :=
    ⟨rfl, ⟨hl, hl⟩, rfl, rfl, rfl⟩
  have hrun : engineDrain { s with cmdQueue := s.cmdQueue ++ is.flatMap (encode s.params) } =
      runCommands is { engineDrain s with cmdQueue := [] } := by
    rw [engineDrain_append s _ hq]
    exact engineDrain_commands is { engineDrain s with cmdQueue := is.flatMap (encode s.params) }
      (by simpa using hp) hi (by simp)
  have hc0 : BlockCovers s { engineDrain s with cmdQueue := [] } := ⟨hc.taps, hc.level⟩
  have hk := hc0.commands (by simpa using hl) is
  have hdrain := hm.engineDrain
  rw [hrun] at hdrain
  refine tracks_of_settles hp hl hd ⟨hdrain.cmdQueue.trans (by rw [runCommands_frame]), ?_, ?_⟩
  · rw [hdrain.taps]
    exact hk.taps
  · rw [hdrain.tmsPin]
    exact hk.level

theorem raiseError_tracks (e : ErrorKind) {s : State} (h : Tracks s) : Tracks (raiseError e s) := by
  obtain ⟨hp, hl, -⟩ := h
  exact tracks_of_assumesNothing hp hl rfl ⟨rfl, rfl⟩

theorem spoilTarget_tracks (c : ChainParameters) {s : State} (h : Tracks s) : Tracks (spoilTarget c s) := by
  have hp : (spoilTarget c s).params.distinct := by simpa using tracks_distinct h
  have hl : (spoilTarget c s).loopback = false := by simpa using tracks_loopback h
  cases hd : s.desync with
  | true =>
    refine tracks_of_assumesNothing hp hl ((spoilTarget_desync c s).trans hd) ?_
    simpa [AssumesNothing] using assumesNothing_of_tracks h hd
  | false =>
    obtain ⟨hq, hc⟩ := settles_of_tracks h hd
    refine tracks_of_settles hp hl ((spoilTarget_desync c s).trans hd) (settles_of_nil hq ⟨fun u hu => ?_, ?_⟩)
    · rw [spoilTarget_tapShadow]
      obtain ⟨t, ht, rfl | ⟨_, _, rfl⟩⟩ := mem_spoilTarget hu
      · exact hc.taps u ht
      · rw [Tap.spoil_state]
        exact hc.taps t ht
    · rw [spoilTarget_tmsShadow]
      exact hc.level

/-! ## Every step keeps the invariant -/

/-- The phases of an operation keep a machine in step and its chain tracked. -/
theorem tracks_stepwise : Stepwise fun s t => s.desync = false ∧ Tracks s → t.desync = false ∧ Tracks t where
  refl _ := id
  trans _ _ _ hst htu := htu ∘ hst
  emitted _ _ hi h := ⟨h.1, emitted_tracks h.2 h.1 hi⟩
  logged _ _ _ h := ⟨h.1, tracks_of_same_fields h.2⟩
  received s _ _ _ h := ⟨(engineDrain_desync s).trans h.1,
    tracks_of_same_fields (engineDrain_tracks h.2 h.1)⟩
  result _ _ h := ⟨h.1, tracks_of_same_fields h.2⟩

theorem exec_tracks {i : Instr} {s t : State} (hi : i.space = .port) (h : exec i s = .next t) (hs : Tracks s) :
    Tracks t := by
  cases exec_returns tracks_stepwise h with
  | command hc => exact absurd (hi.symm.trans hc) (by decide)
  | contract => exact tracks_of_same_fields hs
  | done u _ _ hu hd =>
    rcases hd with hd | rfl
    · exact tracks_of_same_fields (hu ⟨hd, hs⟩).2
    · exact tracks_of_same_fields hs
  | error u e _ _ hu _ hd => exact raiseError_tracks e (hu ⟨hd, hs⟩).2

theorem tracks_keptByAgents : KeptByAgents Tracks where
  command s i rest hd hc h := by
    obtain ⟨hq, hcov⟩ := settles_of_tracks h hd
    obtain ⟨hp, hl, -⟩ := h
    rw [engineDrain_command hc] at hq hcov
    exact tracks_of_settles (by simpa using hp) (by simpa using hl) (by rw [runCommand_frame]; exact hd)
      ⟨hq, by simpa using hcov.taps, by simpa using hcov.level⟩
  accept op count data _ _ hu h := exec_tracks (decodeRequest_space op count data) hu
    (tracks_of_same_fields h)
  host _ _ _ h := tracks_of_same_fields h
  client _ _ _ h := tracks_of_same_fields h
  clientFault _ _ _ h := tracks_of_same_fields h
  spoil c _ h := spoilTarget_tracks c h
  draw _ h := tracks_of_same_fields h

/-- A settled engine that waits holds nothing. -/
theorem engineDrain_of_waits {s : State} (hw : engineTurn s = .waits) (hd : s.desync = false) : engineDrain s = s := by
  cases hc : decodeCommand s.params s.cmdQueue with
  | error e => exact engineDrain_stop hc
  | ok r => rw [engineTurn_of_decode (i := r.1) (rest := r.2) hd hc] at hw; cases hw

/-- A purge takes no command from the engine that the block has counted: it comes while the engine waits. -/
theorem purge_tracks {s : State} (hw : engineTurn s = .waits) (h : Tracks s) : Tracks (purge s) := by
  have hc : BlockCovers (purge s) (purge s) := by
    cases hd : s.desync with
    | true =>
      obtain ⟨hall, hx⟩ := assumesNothing_of_tracks h hd
      exact AssumesNothing.blockCovers (b := purge s) ⟨hall, hx⟩ _
    | false =>
      obtain ⟨-, hc⟩ := settles_of_tracks h hd
      rw [engineDrain_of_waits hw hd] at hc
      exact ⟨hc.taps, hc.level⟩
  obtain ⟨hp, hl, -⟩ := h
  exact tracks_of_settles hp hl rfl (settles_of_nil rfl hc)

theorem powerUp_tracks {s : State} (h : Tracks s) : Tracks (hostAct .powerUp s) := by
  obtain ⟨hp, -, -⟩ := h
  exact tracks_of_settles hp rfl rfl (settles_of_nil rfl (AssumesNothing.blockCovers ⟨rfl, rfl⟩ _))

/-- Settles O36: the agents keep the invariant, and so do the host's actions where the engine waits, a switch to
loopback excepted. -/
theorem shadowTracksTheChain : Obligations.ShadowTracksTheChain := by
  intro s t hs hn h
  refine tracks_keptByAgents.step h (fun a hw ha hs => ?_) hs
  cases a with
  | purge => exact purge_tracks hw hs
  | powerUp => exact powerUp_tracks hs
  | setLoopback on =>
    cases on with
    | true => exact absurd ha hn
    | false => exact tracks_of_same_fields hs (tracks_loopback hs).symm

/-! ## Reset (10_state.md R20) -/

/-- Settles O37: the engine holds nothing and the block assumes nothing. -/
theorem resetTracks : Obligations.ResetTracks :=
  tracks_of_settles (by decide) rfl rfl (settles_of_nil rfl (AssumesNothing.blockCovers ⟨rfl, rfl⟩ _))

/-- Settles O46: the fields of the reset state, and `ALL` holds every TAP state. -/
theorem resetValues : Obligations.ResetValues :=
  ⟨holds_allStates, rfl, rfl, rfl, rfl, rfl, rfl, rfl, rfl⟩

end Sys2Proof.Machine
end

section
/-! Proofs about the block's data spaces (20_memory.md R50, R59): an operation that captures nothing only emits
commands, so it returns with what its writes leave. -/

namespace Sys2Proof.Machine

open Sys2Proof Sys2Proof.Safety

/-! ## Phases that only emit (60_exceptions.md R269) -/

theorem emitAll_append (a b : List Instr) (s : State) :
    emitAll (a ++ b) s = (emitAll a s).andThen (emitAll b) := by
  induction a generalizing s with
  | nil => rfl
  | cons i a ih =>
    have htail : emitAll (a ++ b) = fun t => (emitAll a t).andThen (emitAll b) := funext ih
    rw [List.cons_append, emitAll, emitAll, Flow.andThen_assoc, htail]

/-- A phase makes no read: from each state all it does is emit some commands. -/
def EmitsOnly (phase : State → Flow) : Prop := ∀ s, ∃ is, phase s = emitAll is s

/-- The second phase's commands are chosen in the state that the first phase leaves, if it runs through. -/
theorem EmitsOnly.andThen {f g : State → Flow} (hf : EmitsOnly f) (hg : EmitsOnly g) :
    EmitsOnly fun s => (f s).andThen g := by
  intro s
  obtain ⟨a, ha⟩ := hf s
  simp only [ha]
  cases h : emitAll a s with
  | run t =>
    obtain ⟨b, hb⟩ := hg t
    exact ⟨a ++ b, by rw [emitAll_append, h, Flow.andThen_run, Flow.andThen_run, hb]⟩
  | ended t => exact ⟨a, h.symm⟩
  | refused r => exact ⟨a, h.symm⟩

theorem shiftTmsPhase_emitsOnly (data : List Byte) (n : Nat) : EmitsOnly (shiftTmsPhase data n) :=
  fun _ => ⟨tmsPlan data n, rfl⟩

theorem shiftTdiPhase_emitsOnly (data : List Byte) (n : Nat) : EmitsOnly (shiftTdiPhase data n) :=
  fun _ => ⟨tdiPlan false data n, rfl⟩

theorem entryPhase_emitsOnly (v : Byte) (k : Nat) : EmitsOnly (entryPhase v k) := by
  intro s
  unfold entryPhase
  split
  · exact shiftTmsPhase_emitsOnly _ _ s
  · exact shiftTmsPhase_emitsOnly _ _ s

theorem shiftScan_emitsOnly (v : Byte) (k : Nat) (data : List Byte) (n : Nat) : EmitsOnly (shiftScan v k data n) :=
  ((entryPhase_emitsOnly v k).andThen (shiftTdiPhase_emitsOnly data n)).andThen (shiftTmsPhase_emitsOnly _ _)

theorem idlePhase_emitsOnly (c : Nat) : EmitsOnly (idlePhase c) := fun s => shiftTmsPhase_emitsOnly _ _ s

/-! ## How an operation that captures nothing returns -/

/-- SHIFT_TMS, SHIFT_TDI, TAP_RESET, IDLE, SHIFT_IR and SHIFT_DR. -/
def CapturesNothing (i : Instr) : Prop :=
  ∃ c d, i = .shiftTms c d ∨ i = .shiftTdi c d ∨ i = .tapReset ∨ i = .idle c ∨ i = .shiftIr c d ∨ i = .shiftDr c d

/-- The ways back without a read: a contract fault, STATUS OK after the writes, or the error of a failed write. -/
inductive ReturnsWithoutRead (s : State) : State → Prop where
  | contract (k : ContractFault) : ReturnsWithoutRead s (raiseFault k s)
  | done (is : List Instr) :
      ReturnsWithoutRead s { emitted is s with result := [], status := statusOk, subcause := 0 }
  | writeFailed (before : List Instr) (i : Instr) (later : List Nat) (hd : s.desync = false) :
      ReturnsWithoutRead s (Machine.writeFailed before i later s)

/-- A checked operation whose body only emits. -/
theorem EmitsOnly.checked_returns {body : State → Flow} (hb : EmitsOnly body) {n : Nat} {data : List Byte}
    {nc ns : Bool} {s t : State} (h : checked n data nc ns (fun s => (body s).returnedEmpty) s = .next t) :
    ReturnsWithoutRead s t := by
  obtain ⟨-, ⟨k, -, rfl⟩ | ⟨hc, hr⟩⟩ := checked_cases h
  · exact .contract k
  · obtain ⟨is, his⟩ := hb s
    obtain ⟨-, he⟩ | ⟨k, later, hk, -, he⟩ := emitAll_cases is s
    · rw [his, he, Flow.returnedEmpty_run] at hr
      injection hr with hr
      exact hr ▸ .done is
    · rw [his, he, Flow.returnedEmpty_ended] at hr
      injection hr with hr
      exact hr ▸ .writeFailed _ _ later (contractCheck_none.mp hc).1

theorem execIdle_returns {c : Count} {s t : State} (h : execIdle c s = .next t) : ReturnsWithoutRead s t := by
  unfold execIdle at h
  split at h
  · cases h
  · split at h
    · rw [Flow.returnedEmpty_run] at h
      injection h with h
      rw [← emitted_nil s] at h
      exact h ▸ .done []
    · exact (idlePhase_emitsOnly _).checked_returns h

theorem CapturesNothing.returns {i : Instr} (hi : CapturesNothing i) {s t : State} (h : exec i s = .next t) :
    ReturnsWithoutRead s t := by
  obtain ⟨c, d, rfl | rfl | rfl | rfl | rfl | rfl⟩ := hi
  · exact (shiftTmsPhase_emitsOnly d c.toNat).checked_returns h
  · exact (shiftTdiPhase_emitsOnly d c.toNat).checked_returns h
  · exact (shiftTmsPhase_emitsOnly resetSeq 40).checked_returns h
  · exact execIdle_returns h
  · exact (shiftScan_emitsOnly entryIr 4 d c.toNat).checked_returns h
  · exact (shiftScan_emitsOnly entryDr 3 d c.toNat).checked_returns h

/-- Settles O25: on each way back without a read. A failed write sets `desync` and leaves STATUS 0x01, so its
free reply queue and chain are outside the last two claims. -/
theorem nonCapturingOperationsNeverRead : Obligations.NonCapturingOperationsNeverRead := by
  intro i s t hi h
  cases CapturesNothing.returns hi h with
  | contract k => exact ⟨rfl, rfl, rfl, fun _ => rfl, fun _ => ⟨rfl, rfl, rfl⟩⟩
  | done is => exact ⟨rfl, rfl, rfl, fun _ => rfl, fun _ => ⟨rfl, rfl, rfl⟩⟩
  | writeFailed before i later hd =>
    have hdesync : (writeFailed before i later s).desync ≠ s.desync := by simp [writeFailed, hd]
    have hstatus : (writeFailed before i later s).status ≠ 0x00 := by simp [writeFailed, ErrorKind.code]
    exact ⟨rfl, rfl, rfl, fun hd => absurd hd hdesync, fun hs => absurd hs hstatus⟩

end Sys2Proof.Machine
end

section
/-! Proofs about the encodings (30_encoding.md R70 to R85): the decoder undoes the encoder, on the command port and
on TX, reserved OPs are refused, and the reply sizes of the engine's commands. -/

namespace Sys2Proof.Machine

open Sys2Proof Sys2Proof.Safety

/-! ## Descriptors (30_encoding.md R71 to R73) -/

theorem decodeDescriptor_encode (op : Byte) (count : Count) (data : List Byte) :
    decodeDescriptor (encodeDescriptor op count data) = .ok (decodeRequest op count data) := by
  simp only [decodeDescriptor, descriptorFields_encode]

/-- The decoder of descriptors refuses every reserved OP. -/
theorem decodeOperation_reserved {op : Byte} (h : isReservedOp op = true) (count : Count) (data : List Byte) :
    decodeOperation op count data = none := by
  have hne : ∀ o, isReservedOp o = false → op ≠ o := by
    rintro o ho rfl
    exact Bool.false_ne_true (ho.symm.trans h)
  simp only [decodeOperation, hne 0x01 rfl, hne 0x02 rfl, hne 0x03 rfl, hne 0x10 rfl, hne 0x11 rfl, hne 0x12 rfl,
    hne 0x13 rfl, hne 0x14 rfl, hne 0x15 rfl, if_false]

theorem decodeRequest_reserved {op : Byte} (h : isReservedOp op = true) (count : Count) (data : List Byte) :
    decodeRequest op count data = .reservedOp op count data := by
  rw [decodeRequest, decodeOperation_reserved h, Option.getD_none]

/-- The bytes of an operation or of a refused descriptor decode to it. -/
theorem decodeDescriptor_encode_instr (p : Params) {i : Instr} (hw : i.wf = true) (hs : i.space = .port) :
    decodeDescriptor (encode p i) = .ok i := by
  cases i
  case tmsOut | tmsInout | bytesOut | bytesInout | bitsOut | bitsInout => cases hs
  case reservedOp op count data =>
    rw [encode, decodeDescriptor_encode, decodeRequest_reserved hw]
  all_goals exact decodeDescriptor_encode _ _ _

/-- Settles O1: a descriptor's bytes give back its fields, a command's bytes its layout, and no other opcode comes
first. -/
theorem decodeEncodeAgree : Obligations.DecodeEncodeAgree := by
  intro p i hp hw
  cases hs : i.space with
  | port => simp only [decode, decodeDescriptor_encode_instr p hw hs]
  | tx => simpa only [decode, List.append_nil] using decodeCommand_encode p i [] hp hw hs

/-! ## TX streams (30_encoding.md R84, R85) -/

/-- A stream whose first command decodes is that command and what the bytes after it parse into. -/
theorem parseStream_command {p : Params} {bs rest : List Byte} {i : Instr} (fuel : Nat)
    (h : decodeCommand p bs = .ok (i, rest)) :
    parseStream p (fuel + 1) bs = (parseStream p fuel rest).map (i :: ·) := by
  cases bs with
  | nil => cases h
  | cons b bs => simp only [parseStream, h]

theorem parseStream_commands {p : Params} (hp : p.distinct) {cmds : List Instr} (hc : Commands cmds) {fuel : Nat}
    (hf : cmds.length ≤ fuel) : parseStream p fuel (cmds.flatMap (encode p)) = some cmds := by
  induction cmds generalizing fuel with
  | nil => simp only [List.flatMap_nil, parseStream]
  | cons i cmds ih =>
    obtain ⟨⟨hw, hs⟩, hc⟩ := List.forall_mem_cons.mp hc
    obtain ⟨fuel, rfl⟩ := Nat.exists_eq_add_one_of_ne_zero (Nat.ne_of_gt (Nat.lt_of_lt_of_le (Nat.succ_pos _) hf))
    rw [List.flatMap_cons, parseStream_command fuel (decodeCommand_encode p i _ hp hw hs),
      ih hc (Nat.le_of_succ_le_succ hf), Option.map_some]

/-- Every instruction takes a byte of its stream. -/
theorem length_le_encoded (p : Params) (cmds : List Instr) : cmds.length ≤ (cmds.flatMap (encode p)).length := by
  induction cmds with
  | nil => exact Nat.zero_le _
  | cons i cmds ih =>
    have hi : 1 ≤ (encode p i).length := by
      cases i <;> exact Nat.succ_pos _
    rw [List.length_cons, List.flatMap_cons, List.length_append]
    omega

/-- Settles O2: command by command, with a byte of fuel for each. -/
theorem txStreamParsesIntoItsCommands : Obligations.TxStreamParsesIntoItsCommands :=
  fun p cmds hp hc => parseStream_commands hp hc (length_le_encoded p cmds)

/-! ## Words and reserved OPs (30_encoding.md R72, R73) -/

/-- Settles O3: the decoder of the table's words, evaluated on the eight words. -/
theorem specWordsDecode : Obligations.SpecWordsDecode := by
  unfold Obligations.SpecWordsDecode
  decide

theorem isReservedOp_of_ranges {op : Byte} (h : op = 0x00 ∨ (0x04 ≤ op ∧ op ≤ 0x0F) ∨ 0x16 ≤ op) :
    isReservedOp op = true := by
  simp only [isReservedOp, Bool.or_eq_true, Bool.and_eq_true, beq_iff_eq, decide_eq_true_eq]
  bv_omega

/-- Settles O4: the decoder refuses the OP, and the refused descriptor's meaning is the contract fault. -/
theorem reservedOpRaisesIllegalOperation : Obligations.ReservedOpRaisesIllegalOperation := by
  intro op count data s h hf
  have hr := isReservedOp_of_ranges h
  have hx : exec (.reservedOp op count data) s = .next (raiseFault .illegalOperation s) := by
    simp only [exec, execReservedOp, hf]
  exact ⟨decodeOperation_reserved hr count data, decodeRequest_reserved hr count data, 0, [], hx⟩

/-! ## Reply sizes (30_encoding.md R82) -/

@[simp] theorem tmsCommand_replyQueue (l : LenField) (d : Byte) (s : State) :
    (tmsCommand l d s).2.replyQueue = s.replyQueue := by rw [tmsCommand, tmsClocks_frame]

@[simp] theorem bitsCommand_replyQueue (l : LenField) (d : Byte) (s : State) :
    (bitsCommand l d s).2.replyQueue = s.replyQueue := by rw [bitsCommand, dataClocks_frame]

@[simp] theorem bytesClocks_replyQueue (ps : List Byte) (s : State) :
    (bytesClocks ps s).2.replyQueue = s.replyQueue := by rw [bytesClocks_frame]

/-- A byte of samples for each payload byte. -/
@[simp] theorem bytesClocks_length (ps : List Byte) (s : State) : (bytesClocks ps s).1.length = ps.length := by
  induction ps generalizing s with
  | nil => rfl
  | cons p ps ih => rw [bytesClocks, List.length_cons, List.length_cons, ih]

/-- Settles O29: the clocks of a command leave the reply queue, and only a capturing command appends to it. -/
theorem replySizes : Obligations.ReplySizes := fun s l d payload =>
  ⟨⟨_, rfl, tmsCommand_replyQueue l d s⟩, ⟨_, rfl, bytesClocks_replyQueue payload s⟩,
    ⟨_, rfl, bitsCommand_replyQueue l d s⟩,
    ⟨_, _, rfl, congrArg (· ++ _) (tmsCommand_replyQueue l d s)⟩,
    ⟨_, _, rfl, congrArg (· ++ _) (bitsCommand_replyQueue l d s)⟩,
    ⟨_, _, rfl, bytesClocks_length payload s, congrArg (· ++ _) (bytesClocks_replyQueue payload s)⟩⟩

end Sys2Proof.Machine
end

section
/-! Proofs about the TAP-level operations as expansions into raw operations (30_encoding.md R87): no phase reads the
reply that the operation before it left, so the phases of a scan are the raw operations run one after another. -/

namespace Sys2Proof.Machine

open Sys2Proof Sys2Proof.Safety

/-! ## No phase reads the reply registers (10_state.md R21) -/

/-- A state with another reply on the port. -/
def withReply (status subcause : Byte) (result : List Byte) (s : State) : State :=
  { s with status := status, subcause := subcause, result := result }

theorem emitted_withReply (is : List Instr) (a b : Byte) (r : List Byte) (s : State) :
    emitted is (withReply a b r s) = withReply a b r (emitted is s) := by
  obtain ⟨htap, htms⟩ := shadowCommands_congr is (withReply a b r s) s rfl rfl
  rw [emitted, htap, htms]
  rfl

/-- Emitting commands leaves the reply that stands on the port; a failed write replaces it. -/
theorem emitAll_withReply (is : List Instr) (a b : Byte) (r : List Byte) (s : State) :
    emitAll is (withReply a b r s) = (emitAll is s).andThen fun t => .run (withReply a b r t) := by
  obtain ⟨hw, h⟩ | ⟨k, later, hk, hf, h⟩ := emitAll_cases is s
  · rw [h, emitAll_ok (s := withReply a b r s) hw, emitted_withReply, Flow.andThen_run]
  · have hfail : writeFailed (is.take k) is[k] later (withReply a b r s) = writeFailed (is.take k) is[k] later s := by
      rw [writeFailed, emitted_withReply]
      rfl
    rw [h, emitAll_fails (s := withReply a b r s) hf hk, hfail, Flow.andThen_ended]

theorem engineDrain_withReply (a b : Byte) (r : List Byte) (s : State) :
    engineDrain (withReply a b r s) = withReply a b r (engineDrain s) := by
  have hsame : SameEngine (withReply a b r s) s := ⟨rfl, rfl, rfl, rfl, rfl, rfl⟩
  obtain ⟨h, hq⟩ := engineDrain_congr hsame rfl
  rw [engineDrain_frame (withReply a b r s), engineDrain_frame s, h.tmsPin, hq, h.replyQueue, h.taps, h.freeCount]
  rfl

theorem transportRead_withReply (a b : Byte) (r : List Byte) (s : State) :
    transportRead (withReply a b r s) = ((transportRead s).1, withReply a b r (transportRead s).2) := by
  simp only [transportRead, withReply]
  cases s.readDraws with
  | nil => rfl
  | cons d later => cases d <;> rfl

/-- A read replaces RESULT and leaves the rest of the reply; a read error replaces all of it. -/
theorem receive_withReply (expected : Nat) (rebuilt : List Byte → List Byte) (a b : Byte) (r : List Byte)
    (s : State) : receive expected rebuilt (withReply a b r s) =
      (receive expected rebuilt s).andThen fun t => .run (withReply a b t.result t) := by
  have hstall : engineStalled (engineDrain (withReply a b r s)) = engineStalled (engineDrain s) := by
    rw [engineDrain_withReply]
    rfl
  cases hs : engineStalled (engineDrain s) with
  | some refusal => simp only [receive, hstall, hs, Flow.andThen_refused]
  | none =>
    rw [receive_read hs, receive_read (hstall.trans hs), engineDrain_withReply, transportRead_withReply]
    dsimp only
    cases readError expected (transportRead (engineDrain s)).1.1 (transportRead (engineDrain s)).1.2 <;> rfl

theorem transferTdiPhase_withReply (data : List Byte) (n : Nat) (a b : Byte) (r : List Byte) (s : State) :
    transferTdiPhase data n (withReply a b r s) =
      (transferTdiPhase data n s).andThen fun t => .run (withReply a b t.result t) := by
  simp only [transferTdiPhase, emitAll_withReply, Flow.andThen_assoc, Flow.andThen_run, receive_withReply]
  rfl

theorem Flow.andThen_eq_run {f : Flow} {g : State → Flow} {u : State} :
    f.andThen g = .run u ↔ ∃ t, f = .run t ∧ g t = .run u := by
  cases f <;> simp [Flow.andThen]

/-- Commands emitted after a reply was given would run through before it too. -/
theorem emitAll_run_of_withReply {is : List Instr} {a b : Byte} {r : List Byte} {s t : State}
    (h : emitAll is (withReply a b r s) = .run t) : ∃ u, emitAll is s = .run u ∧ t = withReply a b r u := by
  rw [emitAll_withReply] at h
  obtain ⟨u, hu, ht⟩ := Flow.andThen_eq_run.mp h
  exact ⟨u, hu, (Flow.run.inj ht).symm⟩

/-! ## Operations that succeed -/

theorem ContractFault.code_ne_ok (k : ContractFault) : k.code ≠ statusOk := by cases k <;> decide

theorem ErrorKind.code_ne_ok (e : ErrorKind) : e.code ≠ statusOk := by cases e <;> decide

/-- A checked operation that replies OK passed its check. -/
theorem checked_succeeds {n : Nat} {data : List Byte} {nc ns : Bool}
    {body : State → Host.Outcome State Fault Refusal} {s t : State} (h : checked n data nc ns body s = .next t)
    (ok : t.status = statusOk) :
    s.fault = none ∧ contractCheck n data nc ns s = none ∧ body s = .next t := by
  obtain ⟨hf, ⟨k, -, rfl⟩ | ⟨hc, hb⟩⟩ := checked_cases h
  · exact absurd ok k.code_ne_ok
  · exact ⟨hf, hc, hb⟩

/-- Phases that return with OK ran to their end. -/
theorem Flow.returned_succeeds {R : State → State → Prop} {s t : State} {f : Flow} (hf : f.Follows R s)
    (h : f.returned = .next t) (ok : t.status = statusOk) :
    ∃ u, f = .run u ∧ t = withReply statusOk 0 u.result u := by
  obtain ⟨u, rfl, rfl⟩ | rfl := Flow.returned_cases h
  · exact ⟨u, rfl, rfl⟩
  · obtain ⟨u, e, -, -, rfl⟩ := hf
    exact absurd ok e.code_ne_ok

theorem Flow.returnedEmpty_succeeds {R : State → State → Prop} {s t : State} {f : Flow} (hf : f.Follows R s)
    (h : f.returnedEmpty = .next t) (ok : t.status = statusOk) :
    ∃ u, f = .run u ∧ t = withReply statusOk 0 [] u := by
  obtain ⟨u, rfl, rfl⟩ | rfl := Flow.returnedEmpty_cases h
  · exact ⟨u, rfl, rfl⟩
  · obtain ⟨u, e, -, -, rfl⟩ := hf
    exact absurd ok e.code_ne_ok

/-- Commands that all reach the transport leave what `emitted` says. -/
theorem emitted_of_emitAll_run {is : List Instr} {s u : State} (h : emitAll is s = .run u) : u = emitted is s := by
  obtain ⟨-, he⟩ | ⟨k, later, hk, -, he⟩ := emitAll_cases is s
  · exact Flow.run.inj (h.symm.trans he)
  · cases h.symm.trans he

section
variable {count : Count} {data : List Byte} {s t : State}

theorem execShiftTms_succeeds (h : execShiftTms count data s = .next t) (ok : t.status = statusOk) :
    Accepting s ∧ ∃ u, shiftTmsPhase data count.toNat s = .run u ∧ t = withReply statusOk 0 [] u := by
  obtain ⟨hf, hc, hb⟩ := checked_succeeds h ok
  obtain ⟨hd, -, -⟩ := contractCheck_none.mp hc
  exact ⟨⟨hf, hd⟩,
    Flow.returnedEmpty_succeeds (shiftTmsPhase_follows phaseFrame_stepwise _ _ s) hb ok⟩

theorem execShiftTdi_succeeds (h : execShiftTdi count data s = .next t) (ok : t.status = statusOk) :
    ∃ u, shiftTdiPhase data count.toNat s = .run u ∧ t = withReply statusOk 0 [] u := by
  obtain ⟨-, hc, hb⟩ := checked_succeeds h ok
  obtain ⟨-, hd, -⟩ := contractCheck_none.mp hc
  exact Flow.returnedEmpty_succeeds (shiftTdiPhase_follows phaseFrame_stepwise (hd rfl) s) hb ok

theorem execTransferTdi_succeeds (h : execTransferTdi count data s = .next t) (ok : t.status = statusOk) :
    ∃ u, transferTdiPhase data count.toNat s = .run u ∧ t = withReply statusOk 0 u.result u := by
  obtain ⟨-, hc, hb⟩ := checked_succeeds h ok
  obtain ⟨-, hd, -⟩ := contractCheck_none.mp hc
  exact Flow.returned_succeeds (transferTdiPhase_follows phaseFrame_stepwise (hd rfl) s) hb ok

/-! ## Accepted operations run their bodies -/

theorem execShiftTms_accepted (ha : Accepting s) (hp : PayloadOk count data) :
    exec (.shiftTms count data) s = (shiftTmsPhase data count.toNat s).returnedEmpty :=
  show execShiftTms count data s = _ from checked_run ha.1 (contractCheck_payload ha hp)

theorem execTapReset_accepted (ha : Accepting s) :
    exec .tapReset s = (shiftTmsPhase resetSeq 40 s).returnedEmpty :=
  show execTapReset s = _ from checked_run ha.1 (contractCheck_none.mpr ⟨ha.2, nofun, nofun⟩)

theorem execIdle_accepted (ha : Accepting s) (hk : ShadowKnown s) (hc : count ≠ 0) :
    exec (.idle count) s = (idlePhase count.toNat s).returnedEmpty := by
  simp only [exec, execIdle, ha.1, if_neg hc]
  exact checked_run ha.1 (contractCheck_none.mpr ⟨ha.2, nofun, fun _ => hk⟩)

/-! ## The fold (42_tap_controller.md R161, R163) -/

theorem foldPending_rti (h : s.tapShadow = single .rti) : foldPending s = false := by
  rw [foldPending, h]
  rfl

theorem foldPending_tlr (h : s.tapShadow = single .tlr) : foldPending s = true := by
  rw [foldPending, h]
  rfl

theorem entryPhase_rti (v : Byte) (k : Nat) (h : s.tapShadow = single .rti) :
    entryPhase v k s = shiftTmsPhase [v] k s := by
  rw [entryPhase, foldPending_rti h, if_neg Bool.false_ne_true]

theorem entryPhase_tlr (v : Byte) (k : Nat) (h : s.tapShadow = single .tlr) :
    entryPhase v k s = shiftTmsPhase [v <<< 1] (k + 1) s := by
  rw [entryPhase, foldPending_tlr h, if_pos rfl]

theorem idlePhase_rti (c : Nat) (h : s.tapShadow = single .rti) :
    idlePhase c s = shiftTmsPhase (List.replicate ((c + 7) / 8) 0) c s := by
  simp only [idlePhase, foldPending_rti h, Bool.false_eq_true, if_false, Nat.add_zero, ceilDiv8]

theorem idlePhase_tlr (c : Nat) (h : s.tapShadow = single .tlr) :
    idlePhase c s = shiftTmsPhase (List.replicate ((c + 8) / 8) 0) (c + 1) s := by
  simp only [idlePhase, foldPending_tlr h, if_true, ceilDiv8]

theorem count_toNat {k : Nat} (h : k < 2 ^ 32) : (BitVec.ofNat 32 k : Count).toNat = k := by
  rw [BitVec.toNat_ofNat, Nat.mod_eq_of_lt h]

/-- Zero bits for as many clocks, as a payload. -/
theorem payloadOk_zeros {k : Nat} (h0 : 0 < k) (hk : k < 2 ^ 32) :
    PayloadOk (BitVec.ofNat 32 k) (List.replicate ((k + 7) / 8) 0) := by
  have hn := count_toNat hk
  refine ⟨fun h => ?_, by rw [hn, List.length_replicate]⟩
  rw [h] at hn
  exact Nat.ne_of_lt h0 hn

/-- SHIFT_TMS of zero bits, the expansion of IDLE. -/
theorem execShiftTms_zeros {k : Nat} (ha : Accepting s) (h0 : 0 < k) (hk : k < 2 ^ 32) :
    exec (.shiftTms (BitVec.ofNat 32 k) (List.replicate ((k + 7) / 8) 0)) s =
      (shiftTmsPhase (List.replicate ((k + 7) / 8) 0) k s).returnedEmpty := by
  rw [execShiftTms_accepted ha (payloadOk_zeros h0 hk), count_toNat hk]

/-! ## Scans (42_tap_controller.md R164 to R167) -/

variable {v v' : Byte} {k : Nat} {k' : Count} {s1 s2 s3 : State}

/-- The data phase of a scan from the SHIFT_TDI that stands for it after another operation's reply. -/
theorem shiftTdiPhase_of_raw {a b : Byte} {r : List Byte}
    (h : exec (.shiftTdi count data) (withReply a b r s) = .next t) (ok : t.status = statusOk) :
    ∃ u, shiftTdiPhase data count.toNat s = .run u ∧ t = withReply statusOk 0 [] u := by
  obtain ⟨w, hw, rfl⟩ := execShiftTdi_succeeds h ok
  obtain ⟨u, hu, rfl⟩ := emitAll_run_of_withReply hw
  exact ⟨u, hu, rfl⟩

/-- The capturing data phase from a TRANSFER_TDI likewise. -/
theorem transferTdiPhase_of_raw {a b : Byte} {r : List Byte}
    (h : exec (.transferTdi count data) (withReply a b r s) = .next t) (ok : t.status = statusOk) :
    ∃ u, transferTdiPhase data count.toNat s = .run u ∧ t = withReply statusOk 0 u.result u := by
  obtain ⟨w, hw, rfl⟩ := execTransferTdi_succeeds h ok
  rw [transferTdiPhase_withReply] at hw
  obtain ⟨u, hu, hw⟩ := Flow.andThen_eq_run.mp hw
  obtain rfl := Flow.run.inj hw
  exact ⟨u, hu, rfl⟩

/-- The exit walk from a SHIFT_TMS likewise; it leaves RESULT. -/
theorem exitPhase_of_raw {a b : Byte} {r : List Byte}
    (h : exec (.shiftTms 2 [exitSeq]) (withReply a b r s) = .next t) (ok : t.status = statusOk) :
    ∃ u, exitPhase s = .run u ∧ u.result = s.result ∧ t = withReply statusOk 0 [] u := by
  obtain ⟨-, w, hw, rfl⟩ := execShiftTms_succeeds h ok
  obtain ⟨u, hu, rfl⟩ := emitAll_run_of_withReply hw
  refine ⟨u, hu, ?_, rfl⟩
  rw [emitted_of_emitAll_run hu]
  rfl

/-- A non-capturing scan whose entry is the walk of a SHIFT_TMS, when SHIFT_TMS, SHIFT_TDI and the exit's SHIFT_TMS
succeed one after another. -/
theorem shiftScan_of_raw (he : entryPhase v k s = shiftTmsPhase [v'] k'.toNat s) (hk : ShadowKnown s)
    (hp : PayloadOk count data)
    (h1 : exec (.shiftTms k' [v']) s = .next s1) (ok1 : s1.status = statusOk)
    (h2 : exec (.shiftTdi count data) s1 = .next s2) (ok2 : s2.status = statusOk)
    (h3 : exec (.shiftTms 2 [exitSeq]) s2 = .next s3) (ok3 : s3.status = statusOk) :
    checked count.toNat data true true (fun s => (shiftScan v k data count.toNat s).returnedEmpty) s = .next s3 := by
  obtain ⟨ha, u1, hentry, rfl⟩ := execShiftTms_succeeds h1 ok1
  obtain ⟨u2, hdata, rfl⟩ := shiftTdiPhase_of_raw h2 ok2
  obtain ⟨u3, hexit, -, rfl⟩ := exitPhase_of_raw h3 ok3
  have hscan : shiftScan v k data count.toNat s = .run u3 := by
    rw [shiftScan, he, hentry, Flow.andThen_run, hdata, Flow.andThen_run, hexit]
  rw [checked_run ha.1 (contractCheck_scan ha hp hk), hscan]
  rfl

/-- A capturing scan likewise; the exit's SHIFT_TMS empties RESULT, the scan keeps the transfer's. -/
theorem transferScan_of_raw (he : entryPhase v k s = shiftTmsPhase [v'] k'.toNat s) (hk : ShadowKnown s)
    (hp : PayloadOk count data)
    (h1 : exec (.shiftTms k' [v']) s = .next s1) (ok1 : s1.status = statusOk)
    (h2 : exec (.transferTdi count data) s1 = .next s2) (ok2 : s2.status = statusOk)
    (h3 : exec (.shiftTms 2 [exitSeq]) s2 = .next s3) (ok3 : s3.status = statusOk) :
    checked count.toNat data true true (fun s => (transferScan v k data count.toNat s).returned) s =
      .next { s3 with result := s2.result } := by
  obtain ⟨ha, u1, hentry, rfl⟩ := execShiftTms_succeeds h1 ok1
  obtain ⟨u2, hdata, rfl⟩ := transferTdiPhase_of_raw h2 ok2
  obtain ⟨u3, hexit, hkept, rfl⟩ := exitPhase_of_raw h3 ok3
  have hscan : transferScan v k data count.toNat s = .run u3 := by
    rw [transferScan, he, hentry, Flow.andThen_run, hdata, Flow.andThen_run, hexit]
  rw [checked_run ha.1 (contractCheck_scan ha hp hk), hscan, Flow.returned_run, ← hkept]
  rfl

/-- The entry walks of the TAP-level scans as SHIFT_TMS operations: those of IR and of DR, folded from `{TLR}`. -/
theorem entryPhase_raw {w : Byte} {l : Count}
    (h : (s.tapShadow = single .rti ∧ v = 0x03 ∧ k' = 4 ∧ w = 0x01 ∧ l = 3) ∨
      (s.tapShadow = single .tlr ∧ v = 0x06 ∧ k' = 5 ∧ w = 0x02 ∧ l = 4)) :
    ShadowKnown s ∧ entryPhase entryIr 4 s = shiftTmsPhase [v] k'.toNat s ∧
      entryPhase entryDr 3 s = shiftTmsPhase [w] l.toNat s := by
  obtain ⟨hs, rfl, rfl, rfl, rfl⟩ | ⟨hs, rfl, rfl, rfl, rfl⟩ := h
  · exact ⟨.inl hs, entryPhase_rti _ _ hs, entryPhase_rti _ _ hs⟩
  · exact ⟨.inr hs, entryPhase_tlr _ _ hs, entryPhase_tlr _ _ hs⟩

end

/-- Settles O17: RESET and IDLE run the phase of their SHIFT_TMS; a scan's phases are the raw operations run one
after another, since none of them reads the reply of the one before. -/
theorem tapOperationsAreTheirExpansions : Obligations.TapOperationsAreTheirExpansions := by
  refine ⟨fun s ha => ?_, fun s c ha h0 hc => ⟨fun hs => ?_, fun hs => ?_⟩,
    fun s s1 s2 s3 count data v w k l hw hp => ?_⟩
  · rw [execTapReset_accepted ha, execShiftTms_accepted ha (by decide)]
    rfl
  · rw [execIdle_accepted ha (.inl hs) (payloadOk_zeros h0 (by omega)).1, count_toNat (by omega), idlePhase_rti c hs,
      execShiftTms_zeros ha h0 (by omega)]
  · rw [execIdle_accepted ha (.inr hs) (payloadOk_zeros h0 (by omega)).1, count_toNat (by omega), idlePhase_tlr c hs]
    exact (execShiftTms_zeros ha (Nat.succ_pos c) hc).symm
  · obtain ⟨hk, hir, hdr⟩ := entryPhase_raw hw
    exact ⟨fun h1 ok1 => ⟨shiftScan_of_raw hir hk hp h1 ok1, transferScan_of_raw hir hk hp h1 ok1⟩,
      fun h1 ok1 => ⟨shiftScan_of_raw hdr hk hp h1 ok1, transferScan_of_raw hdr hk hp h1 ok1⟩⟩

end Sys2Proof.Machine
end

section
/-! Proofs about the engine's commands (40_engine_commands.md R102 to R109, R112) and the purge (R113): the clocks of
a command, its samples and where its reply puts them. -/

namespace Sys2Proof.Machine

open Sys2Proof Sys2Proof.Safety

/-! ## Replies of partial captures (40_engine_commands.md R109) -/

/-- The reply byte of up to eight samples holds them where the justification says, whatever its other bits. -/
theorem pack_packedAt (j : Justify) {samples : List Bool} (fill : Byte) (h : samples.length ≤ 8) :
    PackedAt j (pack j samples fill) samples := by
  intro k hk
  cases j with
  | left =>
    have hlow : (byteBits (8 - samples.length) fill).length ≤ 8 - samples.length + k := by simp
    simp only [pack]
    rw [byteOfBits_getLsbD, List.getD_append_right _ _ _ _ hlow, byteBits_length, Nat.add_sub_cancel_left,
      decide_eq_true (by omega), Bool.true_and]
  | right =>
    simp only [pack, Nat.zero_add]
    rw [byteOfBits_getLsbD, List.getD_append _ _ _ _ hk, decide_eq_true (by omega), Bool.true_and]

theorem lenField_clocks_le (l : LenField) : l.toNat + 1 ≤ 8 := l.isLt

/-- The samples of a short command's clocks fit its reply byte. -/
theorem samplesOf_packedAt (j : Justify) (fill : Byte) (taps : List Tap) {l : LenField} {clocks : List (Bool × Bool)}
    (h : clocks.length = l.toNat + 1) : PackedAt j (pack j (samplesOf taps clocks) fill) (samplesOf taps clocks) :=
  pack_packedAt j fill (by rw [samplesOf_length, h]; exact lenField_clocks_le l)

/-! ## The latch (40_engine_commands.md R103) -/

theorem byteBits_succ_getLast? (n : Nat) (d : Byte) : (byteBits (n + 1) d).getLast? = some (d.getLsbD n) := by
  simp [byteBits, List.range_succ]

/-! ## Commands outside loopback (40_engine_commands.md R102 to R108) -/

/-- Outside loopback a TMS command samples the chain on its own levels and leaves the latch at the last of them. -/
theorem tmsCommand_chain (l : LenField) (d : Byte) {s : State} (h : s.loopback = false) :
    tmsCommand l d s =
      (samplesOf s.taps ((List.range (l.toNat + 1)).map fun j => (d.getLsbD j, d.getLsbD 7)), { s with
        tmsPin := d.getLsbD l.toNat
        taps := chainAfter s.taps ((List.range (l.toNat + 1)).map fun j => (d.getLsbD j, d.getLsbD 7)) }) := by
  rw [tmsCommand, tmsClocks_chain _ _ s h, byteBits_succ_getLast?, byteBits, List.map_map]
  rfl

/-- Outside loopback a bits command samples the chain at the latch's level. -/
theorem bitsCommand_chain (l : LenField) (d : Byte) {s : State} (h : s.loopback = false) :
    bitsCommand l d s =
      (samplesOf s.taps ((List.range (l.toNat + 1)).map fun j => (s.tmsPin, d.getLsbD j)), { s with
        taps := chainAfter s.taps ((List.range (l.toNat + 1)).map fun j => (s.tmsPin, d.getLsbD j)) }) := by
  rw [bitsCommand, dataClocks_chain _ s h, byteBits, List.map_map]
  rfl

/-- Settles O26: the command's run of clocks, and for the capturing form one packed reply byte of its samples. -/
theorem tmsCommandsResult : Obligations.TmsCommandsResult := by
  intro s l d h clocks
  have hc := tmsCommand_chain l d h
  refine ⟨?_, _, samplesOf_packedAt _ (Config.freeFill s.freeCount) s.taps (l := l) (by simp [clocks]), ?_⟩
  · rw [exec_command rfl, runCommand, hc]
  · rw [exec_command rfl, runCommand, hc]
    rfl

/-- Settles O27: the payload's clocks are those of its bits, and each reply byte holds eight of their samples. -/
theorem bytesCommandsResult : Obligations.BytesCommandsResult := by
  intro s payload h clocks
  obtain ⟨⟨hlen, hbits⟩, hnext⟩ := bytesClocks_chain payload s h
  rw [payloadBits_eq payload] at hbits hnext
  rw [payloadBits_eq, hlen] at hbits
  refine ⟨?_, _, hlen, hbits, ?_⟩
  · rw [exec_command rfl, runCommand, hnext]
  · rw [exec_command rfl, runCommand, hnext]
    rfl

/-- Settles O28: the command's run of clocks, and for the capturing form one packed reply byte of its samples. -/
theorem bitsCommandsResult : Obligations.BitsCommandsResult := by
  intro s l d h clocks
  have hc := bitsCommand_chain l d h
  refine ⟨?_, _, samplesOf_packedAt _ (Config.freeFill s.freeCount) s.taps (l := l) (by simp [clocks]), ?_⟩
  · rw [exec_command rfl, runCommand, hc]
  · rw [exec_command rfl, runCommand, hc]
    rfl

/-! ## What a command leaves, in either mode -/

/-- A command leaves the latch at its own level in either mode. -/
theorem runCommand_tmsPin (i : Instr) (s : State) : (runCommand i s).tmsPin = commandLatch i s.tmsPin := by
  cases hl : s.loopback with
  | false => exact (runCommand_chain i hl).2
  | true =>
    cases i
    case tmsOut l d | tmsInout l d => exact (tmsClocks_loopback _ _ s hl).2
    case bytesOut p | bytesInout p => simp only [runCommand, reply_tmsPin]; rw [bytesClocks_frame]; rfl
    case bitsOut l d | bitsInout l d =>
      simp only [runCommand, bitsCommand, replyPartial, reply_tmsPin]; rw [dataClocks_frame]; rfl
    all_goals rfl

theorem commandLatch_tms (l : LenField) (d : Byte) (pin : Bool) :
    commandLatch (.tmsOut l d) pin = d.getLsbD l.toNat ∧ commandLatch (.tmsInout l d) pin = d.getLsbD l.toNat := by
  simp only [commandLatch, byteBits_succ_getLast?, Option.getD_some, and_self]

theorem runCommand_taps_length (i : Instr) (s : State) : (runCommand i s).taps.length = s.taps.length := by
  simpa using congrArg List.length (runCommand_fixed i s)

/-- What a command leaves, its latch and its replies given: the chain and the draws change besides, and the chain
keeps its length. -/
theorem exec_command_effect {i : Instr} {s : State} {pin : Bool} {q : List Byte} (hi : i.space = .tx)
    (hp : commandLatch i s.tmsPin = pin) (hq : (runCommand i s).replyQueue = q) :
    ∃ taps n, exec i s = .next { s with tmsPin := pin, taps := taps, replyQueue := q, freeCount := n } ∧
      taps.length = s.taps.length := by
  refine ⟨_, (runCommand i s).freeCount, ?_, runCommand_taps_length i s⟩
  rw [exec_command hi, ← hp, ← hq, ← runCommand_tmsPin, ← runCommand_frame]

/-- The one reply byte of a run of up to eight clocks holds their samples. -/
theorem replyPartial_packed {r : List Bool × State} (h : r.1.length ≤ 8) :
    ∃ b, PackedAt r.2.params.captureJustify b r.1 ∧ (replyPartial r).replyQueue = r.2.replyQueue ++ [b] :=
  ⟨_, pack_packedAt _ (Config.freeFill r.2.freeCount) h, rfl⟩

@[simp] theorem tmsCommand_params (l : LenField) (d : Byte) (s : State) : (tmsCommand l d s).2.params = s.params := by
  rw [tmsCommand, tmsClocks_frame]

@[simp] theorem bitsCommand_params (l : LenField) (d : Byte) (s : State) : (bitsCommand l d s).2.params = s.params := by
  rw [bitsCommand, dataClocks_frame]

/-! ## Commands in loopback (40_engine_commands.md R112, 45_reference_target.md R201) -/

/-- In loopback TMS_INOUT replies with `D[7]`, the TDI level of all its clocks. -/
theorem tmsInout_loopback (l : LenField) (d : Byte) {s : State} (h : s.loopback = true) :
    ∃ b, PackedAt s.params.captureJustify b (List.replicate (l.toNat + 1) (d.getLsbD 7)) ∧
      (runCommand (.tmsInout l d) s).replyQueue = s.replyQueue ++ [b] := by
  have hs : (tmsCommand l d s).1 = List.replicate (l.toNat + 1) (d.getLsbD 7) := by
    rw [tmsCommand, (tmsClocks_loopback _ _ s h).1, byteBits_length]
  have hr := replyPartial_packed (r := tmsCommand l d s) (by simpa [hs] using lenField_clocks_le l)
  rwa [hs, tmsCommand_params, tmsCommand_replyQueue] at hr

/-- In loopback BITS_INOUT replies with its own data bits. -/
theorem bitsInout_loopback (l : LenField) (d : Byte) {s : State} (h : s.loopback = true) :
    ∃ b, PackedAt s.params.captureJustify b ((List.range (l.toNat + 1)).map d.getLsbD) ∧
      (runCommand (.bitsInout l d) s).replyQueue = s.replyQueue ++ [b] := by
  have hs : (bitsCommand l d s).1 = (List.range (l.toNat + 1)).map d.getLsbD := dataClocks_loopback _ s h
  have hr := replyPartial_packed (r := bitsCommand l d s) (by simpa [hs] using lenField_clocks_le l)
  rwa [hs, bitsCommand_params, bitsCommand_replyQueue] at hr

/-- In loopback BYTES_INOUT replies with its payload. -/
theorem bytesInout_loopback (payload : List Byte) {s : State} (h : s.loopback = true) :
    (runCommand (.bytesInout payload) s).replyQueue = s.replyQueue ++ payload := by
  simp only [runCommand, reply_replyQueue, bytesClocks_replyQueue, bytesClocks_loopback _ s h]

/-- Settles O30: a command has its effect on the latch and the chain in either mode, and in loopback its replies are
the TDI levels it drives. -/
theorem loopbackCommandsEchoTdi : Obligations.LoopbackCommandsEchoTdi := by
  intro s l d payload h
  obtain ⟨tmsOutLatch, tmsInoutLatch⟩ := commandLatch_tms l d s.tmsPin
  obtain ⟨b, hb, hq⟩ := tmsInout_loopback l d h
  obtain ⟨b', hb', hq'⟩ := bitsInout_loopback l d h
  obtain ⟨taps, n, he, hl⟩ := exec_command_effect rfl tmsInoutLatch hq
  obtain ⟨taps', n', he', hl'⟩ := exec_command_effect rfl rfl hq'
  exact ⟨exec_command_effect rfl tmsOutLatch (tmsCommand_replyQueue l d s),
    exec_command_effect rfl rfl (bytesClocks_replyQueue payload s),
    exec_command_effect rfl rfl (bitsCommand_replyQueue l d s),
    ⟨b, taps, n, hb, he, hl⟩,
    exec_command_effect rfl rfl (bytesInout_loopback payload h),
    ⟨b', taps', n', hb', he', hl'⟩⟩

/-! ## The purge (40_engine_commands.md R113) -/

/-- Settles O44: a waiting engine leaves the step to the host's request, whose action is the purge. -/
theorem purgeResult : Obligations.PurgeResult := fun s _ hw hp => step_of_waits (s := s) hw hp

end Sys2Proof.Machine
end

section
/-! Proofs about the Bit-Engine Encoder's check (41_bit_engine_encoder.md R130) and the raw shifts that capture nothing
(R131 to R135). -/

namespace Sys2Proof.Machine

open Sys2Proof Sys2Proof.Safety

/-! ## The check (41_bit_engine_encoder.md R130) -/

section
variable {n : Nat} {data : List Byte} {nc ns : Bool} {s : State}

theorem contractCheck_desync (hd : s.desync = true) : contractCheck n data nc ns s = some .resyncRequired := by
  simp [contractCheck, hd]

theorem contractCheck_zeroCount (hd : s.desync = false) : contractCheck 0 data true ns s = some .zeroCount := by
  simp [contractCheck, hd]

theorem contractCheck_short (hd : s.desync = false) (hn : n ≠ 0) (hl : data.length < (n + 7) / 8) :
    contractCheck n data true ns s = some .bufferTooShort := by
  simp [contractCheck, ceilDiv8, hd, hn, hl]

theorem contractCheck_indeterminate (hd : s.desync = false)
    (hp : nc = true → n ≠ 0 ∧ (n + 7) / 8 ≤ data.length) (hk : ¬ ShadowKnown s) :
    contractCheck n data nc true s = some .tapStateIndeterminate := by
  obtain ⟨hr, ht⟩ := not_or.mp hk
  cases nc with
  | false => simp [contractCheck, hd, hr, ht]
  | true =>
    obtain ⟨hn, hl⟩ := hp rfl
    simp [contractCheck, ceilDiv8, hd, hn, Nat.not_lt.mpr hl, hr, ht]

/-- An operation whose check fails ends with the contract fault and nothing else. -/
theorem raises_of_contractCheck {i : Instr} {k : ContractFault} {body : State → Host.Outcome State Fault Refusal}
    (hi : exec i s = checked n data nc ns body s) (hf : s.fault = none)
    (hc : contractCheck n data nc ns s = some k) : Raises i k k.code s :=
  ⟨0, [], by simp only [hi, checked, hf, hc, raiseFault]⟩

end

/-- `idle(c)`, `c > 0`, begins with the check: the stuck block is its first case either way. -/
theorem execIdle_checked {c : Count} (hc : c ≠ 0) (s : State) : exec (.idle c) s =
    checked c.toNat [] false true (fun s => (idlePhase c.toNat s).returnedEmpty) s := by
  simp only [exec, execIdle, if_neg hc]
  cases hf : s.fault with
  | some k => rw [checked_stuck hf]
  | none => rfl

/-- An instruction begins with the check for these needs, of its own COUNT and DATA if it needs a count. -/
def BeginsWithCheck (i : Instr) (count : Count) (data : List Byte) (needCount needState : Bool) : Prop :=
  ∃ n d body, (∀ s, exec i s = checked n d needCount needState body s) ∧
    (needCount = true → n = count.toNat ∧ d = data)

theorem count_toNat_ne_zero {c : Count} (h : c ≠ 0) : c.toNat ≠ 0 :=
  fun h0 => h (BitVec.eq_of_toNat_eq h0)

/-- Settles O9: every operation begins with the check for its needs, and each failing check has its one effect. -/
theorem checkPrecedesEveryOperation : Obligations.CheckPrecedesEveryOperation := by
  intro s count data i needCount needState h
  have hi : BeginsWithCheck i count data needCount needState := by
    rcases h with ⟨rfl | rfl | rfl, rfl, rfl⟩ | ⟨rfl | rfl | rfl | rfl, rfl, rfl⟩ | ⟨rfl, rfl, rfl⟩ |
      ⟨rfl, hc, rfl, rfl⟩
    case inr.inr.inr => exact ⟨_, _, _, execIdle_checked hc, nofun⟩
    case inr.inr.inl => exact ⟨_, _, _, fun _ => rfl, nofun⟩
    all_goals exact ⟨_, _, _, fun _ => rfl, fun _ => ⟨rfl, rfl⟩⟩
  obtain ⟨n, d, body, he, hown⟩ := hi
  refine ⟨fun k hk => (he s).trans (checked_stuck hk), fun hf =>
    ⟨fun hd => raises_of_contractCheck (he s) hf (contractCheck_desync hd), fun hd => ⟨?zero, ?short, ?state⟩⟩⟩
  case zero =>
    intro hnc hc
    obtain ⟨rfl, rfl⟩ := hown hnc
    exact raises_of_contractCheck (he s) hf (hnc ▸ hc ▸ contractCheck_zeroCount hd)
  case short =>
    intro hnc hc hl
    obtain ⟨rfl, rfl⟩ := hown hnc
    exact raises_of_contractCheck (he s) hf (hnc ▸ contractCheck_short hd (count_toNat_ne_zero hc) hl)
  case state =>
    intro hns hp hk
    refine raises_of_contractCheck (he s) hf (hns ▸ contractCheck_indeterminate hd (fun hnc => ?_) hk)
    obtain ⟨rfl, rfl⟩ := hown hnc
    obtain ⟨hc, hl⟩ := hp hnc
    exact ⟨count_toNat_ne_zero hc, hl⟩

/-! ## The shifts that capture nothing (41_bit_engine_encoder.md R131 to R135) -/

theorem dataHolds_of_payloadOk {count : Count} {data : List Byte} (h : PayloadOk count data) :
    DataHolds count.toNat data := ⟨count_toNat_ne_zero h.1, h.2⟩

section
variable {count : Count} {data : List Byte} {s : State}

theorem execShiftTdi_accepted (ha : Accepting s) (hp : PayloadOk count data) :
    exec (.shiftTdi count data) s = (shiftTdiPhase data count.toNat s).returnedEmpty :=
  show execShiftTdi count data s = _ from checked_run ha.1 (contractCheck_payload ha hp)

theorem execTransferTdi_accepted (ha : Accepting s) (hp : PayloadOk count data) :
    exec (.transferTdi count data) s = (transferTdiPhase data count.toNat s).returned :=
  show execTransferTdi count data s = _ from checked_run ha.1 (contractCheck_payload ha hp)

end

/-- Settles O10: the writes succeed, so the groups are emitted and the operation returns. -/
theorem shiftTmsResult : Obligations.ShiftTmsResult := by
  intro s count data ha hp hw
  obtain ⟨hn, -⟩ := dataHolds_of_payloadOk hp
  rw [execShiftTms_accepted ha hp, shiftTmsPhase_ok hn hw, Flow.returnedEmpty_run]
  rfl

/-- Settles O11: the writes succeed, so the plan's commands are emitted and the operation returns. -/
theorem shiftTdiResult : Obligations.ShiftTdiResult := by
  intro s count data ha hp hw
  obtain ⟨hn, hlen⟩ := dataHolds_of_payloadOk hp
  rw [execShiftTdi_accepted ha hp, shiftTdiPhase, emitTdi_ok false hn hlen hw, Flow.returnedEmpty_run]
  rfl

end Sys2Proof.Machine
end

section
/-! Proofs about the rebuilding of RESULT (41_bit_engine_encoder.md R138): what a reply byte gives back of its samples,
and the bytes they are put together in. -/

namespace Sys2Proof.Machine

open Sys2Proof Sys2Proof.Safety

/-! ## The samples of one reply byte (40_engine_commands.md R109) -/

theorem natOfBits_append (a b : List Bool) : natOfBits (a ++ b) = natOfBits a + 2 ^ a.length * natOfBits b := by
  induction a with
  | nil => simp [natOfBits]
  | cons x xs ih => simp only [List.cons_append, natOfBits, ih, List.length_cons, Nat.pow_succ]; ring

/-- A field of a byte that holds the given bits is their number. -/
theorem byteField_eq_natOfBits {b : Byte} {hi lo : Nat} {bits : List Bool} (hl : bits.length = hi + 1 - lo)
    (hb : ∀ k, k < bits.length → b.getLsbD (lo + k) = bits.getD k false) : byteField b hi lo = natOfBits bits := by
  refine Nat.eq_of_testBit_eq fun k => ?_
  rw [byteField_testBit, natOfBits_testBit, ← hl]
  by_cases hk : k < bits.length
  · simp only [hk, decide_true, Bool.true_and, hb k hk]
  · simp [hk]

section
variable {low : List Bool} (last : Bool) (fill : Byte)

theorem byteField_packLeft (h : low.length ≤ 7) : byteField (pack .left low fill) 7 (8 - low.length) = natOfBits low :=
  byteField_eq_natOfBits (by omega) (pack_packedAt .left fill (by omega))

theorem byteField_packRight (h1 : 1 ≤ low.length) (h7 : low.length ≤ 7) :
    byteField (pack .right low fill) (low.length - 1) 0 = natOfBits low :=
  byteField_eq_natOfBits (by omega) (pack_packedAt .right fill (by omega))

theorem getLsbD_packLeft : (pack .left [last] fill).getLsbD 7 = last :=
  pack_packedAt .left fill (samples := [last]) (by simp) 0 (by simp)

theorem getLsbD_packRight : (pack .right [last] fill).getLsbD 0 = last :=
  pack_packedAt .right fill (samples := [last]) (by simp) 0 (by simp)

end

/-! ## The rebuilt bytes -/

theorem memWrite_nil (v : List Byte) : memWrite [] 0 v = v := by simp [memWrite]

theorem memWrite_end (buf v : List Byte) : memWrite buf buf.length v = buf ++ v := by simp [memWrite]

section
variable (j : Justify) (whole : List Byte) (low : List Bool) (last : Bool) (fill fill' : Byte)

theorem repliesOf_take : (repliesOf j whole low last fill fill').take whole.length = whole := by
  simp [repliesOf]

theorem repliesOf_partial (h : low ≠ []) :
    (repliesOf j whole low last fill fill').getD whole.length 0 = pack j low fill := by
  simp [repliesOf, h]

theorem repliesOf_last (d : Byte) : (repliesOf j whole low last fill fill').getD
    ((repliesOf j whole low last fill fill').length - 1) d = pack j [last] fill' := by
  simp [repliesOf]

/-- RESULT from the replies: the whole bytes, then one byte of the partial samples with the final one above them. -/
theorem rebuild_repliesOf {n : Nat} (hw : wholeBytes n = whole.length) (hr : remainderBits n = low.length + 1)
    (h : low.length ≤ 7) :
    rebuild j n (repliesOf j whole low last fill fill') = whole ++ [byteOfBits (low ++ [last])] := by
  have hlast : (repliesOf j whole low last fill fill').getD (replyCount n - 1) 0 = pack j [last] fill' := by
    have hlen := repliesOf_length (j := j) (last := last) (fill := fill) (fill' := fill') hw.symm
      (by rw [hr, Nat.add_sub_cancel])
    rw [show replyCount n = expectedReplies n from rfl, ← hlen, repliesOf_last]
  have hbyte : byteOfBits (low ++ [last]) = BitVec.ofNat 8 (natOfBits low + last.toNat * 2 ^ low.length) := by
    rw [byteOfBits, natOfBits_append, Nat.mul_comm]
    rfl
  simp only [rebuild, hlast, hw, hr, repliesOf_take, memWrite_nil, memWrite_end, hbyte, Nat.add_sub_cancel]
  by_cases hlow : low = []
  · subst hlow
    cases j
    · rw [getLsbD_packLeft]; rfl
    · rw [getLsbD_packRight]; rfl
  · have h1 : 1 ≤ low.length := List.length_pos_iff.mpr hlow
    have h9 : 9 - (low.length + 1) = 8 - low.length := by omega
    have h2 : low.length + 1 - 2 = low.length - 1 := by omega
    rw [repliesOf_partial _ _ _ _ _ _ hlow, if_pos (by omega), h9, h2]
    cases j
    · rw [byteField_packLeft _ h, getLsbD_packLeft]
    · rw [byteField_packRight _ h1 h, getLsbD_packRight]

end

/-- Whole bytes and one byte of one to eight bits hold the bits of all of them. -/
theorem holdsSamples_append (whole : List Byte) {bits : List Bool} (h1 : 1 ≤ bits.length) (h8 : bits.length ≤ 8) :
    HoldsSamples (whole ++ [byteOfBits bits]) (8 * whole.length + bits.length) (payloadBits whole ++ bits) := by
  refine ⟨by simp; omega, by simp, fun i => ?_⟩
  rw [bufBit_append, payloadBits_eq]
  split
  next hi => rw [List.getD_append _ _ _ _ (by simpa using hi), bufBits_getD, decide_eq_true hi, Bool.true_and]
  next hi =>
    rw [List.getD_append_right _ _ _ _ (by simpa using Nat.le_of_not_lt hi), bufBits_length, bufBit_cons, bufBit_nil,
      byteOfBits_getLsbD]
    split
    next h => rw [decide_eq_true h, Bool.true_and]
    next h => rw [List.getD_eq_default _ _ (by omega)]

/-- The rebuilt RESULT holds the samples that the replies were packed from (40_engine_commands.md R109). -/
theorem rebuild_holdsSamples (j : Justify) {whole : List Byte} {low : List Bool} (last : Bool) (fill fill' : Byte)
    {n : Nat} (hn : n ≠ 0) (hw : whole.length = wholeBytes n) (hl : low.length = remainderBits n - 1) :
    HoldsSamples (rebuild j n (repliesOf j whole low last fill fill')) n (payloadBits whole ++ low ++ [last]) := by
  have hr := remainder_pos hn
  have hb := whole_add_remainder n
  have h := holdsSamples_append whole (bits := low ++ [last]) (by simp) (by simp; omega)
  rw [List.length_append, List.length_singleton, show 8 * whole.length + (low.length + 1) = n by omega] at h
  rwa [rebuild_repliesOf j whole low last fill fill' hw.symm (by omega) (by omega), List.append_assoc]

theorem wholeBytes_eq {w k : Nat} (h1 : 1 ≤ k) (h8 : k ≤ 8) : wholeBytes (8 * w + k) = w := by
  unfold wholeBytes; omega

theorem remainderBits_eq {w k : Nat} (h1 : 1 ≤ k) (h8 : k ≤ 8) : remainderBits (8 * w + k) = k := by
  rw [remainderBits, wholeBytes_eq h1 h8]; omega

/-- Settles O31: the rebuilt bytes hold the samples. -/
theorem rebuildUndoesPacking : Obligations.RebuildUndoesPacking := by
  intro j whole low last fill fill' hl
  obtain ⟨hlen, -, hbits⟩ := rebuild_holdsSamples j last fill fill'
    (n := 8 * whole.length + (low.length + 1)) (by omega) (wholeBytes_eq (by omega) (by omega)).symm
    (by rw [remainderBits_eq (by omega) (by omega), Nat.add_sub_cancel])
  rw [payloadBits_eq] at hbits
  exact ⟨hlen, hbits⟩

end Sys2Proof.Machine
end

section
/-! Proofs about TRANSFER_TDI (41_bit_engine_encoder.md R136 to R140): an idle engine runs what the phase emits, one read
is made of its replies, and a full answer is rebuilt to the samples of the clocks. -/

namespace Sys2Proof.Machine

open Sys2Proof Sys2Proof.Safety

/-! ## What an idle engine runs (40_engine_commands.md R100) -/

/-- The block after the given commands are emitted, with the engine's queue taken. -/
def issued (is : List Instr) (s : State) : State := { emitted is s with cmdQueue := [] }

/-- The machine once an idle engine has run the commands emitted to it. -/
def executed (is : List Instr) (s : State) : State := runCommands is (issued is s)

section
variable (is : List Instr) (s : State)

theorem emitted_params : (emitted is s).params = s.params := rfl

theorem issued_params : (issued is s).params = s.params := rfl

theorem issued_loopback : (issued is s).loopback = s.loopback := rfl

theorem issued_replyQueue : (issued is s).replyQueue = s.replyQueue := rfl

theorem executed_cmdQueue : (executed is s).cmdQueue = [] := by rw [executed, runCommands_frame]; rfl

theorem executed_txLog : (executed is s).txLog = s.txLog ++ is.flatMap (encode s.params) := by
  rw [executed, runCommands_frame]; rfl

theorem executed_rxLog : (executed is s).rxLog = s.rxLog := by rw [executed, runCommands_frame]; rfl

theorem executed_fault : (executed is s).fault = s.fault := by rw [executed, runCommands_frame]; rfl

theorem executed_readDraws : (executed is s).readDraws = s.readDraws := by rw [executed, runCommands_frame]; rfl

end

/-! ## The read (41_bit_engine_encoder.md R139) -/

theorem readError_ioError (expected : Nat) (rx : List Byte) : readError expected rx true = some .transportIoError := rfl

theorem readError_short {expected : Nat} {rx : List Byte} (h : rx.length < expected) :
    readError expected rx false = some .transportTimeout := by simp [readError, h]

theorem readError_excess {expected : Nat} {rx : List Byte} (h : expected < rx.length) :
    readError expected rx false = some .excessBytes := by simp [readError, h, Nat.lt_asymm h]

section
variable {s : State} {later : List ReadDraw}

theorem transportRead_bytes {b : List Byte} (h : s.readDraws = .bytes b :: later) :
    (transportRead s).1 = (b, false) := by simp only [transportRead, h]

theorem transportRead_short {k : Nat} (h : s.readDraws = .short k :: later) :
    (transportRead s).1 = (s.replyQueue.take k, false) := by simp only [transportRead, h]

theorem transportRead_ioError {k : Nat} (h : s.readDraws = .ioError k :: later) :
    (transportRead s).1 = (s.replyQueue.take k, true) := by simp only [transportRead, h]

end

section
variable {is : List Instr} {s : State} {expected : Nat} {rebuilt : List Byte → List Byte} (hp : s.params.distinct)
  (hc : Commands is) (hq : s.cmdQueue = [])
include hp hc hq

/-- An idle engine runs exactly what is emitted to it. -/
theorem engineDrain_emitted : engineDrain (emitted is s) = executed is s :=
  engineDrain_commands is (emitted is s) hp hc (by simp [emitted, hq])

/-- A read answered in full by as many replies as expected. -/
theorem receive_emitted {u : State} (hu : executed is s = u) (hr : ReadFull s) (hl : u.replyQueue.length = expected) :
    receive expected rebuilt (emitted is s) = .run { u with
      replyQueue := []
      readDraws := s.readDraws.tail
      rxLog := s.rxLog ++ u.replyQueue
      result := rebuilt u.replyQueue } := by
  subst hu
  have h := engineDrain_emitted hp hc hq
  rw [receive_full (s := emitted is s) hr (by rw [h, executed_cmdQueue]) (by rw [h, hl]), h]
  rfl

/-- A read that raises an error: its bytes are logged first, and what was written stays logged. -/
theorem receive_emitted_fails {rx : List Byte} {io : Bool} {err : ErrorKind}
    (hr : (transportRead (executed is s)).1 = (rx, io)) (he : readError expected rx io = some err) :
    ∃ u, receive expected rebuilt (emitted is s) = .ended (raiseError err u) ∧ u.rxLog = s.rxLog ++ rx ∧
      u.txLog = s.txLog ++ is.flatMap (encode s.params) ∧ u.fault = s.fault := by
  have h := engineDrain_emitted hp hc hq
  rw [receive_read (by rw [h]; simp [engineStalled, executed_cmdQueue, decodeCommand]), h]
  simp only [hr, he]
  rw [transportRead_frame]
  exact ⟨_, rfl, congrArg (· ++ rx) (executed_rxLog is s), executed_txLog is s, executed_fault is s⟩

end

/-! ## The phase and the operation (41_bit_engine_encoder.md R136, R137) -/

/-- Once its writes succeed, the phase is its read. -/
theorem transferTdiPhase_reads {data : List Byte} {n : Nat} {s : State} (hw : WritesOk (tdiCommands n) s) :
    transferTdiPhase data n s =
      receive (expectedReplies n) (rebuild s.params.captureJustify n) (emitted (tdiPlan true data n) s) := by
  rw [transferTdiPhase, emitAll_ok (by rwa [tdiPlan_length]), Flow.andThen_run, emitted_params]
  rfl

section
variable {n : Nat} {data : List Byte} {s : State} (hp : DataHolds n data)
include hp

/-- The replies of the engine's run are exactly the expected ones (R137). -/
theorem executed_transfer_replies (hi : EngineIdle s) :
    (executed (tdiPlan true data n) s).replyQueue.length = expectedReplies n := by
  rw [executed, runTransfer_replies _ hp.1 hp.2, issued_replyQueue, hi.2, List.length_nil, Nat.zero_add]

theorem transferPlan_bytes (p : Params) : (tdiPlan true data n).flatMap (encode p) = transferBytes p data n :=
  tdiPlan_bytes p true hp.1 hp.2

theorem issued_transfer (hw : WritesOk (tdiCommands n) s) : issued (tdiPlan true data n) s = { s with
    txLog := s.txLog ++ transferBytes s.params data n
    cmdQueue := []
    tapShadow := tdiShadow n s.tapShadow s.tmsShadow
    tmsShadow := .high
    writeFails := spendWrites (tdiCommands n) s.writeFails } := by
  rw [issued, ← emitted_of_emitAll_run (emitTdi_ok true hp.1 hp.2 hw)]
  rfl

end

section
variable {count : Count} {data : List Byte} {s : State} (ha : Accepting s) (hp : PayloadOk count data)
  (hw : WritesOk (tdiCommands count.toNat) s) (hd : s.params.distinct) (hi : EngineIdle s)
include ha hp hw hd hi

/-- A read answered in full returns what the replies of the engine's run rebuild to. -/
theorem execTransferTdi_answered (hr : ReadFull s) {u : State}
    (hu : executed (tdiPlan true data count.toNat) s = u) :
    exec (.transferTdi count data) s = .next { u with
      replyQueue := []
      readDraws := s.readDraws.tail
      rxLog := s.rxLog ++ u.replyQueue
      result := rebuild s.params.captureJustify count.toNat u.replyQueue
      status := 0x00
      subcause := 0 } := by
  have hn := dataHolds_of_payloadOk hp
  have hlen : u.replyQueue.length = expectedReplies count.toNat := by rw [← hu, executed_transfer_replies hn hi]
  rw [execTransferTdi_accepted ha hp, transferTdiPhase_reads hw,
    receive_emitted hd (tdiPlan_commands true hn.1 hn.2) hi.1 hu hr hlen, Flow.returned_run]
  rfl

/-- A read that is not answered by exactly the expected bytes logs them and ends in its error. -/
theorem execTransferTdi_readFails {rx : List Byte} {io : Bool} {err : ErrorKind}
    (hr : (transportRead (executed (tdiPlan true data count.toNat) s)).1 = (rx, io))
    (he : readError (expectedReplies count.toNat) rx io = some err) :
    ∃ t, exec (.transferTdi count data) s = .next t ∧ t.rxLog = s.rxLog ++ rx ∧
      t.txLog = s.txLog ++ transferBytes s.params data count.toNat ∧
      TransportErrorState t err.code err.subcause := by
  have hn := dataHolds_of_payloadOk hp
  obtain ⟨u, hu, hrx, htx, hf⟩ := receive_emitted_fails (rebuilt := rebuild s.params.captureJustify count.toNat) hd
    (tdiPlan_commands true hn.1 hn.2) hi.1 hr he
  rw [execTransferTdi_accepted ha hp, transferTdiPhase_reads hw, hu]
  rw [transferPlan_bytes hn] at htx
  exact ⟨_, rfl, hrx, htx, rfl, rfl, rfl, rfl, rfl, rfl, hf.trans ha.1⟩

end

/-! ## TRANSFER_TDI outside and in loopback (40_engine_commands.md R100 to R112) -/

/-- The bits of a data shift: those of the whole bytes, the partial bits, the final bit. -/
theorem bufBits_parts {data : List Byte} {n : Nat} (hn : n ≠ 0) (hd : (n + 7) / 8 ≤ data.length) :
    payloadBits (data.take (wholeBytes n)) ++ byteBits (remainderBits n - 1) (memByte data (wholeBytes n)) ++
      [bufBit data (n - 1)] = bufBits data n := by
  have hr := remainder_pos hn
  rw [bufBits_take (Nat.le_of_lt (whole_le hn hd)), ← bufBits_tail _ _ (by omega), whole_add_remainder, ← bufBits_succ,
    Nat.sub_add_cancel (Nat.one_le_iff_ne_zero.mpr hn)]

/-- Settles O12: outside loopback the replies are packed from the samples of the clocks. -/
theorem transferTdiResult : Obligations.TransferTdiResult := by
  intro s count data ha hp hw hd hl hi hr
  obtain ⟨hn, hlen⟩ := dataHolds_of_payloadOk hp
  obtain ⟨whole, low, last, fill, fill', hwhole, hlow, hsamples, hrun⟩ :=
    runTransfer_chain (s := issued (tdiPlan true data count.toNat) s) hn hlen ((issued_loopback _ s).trans hl)
  rw [issued_transfer ⟨hn, hlen⟩ hw] at hsamples hrun
  refine ⟨repliesOf s.params.captureJustify whole low last fill fill', _, repliesOf_length hwhole hlow,
    hsamples ▸ rebuild_holdsSamples s.params.captureJustify last fill fill' hn hwhole hlow, ?_⟩
  rw [execTransferTdi_answered ha hp hw hd hi hr (by rw [executed, issued_transfer ⟨hn, hlen⟩ hw, hrun])]
  simp only [hi.1, hi.2, List.nil_append]

/-- Settles O21: each answer's bytes and verdict. -/
theorem failedReadEndsTransferTdi : Obligations.FailedReadEndsTransferTdi := by
  intro s count data later ha hp hw hd hi
  have hlen := executed_transfer_replies (dataHolds_of_payloadOk hp) hi
  have hdraws := executed_readDraws (tdiPlan true data count.toNat) s
  refine ⟨fun b hb hne => ?_, fun k hk hlt => ?_, fun k hk => ?_⟩
  · have hread := transportRead_bytes (hdraws.trans hb)
    rcases Nat.lt_or_gt_of_ne hne with hlt | hgt
    · obtain ⟨t, ht, hrx, htx, herr⟩ := execTransferTdi_readFails ha hp hw hd hi hread (readError_short hlt)
      exact ⟨t, ht, hrx, htx, fun _ => herr, fun h => absurd h (Nat.lt_asymm hlt)⟩
    · obtain ⟨t, ht, hrx, htx, herr⟩ := execTransferTdi_readFails ha hp hw hd hi hread (readError_excess hgt)
      exact ⟨t, ht, hrx, htx, fun h => absurd h (Nat.lt_asymm hgt), fun _ => herr⟩
  · have hrx : ((executed (tdiPlan true data count.toNat) s).replyQueue.take k).length = k :=
      List.length_take_of_le (by omega)
    obtain ⟨t, ht, hlog, -, herr⟩ := execTransferTdi_readFails ha hp hw hd hi
      (transportRead_short (hdraws.trans hk)) (readError_short (by rwa [hrx]))
    exact ⟨t, _, ht, hrx, hlog, herr⟩
  · obtain ⟨t, ht, hlog, -, herr⟩ := execTransferTdi_readFails ha hp hw hd hi
      (transportRead_ioError (hdraws.trans hk)) (readError_ioError _ _)
    exact ⟨t, _, ht, by rw [List.length_take, hlen], hlog, herr⟩

/-- Settles O35: in loopback the replies are packed from the bits of DATA. -/
theorem loopbackTransferReturnsItsInput : Obligations.LoopbackTransferReturnsItsInput := by
  intro s count data ha hp hw hd hl hi hr
  obtain ⟨hn, hlen⟩ := dataHolds_of_payloadOk hp
  obtain ⟨fill, fill', hrun⟩ := runTransfer_loopback (data := data)
    (s := issued (tdiPlan true data count.toNat) s) hn ((issued_loopback _ s).trans hl)
  rw [issued_replyQueue, hi.2, List.nil_append, issued_params] at hrun
  refine ⟨_, execTransferTdi_answered ha hp hw hd hi hr rfl, rfl, ?_⟩
  show HoldsSamples (rebuild _ _ (executed _ s).replyQueue) _ _
  rw [executed, hrun, ← bufBits_parts hn hlen]
  exact rebuild_holdsSamples _ _ _ _ hn (List.length_take_of_le (Nat.le_of_lt (whole_le hn hlen))) (byteBits_length _ _)

end Sys2Proof.Machine
end

section
/-! Proofs about TAP_RESET and IDLE (42_tap_controller.md R162, R163): each is one TMS walk, so its shadow is the walk's
image. -/

namespace Sys2Proof.Machine

open Sys2Proof Sys2Proof.Safety

/-! ## TMS walks of the shadow -/

theorem walk_single (s : TapState) (ts : List Bool) : walk (single s) ts = single (ts.foldl TapState.next s) := by
  induction ts generalizing s with
  | nil => rfl
  | cons t ts ih => rw [walk_cons, stepSet_single_ofBool, ih, List.foldl_cons]

/-! ## TAP_RESET (42_tap_controller.md R162) -/

/-- The 40 TMS-1 clocks lead from any set that is not empty to Test-Logic-Reset. -/
theorem walk_resetSeq {S : TapSet} (h : S ≠ 0) : walk S (bufBits resetSeq 40) = single .tlr := by
  have hbits : bufBits resetSeq 40 = List.replicate (5 + 35) true := by decide
  rw [hbits, fiveHighClocksReachReset S 35 h]

/-- Settles O13: the walk of 40 TMS-1 clocks, in five commands. -/
theorem tapResetResult : Obligations.TapResetResult := by
  intro s ha hS hw
  rw [execTapReset_accepted ha, shiftTmsPhase_ok (by decide) hw, walk_resetSeq hS, Flow.returnedEmpty_run]
  rfl

/-! ## IDLE (42_tap_controller.md R163) -/

theorem execIdle_zero {s : State} (hf : s.fault = none) :
    exec (.idle 0) s = .next { s with result := [], status := statusOk, subcause := 0 } := by
  simp only [exec, execIdle, hf, if_true, Flow.returnedEmpty_run]

/-- The leading TMS-0 clocks of a fold: one when the shadow is exactly `{TLR}` (42_tap_controller.md R161). -/
def foldClocks (S : TapSet) : Nat := if S = single .tlr then 1 else 0

/-- The TMS-0 clocks of `idle(c)` from a shadow. -/
def idleClocks (c : Nat) (S : TapSet) : Nat := c + foldClocks S

/-- As many bytes of zeros as `k` clocks take. -/
def zeroBits (k : Nat) : List Byte := List.replicate ((k + 7) / 8) 0

theorem zeroBits_getD (k i : Nat) : (zeroBits k).getD i 0 = 0 :=
  List.getElem?_getD_replicate_default_eq _ _ _

theorem bufBit_zeroBits (k i : Nat) : bufBit (zeroBits k) i = false := by
  rw [bufBit, zeroBits_getD]; exact BitVec.getLsbD_zero

theorem bufBits_zeroBits (k : Nat) : bufBits (zeroBits k) k = List.replicate k false := by
  rw [bufBits, funext (bufBit_zeroBits k), List.map_const', List.length_range]

theorem tmsBytes_zeroBits (p : Params) (k : Nat) :
    tmsBytes p (zeroBits k) k = (List.range ((k + 7) / 8)).flatMap fun g =>
      [p.opcTmsOut, BitVec.ofNat 8 (min 8 (k - 8 * g) - 1), 0x00] := by
  refine List.flatMap_congr fun g _ => ?_
  have hzero (m : Nat) : BitVec.ofNat 8 ((0 : Byte).toNat % m) = 0 := congrArg (BitVec.ofNat 8) (Nat.zero_mod m)
  simp only [zeroBits_getD, hzero]

theorem idlePhase_eq (c : Nat) (s : State) :
    idlePhase c s = shiftTmsPhase (zeroBits (idleClocks c s.tapShadow)) (idleClocks c s.tapShadow) s := by
  simp only [idlePhase, foldPending, beq_iff_eq]
  rfl

theorem idleClocks_ne_zero {c : Nat} (h : c ≠ 0) (S : TapSet) : idleClocks c S ≠ 0 := by
  unfold idleClocks; omega

/-- The clocks of `idle(c)`, `c > 0`, lead from either known shadow to Run-Test/Idle. -/
theorem walk_idleClocks {c : Nat} {s : State} (hc : c ≠ 0) (hk : ShadowKnown s) :
    walk s.tapShadow (List.replicate (idleClocks c s.tapShadow) false) = single .rti := by
  obtain hs | hs := hk
  · rw [hs, walk_single, foldl_next_rti_low]
  · rw [hs, walk_single, foldl_next_tlr_low (Nat.one_le_iff_ne_zero.mpr (idleClocks_ne_zero hc _))]

/-- Settles O14: `idle(0)` returns at once; otherwise the TMS-0 walk. -/
theorem idleResult : Obligations.IdleResult := by
  refine ⟨fun s hf => execIdle_zero hf, ?_⟩
  intro s cycles ha hk hc k bytes hw
  have hn := count_toNat_ne_zero hc
  rw [execIdle_accepted ha hk hc, idlePhase_eq, shiftTmsPhase_ok (idleClocks_ne_zero hn _) hw, bufBits_zeroBits,
    walk_idleClocks hn hk, bufBit_zeroBits, tmsBytes_zeroBits, Flow.returnedEmpty_run]
  rfl

end Sys2Proof.Machine
end

section
/-! The commands of the scans (42_tap_controller.md R160, R161, R164): an entry walk of one command, the data phase and
the exit walk, said once for the IR and the DR column. -/

namespace Sys2Proof.Machine

open Sys2Proof Sys2Proof.Safety

/-! ## The two columns of a scan (10_state.md R26, 42_tap_controller.md R160) -/

/-- Which column of the TAP state machine a scan enters. -/
inductive Column where
  | ir
  | dr

namespace Column

/-- The entry walk as the block holds it. -/
def entry : Column → Byte
  | ir => entryIr
  | dr => entryDr

/-- The TMS bits of the entry walk. -/
def walked : Column → List Bool
  | ir => [true, true, false, false]
  | dr => [true, false, false]

/-- How many clocks the entry walk takes. -/
def clocks : Column → Nat
  | ir => 4
  | dr => 3

/-- The column's shift state, where the entry walk ends. -/
def shift : Column → TapState
  | ir => .shIr
  | dr => .shDr

/-- The column's first exit state, where a data shift ends. -/
def exit1 : Column → TapState
  | ir => .ex1Ir
  | dr => .ex1Dr

/-- The TX bytes of the entry walk. -/
def entryBytes : Column → Params → TapSet → List Byte
  | ir => entryIrBytes
  | dr => entryDrBytes

/-- The TX bytes of the column's scan that captures nothing. -/
def shiftScanBytes (c : Column) (p : Params) (S : TapSet) (data : List Byte) (n : Nat) : List Byte :=
  c.entryBytes p S ++ shiftBytes p data n ++ exitBytes p

/-- The column's scan that captures nothing. -/
def shiftInstr : Column → Count → List Byte → Instr
  | ir => .shiftIr
  | dr => .shiftDr

/-- The column's scan that captures. -/
def transferInstr : Column → Count → List Byte → Instr
  | ir => .transferIr
  | dr => .transferDr

/-- The one command of the entry walk, folded from `{TLR}` (42_tap_controller.md R161). -/
def entryCommand (c : Column) (S : TapSet) : Instr :=
  .tmsOut (lenField (c.clocks + foldClocks S)) (c.entry <<< foldClocks S)

/-- The commands of a scan up to the end of its data phase. -/
def front (c : Column) (capture : Bool) (data : List Byte) (n : Nat) (S : TapSet) : List Instr :=
  c.entryCommand S :: tdiPlan capture data n

end Column

/-- The one command of the exit walk. -/
def exitCommand : Instr := .tmsOut 1 exitSeq

/-! ## The walks (42_tap_controller.md R160, R161) -/

section
variable (c : Column)

theorem entryPhase_eq (s : State) : entryPhase c.entry c.clocks s = emitAll [c.entryCommand s.tapShadow] s := by
  unfold entryPhase foldPending Column.entryCommand foldClocks
  simp only [beq_iff_eq]
  split
  · cases c <;> rfl
  · cases c <;> rfl

theorem encode_entryCommand (p : Params) (S : TapSet) : encode p (c.entryCommand S) = c.entryBytes p S := by
  unfold Column.entryCommand foldClocks
  cases c with
  | ir =>
    change _ = entryIrBytes p S
    unfold entryIrBytes entryBytes
    split <;> rfl
  | dr =>
    change _ = entryDrBytes p S
    unfold entryDrBytes entryBytes
    split <;> rfl

/-- The entry walk's clocks, TDI 0 throughout. -/
theorem commandClocks_entry (S : TapSet) (pin : Bool) :
    commandClocks (c.entryCommand S) pin = entryClocks S c.walked := by
  unfold Column.entryCommand foldClocks entryClocks
  split
  · cases c <;> rfl
  · cases c <;> rfl

/-- The entry walk ends with the latch at 0. -/
theorem commandLatch_entry (S : TapSet) (pin : Bool) : commandLatch (c.entryCommand S) pin = false := by
  unfold Column.entryCommand foldClocks
  split
  · cases c <;> rfl
  · cases c <;> rfl

variable {c}

/-- From either known shadow the entry walk ends in the column's shift state, the TMS level 0. -/
theorem shadowCommand_entry {s : State} (hk : ShadowKnown s) :
    (shadowCommand (c.entryCommand s.tapShadow) s).tapShadow = single c.shift ∧
      (shadowCommand (c.entryCommand s.tapShadow) s).tmsShadow = .low := by
  simp only [Column.entryCommand, shadowCommand, clockTms_fold]
  obtain hs | hs := hk
  · rw [hs]
    cases c <;> exact ⟨walk_single _ _, rfl⟩
  · rw [hs]
    cases c <;> exact ⟨walk_single _ _, rfl⟩

variable (c)

theorem stepSet_shift_low : stepSet (single c.shift) .low = single c.shift := by
  cases c <;> exact stepLevel_single _ _

theorem stepSet_shift_high : stepSet (single c.shift) .high = single c.exit1 := by
  cases c <;> exact stepLevel_single _ _

/-- The data phase stays in the shift state up to its last clock. -/
theorem tdiShadow_shift (n : Nat) : tdiShadow n (single c.shift) .low = single c.exit1 := by
  have hstay : (fun S => stepSet S .low)^[n - 1] (single c.shift) = single c.shift :=
    Function.iterate_fixed (stepSet_shift_low c) (n - 1)
  rw [tdiShadow, hstay, stepSet_shift_high]

/-- The exit walk, from where the data phase ends. -/
theorem emitted_exit {s : State} (hs : s.tapShadow = single c.exit1) : emitted [exitCommand] s = { s with
    txLog := s.txLog ++ exitBytes s.params
    cmdQueue := s.cmdQueue ++ exitBytes s.params
    tapShadow := single .rti
    tmsShadow := .low
    writeFails := spendWrites 1 s.writeFails } := by
  have hwalk : (shadowCommand exitCommand s).tapShadow = single .rti := by
    simp only [exitCommand, shadowCommand, clockTms_fold, hs]
    cases c <;> exact walk_single _ _
  simp only [emitted, shadowCommands_cons, shadowCommands_nil, hwalk]
  rfl

end

/-! ## The commands up to the end of the data phase -/

section
variable {c : Column} {capture : Bool} {n : Nat} {data : List Byte} {s : State}

theorem front_length (S : TapSet) : (c.front capture data n S).length = tdiCommands n + 1 := by
  rw [Column.front, List.length_cons, tdiPlan_length]

theorem front_commands (hp : DataHolds n data) (S : TapSet) : Commands (c.front capture data n S) :=
  List.forall_mem_cons.mpr ⟨⟨rfl, rfl⟩, tdiPlan_commands capture hp.1 hp.2⟩

/-- The TX bytes of a scan up to the end of its data phase. -/
theorem front_bytes (hp : DataHolds n data) (p : Params) (S : TapSet) :
    (c.front capture data n S).flatMap (encode p) =
      c.entryBytes p S ++ (if capture then transferBytes p data n else shiftBytes p data n) := by
  rw [Column.front, List.flatMap_cons, encode_entryCommand, tdiPlan_bytes p capture hp.1 hp.2]
  cases capture <;> rfl

/-- A scan's data phase ends in the column's first exit state. -/
theorem emitted_front (hp : DataHolds n data) (hk : ShadowKnown s) :
    emitted (c.front capture data n s.tapShadow) s = { s with
      txLog := s.txLog ++ (c.front capture data n s.tapShadow).flatMap (encode s.params)
      cmdQueue := s.cmdQueue ++ (c.front capture data n s.tapShadow).flatMap (encode s.params)
      tapShadow := single c.exit1
      tmsShadow := .high
      writeFails := spendWrites (tdiCommands n + 1) s.writeFails } := by
  obtain ⟨hentry, hlow⟩ := shadowCommand_entry (c := c) hk
  obtain ⟨htap, hhigh⟩ := shadowCommands_tdi capture (shadowCommand (c.entryCommand s.tapShadow) s) hp.1 hp.2
  rw [hentry, hlow, tdiShadow_shift] at htap
  rw [emitted, front_length]
  simp only [Column.front, shadowCommands_cons, htap, hhigh]

end

end Sys2Proof.Machine
end

section
/-! Proofs about the results of the scans (42_tap_controller.md R164 to R167): the emitted commands, the read that an
idle engine answers, and the exit walk, which a failed read leaves out. -/

namespace Sys2Proof.Machine

open Sys2Proof Sys2Proof.Safety

/-! ## Scans (42_tap_controller.md R164 to R167) -/

section
variable (c : Column) (data : List Byte) (n : Nat) (s : State)

theorem emitAll_front (capture : Bool) : emitAll (c.front capture data n s.tapShadow) s =
    (entryPhase c.entry c.clocks s).andThen (emitAll (tdiPlan capture data n)) := by
  rw [entryPhase_eq]
  exact emitAll_append [c.entryCommand s.tapShadow] (tdiPlan capture data n) s

/-- A non-capturing scan is its commands. -/
theorem shiftScan_eq : shiftScan c.entry c.clocks data n s =
    (emitAll (c.front false data n s.tapShadow) s).andThen (emitAll [exitCommand]) := by
  rw [emitAll_front]
  rfl

/-- A capturing scan makes its read between its commands. -/
theorem transferScan_eq : transferScan c.entry c.clocks data n s =
    ((emitAll (c.front true data n s.tapShadow) s).andThen fun t =>
      receive (expectedReplies n) (rebuild t.params.captureJustify n) t).andThen (emitAll [exitCommand]) := by
  rw [emitAll_front, Flow.andThen_assoc (entryPhase _ _ s)]
  rfl

theorem exec_shiftInstr (count : Count) : exec (c.shiftInstr count data) s =
    checked count.toNat data true true (fun s => (shiftScan c.entry c.clocks data count.toNat s).returnedEmpty) s := by
  cases c <;> rfl

theorem exec_transferInstr (count : Count) : exec (c.transferInstr count data) s =
    checked count.toNat data true true (fun s => (transferScan c.entry c.clocks data count.toNat s).returned) s := by
  cases c <;> rfl

end

section
variable {c : Column} {count : Count} {n : Nat} {data : List Byte} {s : State}

theorem exec_shiftInstr_accepted (ha : Accepting s) (hp : PayloadOk count data) (hk : ShadowKnown s) :
    exec (c.shiftInstr count data) s = (shiftScan c.entry c.clocks data count.toNat s).returnedEmpty := by
  rw [exec_shiftInstr, checked_run ha.1 (contractCheck_scan ha hp hk)]

theorem exec_transferInstr_accepted (ha : Accepting s) (hp : PayloadOk count data) (hk : ShadowKnown s) :
    exec (c.transferInstr count data) s = (transferScan c.entry c.clocks data count.toNat s).returned := by
  rw [exec_transferInstr, checked_run ha.1 (contractCheck_scan ha hp hk)]

/-- A non-capturing scan whose writes succeed. -/
theorem shiftScan_ok (hw : WritesOk (tdiCommands n + 2) s) : shiftScan c.entry c.clocks data n s =
    .run (emitted [exitCommand] (emitted (c.front false data n s.tapShadow) s)) := by
  obtain ⟨hfront, hexit⟩ := writesOk_split (b := [exitCommand].length)
    (front_length (c := c) (capture := false) (data := data) s.tapShadow) hw
  rw [shiftScan_eq, emitAll_ok (by rwa [front_length]), Flow.andThen_run, emitAll_ok hexit]

theorem exec_shiftInstr_ok (ha : Accepting s) (hp : PayloadOk count data) (hk : ShadowKnown s)
    (hw : WritesOk (tdiCommands count.toNat + 2) s) :
    exec (c.shiftInstr count data) s = .next { s with
      txLog := s.txLog ++ c.shiftScanBytes s.params s.tapShadow data count.toNat
      cmdQueue := s.cmdQueue ++ c.shiftScanBytes s.params s.tapShadow data count.toNat
      tapShadow := single .rti
      tmsShadow := .low
      status := 0x00
      subcause := 0
      result := []
      writeFails := spendWrites (tdiCommands count.toNat + 2) s.writeFails } := by
  have hn := dataHolds_of_payloadOk hp
  rw [exec_shiftInstr_accepted ha hp hk, shiftScan_ok hw, emitted_front hn hk, emitted_exit c rfl,
    Flow.returnedEmpty_run, front_bytes hn]
  simp only [Column.shiftScanBytes, spendWrites_add, List.append_assoc]
  rfl

/-! ## The read of a capturing scan -/

/-- The engine's run of the entry walk, outside loopback. -/
theorem runCommand_entry (S : TapSet) (hl : s.loopback = false) : runCommand (c.entryCommand S) s = { s with
    tmsPin := false, taps := chainAfter s.taps (entryClocks S c.walked) } := by
  rw [← commandClocks_entry c S s.tmsPin, ← commandLatch_entry c S s.tmsPin, Column.entryCommand, runCommand,
    tmsCommand, tmsClocks_chain _ _ s hl]
  rfl

theorem executed_front (capture : Bool) (S : TapSet) : executed (c.front capture data n S) s =
    runCommands (tdiPlan capture data n) (runCommand (c.entryCommand S) (issued (c.front capture data n S) s)) := rfl

/-- The replies of a scan's data phase are exactly the expected ones (41_bit_engine_encoder.md R137). -/
theorem executed_front_replies (hp : DataHolds n data) (hi : EngineIdle s) (S : TapSet) :
    (executed (c.front true data n S) s).replyQueue.length = expectedReplies n := by
  have hentry : (runCommand (c.entryCommand S) (issued (c.front true data n S) s)).replyQueue = [] :=
    (tmsCommand_replyQueue _ _ _).trans hi.2
  rw [executed_front, runTransfer_replies _ hp.1 hp.2, hentry, List.length_nil, Nat.zero_add]

/-- Once its writes succeed, a capturing scan is its read and, if that succeeds, the exit walk. -/
theorem transferScan_reads (hw : WritesOk (tdiCommands n + 1) s) : transferScan c.entry c.clocks data n s =
    (receive (expectedReplies n) (rebuild s.params.captureJustify n)
      (emitted (c.front true data n s.tapShadow) s)).andThen (emitAll [exitCommand]) := by
  rw [transferScan_eq, emitAll_ok (by rwa [front_length]), Flow.andThen_run, emitted_params]

theorem exec_transferInstr_readFails (ha : Accepting s) (hp : PayloadOk count data) (hk : ShadowKnown s)
    (hw : WritesOk (tdiCommands count.toNat + 1) s) (hd : s.params.distinct) (hi : EngineIdle s)
    {rx : List Byte} {io : Bool} {err : ErrorKind}
    (hr : (transportRead (executed (c.front true data count.toNat s.tapShadow) s)).1 = (rx, io))
    (he : readError (expectedReplies count.toNat) rx io = some err) :
    ∃ t, exec (c.transferInstr count data) s = .next t ∧ TransportErrorState t err.code err.subcause ∧
      t.txLog = s.txLog ++ (c.entryBytes s.params s.tapShadow ++ transferBytes s.params data count.toNat) := by
  have hn := dataHolds_of_payloadOk hp
  obtain ⟨u, hu, -, htx, hf⟩ := receive_emitted_fails (rebuilt := rebuild s.params.captureJustify count.toNat) hd
    (front_commands hn s.tapShadow) hi.1 hr he
  rw [exec_transferInstr_accepted ha hp hk, transferScan_reads hw, hu]
  rw [front_bytes hn] at htx
  exact ⟨_, rfl, ⟨rfl, rfl, rfl, rfl, rfl, rfl, hf.trans ha.1⟩, htx⟩

/-! ## A capturing scan that succeeds -/

theorem executed_writeFails (is : List Instr) (s : State) :
    (executed is s).writeFails = (emitted is s).writeFails := by rw [executed, runCommands_frame]; rfl

theorem writesOk_congr {k : Nat} {s t : State} (h : s.writeFails = t.writeFails) : WritesOk k s ↔ WritesOk k t := by
  rw [WritesOk, WritesOk, h]

theorem transferScan_ok (hp : DataHolds n data) (hw : WritesOk (tdiCommands n + 2) s) (hd : s.params.distinct)
    (hi : EngineIdle s) (hr : ReadFull s) {u : State} (hu : executed (c.front true data n s.tapShadow) s = u) :
    transferScan c.entry c.clocks data n s = .run (emitted [exitCommand] { u with
      replyQueue := []
      readDraws := s.readDraws.tail
      rxLog := s.rxLog ++ u.replyQueue
      result := rebuild s.params.captureJustify n u.replyQueue }) := by
  obtain ⟨hfront, hexit⟩ := writesOk_split (b := [exitCommand].length)
    (front_length (c := c) (capture := true) (data := data) s.tapShadow) hw
  have hlen : u.replyQueue.length = expectedReplies n := by rw [← hu, executed_front_replies hp hi]
  have hfails : u.writeFails = (emitted (c.front true data n s.tapShadow) s).writeFails := by
    rw [← hu, executed_writeFails]
  rw [transferScan_reads hfront, receive_emitted hd (front_commands hp _) hi.1 hu hr hlen, Flow.andThen_run]
  exact emitAll_ok ((writesOk_congr hfails).mpr hexit)

/-- The engine's run of a capturing scan up to the end of its data phase: the chain's clocks, and the samples of the
data clocks as they are packed into the replies. -/
theorem executed_front_chain (hp : DataHolds n data) (hk : ShadowKnown s) (hl : s.loopback = false)
    (hi : EngineIdle s) :
    ∃ rx, rx.length = expectedReplies n ∧
      HoldsSamples (rebuild s.params.captureJustify n rx) n
        (samplesOf (chainAfter s.taps (entryClocks s.tapShadow c.walked)) (tdiClocks data n false)) ∧
      executed (c.front true data n s.tapShadow) s = { s with
        txLog := s.txLog ++ (c.entryBytes s.params s.tapShadow ++ transferBytes s.params data n)
        cmdQueue := []
        replyQueue := rx
        tapShadow := single c.exit1
        tmsShadow := .high
        tmsPin := true
        taps := chainAfter s.taps (entryClocks s.tapShadow c.walked ++ tdiClocks data n false)
        writeFails := spendWrites (tdiCommands n + 1) s.writeFails
        freeCount := s.freeCount + partialReplies n } := by
  have hissued := runCommand_entry (c := c) s.tapShadow
    ((issued_loopback (c.front true data n s.tapShadow) s).trans hl)
  obtain ⟨whole, low, last, fill, fill', hwhole, hlow, hsamples, hrun⟩ :=
    runTransfer_chain (s := runCommand (c.entryCommand s.tapShadow) (issued (c.front true data n s.tapShadow) s))
      hp.1 hp.2 (by rw [runCommand_loopback]; exact hl)
  rw [hissued] at hsamples hrun
  refine ⟨repliesOf s.params.captureJustify whole low last fill fill', repliesOf_length hwhole hlow,
    hsamples ▸ rebuild_holdsSamples s.params.captureJustify last fill fill' hp.1 hwhole hlow, ?_⟩
  rw [executed_front, hissued, hrun, issued, emitted_front hp hk, front_bytes hp, chainAfter_append]
  simp only [hi.2, List.nil_append]
  rfl

theorem exec_transferInstr_ok (ha : Accepting s) (hp : PayloadOk count data) (hk : ShadowKnown s)
    (hw : WritesOk (tdiCommands count.toNat + 2) s) (hd : s.params.distinct) (hl : s.loopback = false)
    (hi : EngineIdle s) (hr : ReadFull s) :
    ∃ rx result, rx.length = expectedReplies count.toNat ∧
      HoldsSamples result count.toNat (samplesOf (chainAfter s.taps (entryClocks s.tapShadow c.walked))
        (tdiClocks data count.toNat false)) ∧
      exec (c.transferInstr count data) s = .next { s with
        txLog := s.txLog ++
          (c.entryBytes s.params s.tapShadow ++ transferBytes s.params data count.toNat ++ exitBytes s.params)
        rxLog := s.rxLog ++ rx
        cmdQueue := exitBytes s.params
        tapShadow := single .rti
        tmsShadow := .low
        status := 0x00
        subcause := 0
        result := result
        tmsPin := true
        taps := chainAfter s.taps (entryClocks s.tapShadow c.walked ++ tdiClocks data count.toNat false)
        writeFails := spendWrites (tdiCommands count.toNat + 2) s.writeFails
        readDraws := s.readDraws.tail
        freeCount := s.freeCount + partialReplies count.toNat } := by
  have hn := dataHolds_of_payloadOk hp
  obtain ⟨rx, hlen, hsamples, hrun⟩ := executed_front_chain (c := c) hn hk hl hi
  refine ⟨rx, _, hlen, hsamples, ?_⟩
  rw [exec_transferInstr_accepted ha hp hk, transferScan_ok hn hw hd hi hr hrun, emitted_exit c rfl, Flow.returned_run]
  simp only [hi.2, spendWrites_add, List.append_assoc, List.nil_append]
  rfl

end

/-! ## The statements about both columns -/

/-- Settles O15: for either column, the emitted commands' bytes and shadows. -/
theorem shiftScanResult : Obligations.ShiftScanResult := fun _ _ _ ha hp hk hw =>
  ⟨exec_shiftInstr_ok (c := .ir) ha hp hk hw, exec_shiftInstr_ok (c := .dr) ha hp hk hw⟩

/-- Settles O22: each answer's verdict, for either column. -/
theorem failedReadSkipsTheExitWalk : Obligations.FailedReadSkipsTheExitWalk := by
  intro s count data draw later ha hp hk hw hd hi hdraw bytes ends
  have hends {err : ErrorKind} (hfails : ∀ c : Column, ∃ rx io,
      (transportRead (executed (c.front true data count.toNat s.tapShadow) s)).1 = (rx, io) ∧
        readError (expectedReplies count.toNat) rx io = some err) : ends err.code err.subcause := by
    obtain ⟨_, _, hir, hirErr⟩ := hfails .ir
    obtain ⟨_, _, hdr, hdrErr⟩ := hfails .dr
    exact ⟨exec_transferInstr_readFails ha hp hk hw hd hi hir hirErr,
      exec_transferInstr_readFails ha hp hk hw hd hi hdr hdrErr⟩
  have hdraws (c : Column) := (executed_readDraws (c.front true data count.toNat s.tapShadow) s).trans hdraw
  refine ⟨?_, ?_, ?_, ?_⟩
  · rintro k rfl hlt
    exact hends fun c => ⟨_, _, transportRead_short (hdraws c), readError_short (by
      rw [List.length_take, executed_front_replies (dataHolds_of_payloadOk hp) hi]; omega)⟩
  · rintro b rfl hlt
    exact hends fun c => ⟨_, _, transportRead_bytes (hdraws c), readError_short hlt⟩
  · rintro b rfl hgt
    exact hends fun c => ⟨_, _, transportRead_bytes (hdraws c), readError_excess hgt⟩
  · rintro k rfl
    exact hends fun c => ⟨_, _, transportRead_ioError (hdraws c), readError_ioError _ _⟩

/-- Settles O16: for either column, the engine's run, the full answer and the exit walk after it. -/
theorem transferScanResult : Obligations.TransferScanResult := fun _ _ _ ha hp hk hw hd hl hi hr =>
  ⟨exec_transferInstr_ok (c := .ir) ha hp hk hw hd hl hi hr,
    exec_transferInstr_ok (c := .dr) ha hp hk hw hd hl hi hr⟩

end Sys2Proof.Machine
end

section
/-! Proofs about the shadows that a TAP-level operation leaves if it succeeds (42_tap_controller.md R168): its commands
were all written, whatever else the environment did. -/

namespace Sys2Proof.Machine

open Sys2Proof Sys2Proof.Safety

/-! ## Scans -/

/-- A read that succeeds leaves the shadow. -/
theorem receive_run_tapShadow {expected : Nat} {rebuilt : List Byte → List Byte} {s t : State}
    (h : receive expected rebuilt s = .run t) : t.tapShadow = s.tapShadow := by
  obtain ⟨r, hr⟩ | ⟨rx, io, left, draws, ⟨-, hr⟩ | ⟨e, -, hr⟩⟩ := receive_cases expected rebuilt s
  · cases h.symm.trans hr
  · rw [Flow.run.inj (h.symm.trans hr)]
    exact engineDrain_tapShadow s
  · cases h.symm.trans hr

section
variable {c : Column} {count : Count} {n : Nat} {data : List Byte} {s t u : State}

/-- The end of every scan that succeeds: Run-Test/Idle with TMS 0. -/
def EndsIdle (t : State) : Prop := t.tapShadow = single .rti ∧ t.tmsShadow = .low

theorem exit_run_endsIdle (hs : s.tapShadow = single c.exit1) (h : emitAll [exitCommand] s = .run u) : EndsIdle u := by
  rw [emitted_of_emitAll_run h, emitted_exit c hs]
  exact ⟨rfl, rfl⟩

/-- The first phases of a scan, run through, leave the shadow in the column's first exit state. -/
theorem front_run_tapShadow {capture : Bool} (hp : DataHolds n data) (hk : ShadowKnown s)
    (h : emitAll (c.front capture data n s.tapShadow) s = .run u) : u.tapShadow = single c.exit1 := by
  rw [emitted_of_emitAll_run h, emitted_front hp hk]

theorem shiftScan_run_endsIdle (hp : DataHolds n data) (hk : ShadowKnown s)
    (h : shiftScan c.entry c.clocks data n s = .run u) : EndsIdle u := by
  rw [shiftScan_eq] at h
  obtain ⟨v, hfront, hexit⟩ := Flow.andThen_eq_run.mp h
  exact exit_run_endsIdle (front_run_tapShadow hp hk hfront) hexit

theorem transferScan_run_endsIdle (hp : DataHolds n data) (hk : ShadowKnown s)
    (h : transferScan c.entry c.clocks data n s = .run u) : EndsIdle u := by
  rw [transferScan_eq] at h
  obtain ⟨w, hdata, hexit⟩ := Flow.andThen_eq_run.mp h
  obtain ⟨v, hfront, hread⟩ := Flow.andThen_eq_run.mp hdata
  exact exit_run_endsIdle ((receive_run_tapShadow hread).trans (front_run_tapShadow hp hk hfront)) hexit

theorem shiftInstr_succeeds (h : exec (c.shiftInstr count data) s = .next t) (ok : t.status = statusOk) :
    EndsIdle t := by
  rw [exec_shiftInstr] at h
  obtain ⟨-, hc, hb⟩ := checked_succeeds h ok
  obtain ⟨-, hp, hk⟩ := contractCheck_none.mp hc
  obtain ⟨u, hu, rfl⟩ :=
    Flow.returnedEmpty_succeeds (shiftScan_follows phaseFrame_stepwise c.entry c.clocks (hp rfl) s) hb ok
  exact shiftScan_run_endsIdle (u := u) (hp rfl) (hk rfl) hu

theorem transferInstr_succeeds (h : exec (c.transferInstr count data) s = .next t) (ok : t.status = statusOk) :
    EndsIdle t := by
  rw [exec_transferInstr] at h
  obtain ⟨-, hc, hb⟩ := checked_succeeds h ok
  obtain ⟨-, hp, hk⟩ := contractCheck_none.mp hc
  obtain ⟨u, hu, rfl⟩ :=
    Flow.returned_succeeds (transferScan_follows phaseFrame_stepwise c.entry c.clocks (hp rfl) s) hb ok
  exact transferScan_run_endsIdle (u := u) (hp rfl) (hk rfl) hu

/-! ## TAP_RESET and IDLE -/

/-- A TMS walk that runs to its end leaves the walk's shadows, whatever the writes did. -/
theorem shiftTmsPhase_run_shadows (hn : n ≠ 0)
    (h : shiftTmsPhase data n s = .run u) :
    u.tapShadow = walk s.tapShadow (bufBits data n) ∧ u.tmsShadow = .ofBool (bufBit data (n - 1)) := by
  rw [emitted_of_emitAll_run h]
  exact shadowCommands_tms s hn

/-- An operation that is one TMS walk, if it succeeds, leaves the walk's shadows. -/
theorem shiftTmsPhase_succeeds (hn : n ≠ 0)
    (h : (shiftTmsPhase data n s).returnedEmpty = .next t) (ok : t.status = statusOk) :
    t.tapShadow = walk s.tapShadow (bufBits data n) ∧ t.tmsShadow = .ofBool (bufBit data (n - 1)) := by
  obtain ⟨u, hu, rfl⟩ := Flow.returnedEmpty_succeeds (shiftTmsPhase_follows phaseFrame_stepwise data n s) h ok
  exact shiftTmsPhase_run_shadows (u := u) hn hu

theorem tapReset_succeeds (h : exec .tapReset s = .next t) (ok : t.status = statusOk) (hS : s.tapShadow ≠ 0) :
    t.tapShadow = single .tlr := by
  obtain ⟨-, -, hb⟩ := checked_succeeds (show execTapReset s = _ from h) ok
  obtain ⟨htap, -⟩ := shiftTmsPhase_succeeds (by decide) hb ok
  rw [htap, walk_resetSeq hS]

theorem idle_succeeds (hc : count ≠ 0) (h : exec (.idle count) s = .next t) (ok : t.status = statusOk) :
    EndsIdle t := by
  have hn := count_toNat_ne_zero hc
  rw [execIdle_checked hc] at h
  obtain ⟨-, hcheck, hb⟩ := checked_succeeds h ok
  obtain ⟨-, -, hk⟩ := contractCheck_none.mp hcheck
  rw [idlePhase_eq] at hb
  obtain ⟨htap, htms⟩ := shiftTmsPhase_succeeds (idleClocks_ne_zero hn _) hb ok
  rw [bufBits_zeroBits, walk_idleClocks hn (hk rfl)] at htap
  rw [bufBit_zeroBits] at htms
  exact ⟨htap, htms⟩

theorem idle_zero_shadows (h : exec (.idle 0) s = .next t) :
    t.tapShadow = s.tapShadow ∧ t.tmsShadow = s.tmsShadow := by
  cases hf : s.fault with
  | some k => rw [exec_stuck rfl hf] at h; cases h
  | none =>
    rw [execIdle_zero hf] at h
    obtain rfl := Host.Outcome.next.inj h
    exact ⟨rfl, rfl⟩

end

/-- Settles O18: operation by operation. -/
theorem successfulTapOperationEndsIdle : Obligations.SuccessfulTapOperationEndsIdle := by
  intro s t i h ok
  refine ⟨?reset, ?scan, ?idle, ?idleZero⟩
  case reset =>
    rintro rfl hS
    exact tapReset_succeeds h ok hS
  case scan =>
    rintro count data (rfl | rfl | rfl | rfl)
    · exact shiftInstr_succeeds (c := .ir) h ok
    · exact transferInstr_succeeds (c := .ir) h ok
    · exact shiftInstr_succeeds (c := .dr) h ok
    · exact transferInstr_succeeds (c := .dr) h ok
  case idle =>
    rintro cycles rfl hc
    exact idle_succeeds hc h ok
  case idleZero =>
    rintro rfl
    exact idle_zero_shadows h

end Sys2Proof.Machine
end

section
/-! Proofs about one clock of a TAP (45_reference_target.md R195, R196, R199, R200): the register that an instruction
selects, and the whole TAP after a clock. -/

namespace Sys2Proof.Machine

open Sys2Proof Sys2Proof.Safety

/-! ## The selected data register (45_reference_target.md R196) -/

section
variable {t : Tap}

theorem Tap.legal_echoInstr {e : Nat} (hl : t.legal = true) (h : t.echoInstr = some e) :
    e < 2 ^ t.irLength - 1 ∧ e ≠ t.idcodeInstr := by
  simp only [Tap.legal, h, Bool.and_eq_true, decide_eq_true_eq, bne_iff_ne] at hl
  exact hl.2

theorem Tap.selected_allOnes (h : t.ir = 2 ^ t.irLength - 1) : t.selected = .bypass := if_pos h

theorem Tap.selected_idcode (hl : t.legal = true) (h : t.ir = t.idcodeInstr) : t.selected = .idcode := by
  have hlt := Tap.legal_idcodeInstr hl
  rw [Tap.selected, if_neg (by omega), if_pos h]

theorem Tap.selected_echo (hl : t.legal = true) (h : t.echoInstr = some t.ir) : t.selected = .echo := by
  obtain ⟨hlt, hne⟩ := Tap.legal_echoInstr hl h
  rw [Tap.selected, if_neg (by omega), if_neg hne, if_pos h]

theorem Tap.selected_bypass (hi : t.ir ≠ t.idcodeInstr) (he : t.echoInstr ≠ some t.ir) : t.selected = .bypass := by
  rw [Tap.selected, if_neg hi, if_neg he, ite_self]

/-- The all-ones instruction is neither that of IDCODE nor that of ECHO. -/
theorem Tap.allOnes_ne (hl : t.legal = true) (h : t.ir = 2 ^ t.irLength - 1) :
    t.ir ≠ t.idcodeInstr ∧ t.echoInstr ≠ some t.ir := by
  have hlt := Tap.legal_idcodeInstr hl
  refine ⟨by omega, fun he => ?_⟩
  have := (Tap.legal_echoInstr hl he).1
  omega

end

/-! ## The TAP after a clock (45_reference_target.md R195) -/

/-- Outside the shift states nothing is shifted. -/
theorem Tap.shift_of_not_shifting {t : Tap} (tdi : Bool) (hi : t.state ≠ .shIr) (hd : t.state ≠ .shDr) :
    t.shift tdi = t := by
  rw [Tap.shift]
  cases h : t.state
  case shIr => exact absurd h hi
  case shDr => exact absurd h hd
  all_goals rfl

section
variable (t : Tap)

/-- The TAP after it enters a state. -/
theorem Tap.enter_eq (s : TapState) : t.enter s = { t with
    state := s
    ir := if s = .upIr then t.irSr else if s = .tlr then t.idcodeInstr else t.ir
    irSr := if s = .capIr then 1 else t.irSr
    drSr := if s = .capDr then t.captureValue else t.drSr
    echo := if s = .upDr ∧ t.selected = .echo then t.drSr else t.echo } := by
  cases s
  case upDr => rw [Tap.enter]; cases h : t.selected <;> rfl
  all_goals rfl

/-- The TAP after a clock. No clock both shifts and enters a state with an action of its own. -/
theorem Tap.clock_eq (tms tdi : Bool) : t.clock tms tdi = { t with
    state := t.state.next tms
    ir := if t.state.next tms = .upIr then t.irSr else if t.state.next tms = .tlr then t.idcodeInstr else t.ir
    irSr := if t.state = .shIr then shiftIn t.irLength t.irSr tdi
      else if t.state.next tms = .capIr then 1 else t.irSr
    drSr := if t.state = .shDr then shiftIn t.drWidth t.drSr tdi
      else if t.state.next tms = .capDr then t.captureValue else t.drSr
    echo := if t.state.next tms = .upDr ∧ t.selected = .echo then t.drSr else t.echo } := by
  by_cases hi : t.state = .shIr
  · rw [Tap.clock, Tap.enter_eq, Tap.shift, hi]
    cases tms <;> rfl
  by_cases hd : t.state = .shDr
  · rw [Tap.clock, Tap.enter_eq, Tap.shift, hd]
    cases tms <;> rfl
  rw [Tap.clock, Tap.shift_of_not_shifting tdi hi hd, Tap.enter_eq, if_neg hi, if_neg hd]

theorem Tap.clock_ir (tms tdi : Bool) : (t.clock tms tdi).ir = if t.state.next tms = .upIr then t.irSr
    else if t.state.next tms = .tlr then t.idcodeInstr else t.ir := by rw [Tap.clock_eq]

theorem Tap.clock_irSr (tms tdi : Bool) : (t.clock tms tdi).irSr =
    if t.state = .shIr then shiftIn t.irLength t.irSr tdi
    else if t.state.next tms = .capIr then 1 else t.irSr := by rw [Tap.clock_eq]

theorem Tap.clock_drSr (tms tdi : Bool) : (t.clock tms tdi).drSr =
    if t.state = .shDr then shiftIn t.drWidth t.drSr tdi
    else if t.state.next tms = .capDr then t.captureValue else t.drSr := by rw [Tap.clock_eq]

theorem Tap.clock_echo (tms tdi : Bool) : (t.clock tms tdi).echo =
    if t.state.next tms = .upDr ∧ t.selected = .echo then t.drSr else t.echo := by rw [Tap.clock_eq]

/-- A clock enters Capture-DR from outside Shift-DR. -/
theorem Tap.clock_captures {tms tdi : Bool} (h : (t.clock tms tdi).state = .capDr) :
    (t.clock tms tdi).drSr = t.captureValue := by
  rw [Tap.clock_state] at h
  have hd : t.state ≠ .shDr := fun hd => by rw [hd] at h; cases tms <;> cases h
  rw [Tap.clock_drSr, if_neg hd, if_pos h]

end

/-- Settles O53: the registers after a clock, with the width and the Capture value of the selected one. -/
theorem tapClockResult : Obligations.TapClockResult := by
  intro t tms tdi hl bypass u
  have hstate : u.state = t.state.next tms := Tap.clock_state t tms tdi
  have hdr : (t.state = .shDr → u.drSr = shiftIn t.drWidth t.drSr tdi) ∧
      (u.state = .capDr → u.drSr = t.captureValue) ∧
      u.echo = if u.state = .upDr ∧ t.selected = .echo then t.drSr else t.echo :=
    ⟨fun h => (Tap.clock_drSr t tms tdi).trans (if_pos h), Tap.clock_captures t,
      hstate ▸ Tap.clock_echo t tms tdi⟩
  refine ⟨Tap.allOnes_ne hl, hstate, Tap.clock_fixed t tms tdi, hstate ▸ Tap.clock_ir t tms tdi,
    hstate ▸ Tap.clock_irSr t tms tdi, fun hd hc => ?_, fun h => ?_, fun h => ?_, fun h => ?_⟩
  · exact (Tap.clock_drSr t tms tdi).trans ((if_neg hd).trans (if_neg (hstate ▸ hc)))
  · simpa [Tap.drWidth, Tap.captureValue, Tap.selected_idcode hl h, shiftIn] using hdr
  · simpa [Tap.drWidth, Tap.captureValue, Tap.selected_echo hl h, shiftIn] using hdr
  · simpa [Tap.drWidth, Tap.captureValue, Tap.selected_bypass h.1 h.2, shiftIn] using hdr

end Sys2Proof.Machine
end

section
/-! Proofs about runs of clocks of the reference chain (45_reference_target.md R193, R195, R199, R202): walks outside the
shift states move every TAP on its own, and in a shift state the chain is one shift register. -/

namespace Sys2Proof.Machine

open Sys2Proof Sys2Proof.Safety

/-! ## Test-Logic-Reset (45_reference_target.md R199) -/

/-- A clock that enters Test-Logic-Reset selects IDCODE. -/
theorem Tap.clock_resets {t : Tap} {tms tdi : Bool} (h : (t.clock tms tdi).state = .tlr) :
    (t.clock tms tdi).ir = (t.clock tms tdi).idcodeInstr := by
  rw [Tap.clock_state] at h
  rw [Tap.clock_eq, h]
  rfl

/-- Settles O33: the walk of five TMS-1 clocks ends in Test-Logic-Reset, which its last clock enters. -/
theorem fiveHighClocksResetEveryTap : Obligations.FiveHighClocksResetEveryTap := by
  intro taps tdi t ht
  have hin : ChainIn (single .tlr) (chainAfter taps (List.replicate 5 (true, tdi))) := by
    have hwalk := chainAfter_chainIn_walk (List.replicate 5 true) tdi (chainIn_allStates taps)
    rwa [fiveHighClocksReachReset allStates 0 (by decide), List.map_replicate] at hwalk
  have hstate : t.state = .tlr := by simpa [holds_single, eq_comm] using hin t ht
  rw [show List.replicate 5 (true, tdi) = List.replicate 4 (true, tdi) ++ [(true, tdi)] from rfl,
    chainAfter_append] at ht
  obtain ⟨u, -, d, rfl⟩ := mem_clockChain ht
  exact ⟨hstate, Tap.clock_resets hstate⟩

/-! ## Walks outside the shift states (45_reference_target.md R195) -/

/-- Whether every clock of a walk starts outside the shift states. -/
def walksOutside : TapState → List Bool → Bool
  | _, [] => true
  | s, b :: bs => s != .shIr && s != .shDr && walksOutside (s.next b) bs

/-- A TAP after it enters the states of a walk, one after another. -/
def Tap.walk : TapState → List Bool → Tap → Tap
  | _, [], t => t
  | s, b :: bs, t => Tap.walk (s.next b) bs (t.enter (s.next b))

theorem clockChain_outside {s : TapState} {taps : List Tap} (tms tdi : Bool) (hi : s ≠ .shIr) (hd : s ≠ .shDr)
    (h : ∀ t ∈ taps, t.state = s) : clockChain taps tms tdi = taps.map fun t => t.enter (s.next tms) := by
  induction taps with
  | nil => rfl
  | cons t ts ih =>
    obtain ⟨rfl, hts⟩ := List.forall_mem_cons.mp h
    rw [clockChain, ih hts, Tap.clock, Tap.shift_of_not_shifting _ hi hd]
    rfl

/-- A walk that starts no clock in a shift state moves every TAP on its own. -/
theorem chainAfter_walk {s : TapState} {taps : List Tap} (ts : List Bool) (tdi : Bool) (hw : walksOutside s ts = true)
    (h : ∀ t ∈ taps, t.state = s) : chainAfter taps (ts.map fun t => (t, tdi)) = taps.map (Tap.walk s ts) := by
  induction ts generalizing s taps with
  | nil => exact (List.map_id taps).symm
  | cons b bs ih =>
    simp only [walksOutside, Bool.and_eq_true, bne_iff_ne] at hw
    obtain ⟨⟨hi, hd⟩, hrest⟩ := hw
    rw [List.map_cons, chainAfter_cons, clockChain_outside b tdi hi hd h, ih hrest (by simp), List.map_map]
    rfl

/-! ## The bits of a register -/

/-- The low `w` bits of a number, bit 0 first. -/
def valueBits (w v : Nat) : List Bool := (List.range w).map v.testBit

@[simp] theorem valueBits_length (w v : Nat) : (valueBits w v).length = w := by simp [valueBits]

theorem valueBits_one {w : Nat} (h : 1 ≤ w) : valueBits w 1 = true :: List.replicate (w - 1) false := by
  obtain ⟨v, rfl⟩ := Nat.exists_eq_add_of_le' h
  rw [valueBits, List.range_succ_eq_map, List.map_cons, List.map_map, Nat.add_sub_cancel]
  refine congrArg (true :: ·) (List.eq_replicate_iff.mpr ⟨by simp, fun b hb => ?_⟩)
  obtain ⟨i, -, rfl⟩ := List.mem_map.mp hb
  simp [Nat.testBit_succ]

/-- A shift register moves one place: a bit leaves at its low end and one enters at its high end. -/
theorem valueBits_shiftIn {w r : Nat} (b : Bool) (hw : 1 ≤ w) (hr : r < 2 ^ w) :
    r.testBit 0 :: valueBits w (shiftIn w r b) = valueBits w r ++ [b] := by
  obtain ⟨v, rfl⟩ := Nat.exists_eq_add_of_le' hw
  have hbit (i : Nat) : (shiftIn (v + 1) r b).testBit i =
      (r.testBit (i + 1) || decide (v ≤ i) && b.toNat.testBit (i - v)) := by
    rw [shiftIn, Nat.testBit_or, Nat.testBit_shiftRight, Nat.testBit_shiftLeft, Nat.add_comm 1 i, Nat.add_sub_cancel]
  have hlow : (List.range v).map (shiftIn (v + 1) r b).testBit = (List.range v).map fun i => r.testBit (i + 1) :=
    List.map_congr_left fun i hi => by
      rw [hbit, decide_eq_false (Nat.not_le.mpr (List.mem_range.mp hi)), Bool.false_and, Bool.or_false]
  have htop : (shiftIn (v + 1) r b).testBit v = b := by
    rw [hbit, Nat.testBit_lt_two_pow hr]
    cases b <;> simp
  rw [valueBits, valueBits, List.range_succ, List.map_append, hlow, List.map_singleton, htop, ← List.range_succ,
    List.range_succ_eq_map, List.map_cons, List.map_map, List.cons_append]
  rfl

/-! ## Capture-IR (45_reference_target.md R202 (a)) -/

/-- Settles O34: the two clocks of the walk enter Capture-IR and Shift-IR. -/
theorem capturedIrPath : Obligations.CapturedIrPath := by
  intro taps tdi h
  have hwalk := chainAfter_walk (s := .selIr) [false, false] tdi (by decide) fun t ht => (h t ht).1
  rw [show [(false, tdi), (false, tdi)] = [false, false].map fun t => (t, tdi) from rfl, hwalk, irPath,
    List.flatMap_map]
  exact List.flatMap_congr fun t ht => valueBits_one (h t ht).2

/-! ## Shift states (45_reference_target.md R193 to R196) -/

namespace Column

/-- The width of the shift register that a TAP puts between its TDI and its TDO in the column's shift state. -/
def width : Column → Tap → Nat
  | ir => Tap.irLength
  | dr => Tap.drWidth

/-- The content of that register. -/
def value : Column → Tap → Nat
  | ir => Tap.irSr
  | dr => Tap.drSr

/-- The bits of a chain's registers in the order they come out at TDO. -/
def path (c : Column) (taps : List Tap) : List Bool := taps.flatMap fun t => valueBits (c.width t) (c.value t)

/-- The whole chain stands in the column's shift state, within its registers' widths. -/
def Shifting (c : Column) (taps : List Tap) : Prop := ChainFits taps ∧ ∀ t ∈ taps, t.state = c.shift

end Column

/-- What the clocks of a data shift keep of a TAP. -/
def Tap.kept (t : Tap) : (BitVec 32 × Nat × Nat × Option Nat × Nat) × Nat × Nat := (t.fixed, t.ir, t.echo)

section
variable {c : Column} {t : Tap}

theorem Column.value_lt (hf : t.fits = true) (h : t.state = c.shift) : c.value t < 2 ^ c.width t := by
  obtain ⟨-, hirSr, -, hdrSr⟩ := (Tap.fits_iff t).mp hf
  cases c with
  | ir => exact hirSr
  | dr => exact hdrSr (by rw [h]; rfl)

theorem Column.width_pos (c : Column) (hl : t.legal = true) : 1 ≤ c.width t := by
  cases c with
  | ir => exact Tap.legal_irLength hl
  | dr => exact Tap.legal_drWidth hl

theorem Column.width_congr (c : Column) {u : Tap} (h : u.kept = t.kept) : c.width u = c.width t := by
  simp only [Tap.kept, Prod.mk.injEq] at h
  obtain ⟨hfixed, hir, -⟩ := h
  cases c with
  | ir => exact congrArg (·.2.1) hfixed
  | dr => exact Tap.drWidth_congr hfixed hir

variable (h : t.state = c.shift) (tms tdi : Bool)
include h

theorem Column.tdo_shift : t.tdo = (c.value t).testBit 0 := by
  cases c <;> simp [Tap.tdo, h, Column.shift, Column.value]

theorem Tap.clock_shift_kept : (t.clock tms tdi).kept = t.kept := by
  rw [Tap.clock_eq, h]
  cases c <;> cases tms <;> rfl

theorem Column.value_clock : c.value (t.clock tms tdi) = shiftIn (c.width t) (c.value t) tdi := by
  cases c with
  | ir => exact (Tap.clock_irSr t tms tdi).trans (if_pos h)
  | dr => exact (Tap.clock_drSr t tms tdi).trans (if_pos h)

/-- One TAP in a clock of the column's shift state. -/
theorem Column.bits_clock (hl : t.legal = true) (hf : t.fits = true) :
    t.tdo :: valueBits (c.width (t.clock tms tdi)) (c.value (t.clock tms tdi)) =
      valueBits (c.width t) (c.value t) ++ [tdi] := by
  rw [Column.tdo_shift h, Column.value_clock h, c.width_congr (Tap.clock_shift_kept h tms tdi),
    valueBits_shiftIn tdi (c.width_pos hl) (Column.value_lt hf h)]

end

section
variable {c : Column} {taps : List Tap} (h : c.Shifting taps)
include h

theorem Column.Shifting.clock (tdi : Bool) : c.Shifting (clockChain taps false tdi) := by
  refine ⟨clockChain_fits false tdi h.1, fun u hu => ?_⟩
  obtain ⟨t, ht, d, rfl⟩ := mem_clockChain hu
  rw [Tap.clock_state, h.2 t ht]
  cases c <;> rfl

theorem Column.Shifting.clock_kept (tms tdi : Bool) : (clockChain taps tms tdi).map Tap.kept = taps.map Tap.kept := by
  obtain ⟨-, hs⟩ := h
  induction taps with
  | nil => rfl
  | cons t ts ih =>
    obtain ⟨ht, hts⟩ := List.forall_mem_cons.mp hs
    rw [clockChain, List.map_cons, List.map_cons, Tap.clock_shift_kept ht, ih hts]

/-- The chain in a clock of the shift state: each TAP's bit goes to its neighbour, and the last takes TDI. -/
theorem Column.Shifting.path_clock (tms tdi : Bool) :
    upstreamTdo taps tdi :: c.path (clockChain taps tms tdi) = c.path taps ++ [tdi] := by
  obtain ⟨hf, hs⟩ := h
  induction taps with
  | nil => rfl
  | cons t ts ih =>
    obtain ⟨⟨hl, hft⟩, hfts⟩ := List.forall_mem_cons.mp hf
    obtain ⟨ht, hts⟩ := List.forall_mem_cons.mp hs
    have hbits := Column.bits_clock ht tms (upstreamTdo ts tdi) hl hft
    calc t.tdo :: c.path (clockChain (t :: ts) tms tdi)
        = (t.tdo :: valueBits _ _) ++ c.path (clockChain ts tms tdi) := rfl
      _ = valueBits (c.width t) (c.value t) ++ (upstreamTdo ts tdi :: c.path (clockChain ts tms tdi)) := by
          rw [hbits, List.append_assoc]; rfl
      _ = c.path (t :: ts) ++ [tdi] := by rw [ih hfts hts, ← List.append_assoc]; rfl

/-- A clock of the shift state: the sample, then the bits left, are the bits before and then TDI. -/
theorem Column.Shifting.sample_clock (hne : taps ≠ []) (tms tdi : Bool) :
    chainTdo taps :: c.path (clockChain taps tms tdi) = c.path taps ++ [tdi] := by
  obtain ⟨t, ts, rfl⟩ := List.exists_cons_of_ne_nil hne
  exact h.path_clock tms tdi

end

theorem clockChain_ne_nil {taps : List Tap} (hne : taps ≠ []) (tms tdi : Bool) : clockChain taps tms tdi ≠ [] := by
  rwa [← List.length_pos_iff_ne_nil, clockChain_length, List.length_pos_iff_ne_nil]

/-- A run of clocks in the shift state: what was in comes out first, then what is shifted in. -/
theorem Column.Shifting.shift {c : Column} {taps : List Tap} (h : c.Shifting taps) (hne : taps ≠ [])
    (bits : List Bool) :
    samplesOf taps (bits.map fun b => (false, b)) ++ c.path (chainAfter taps (bits.map fun b => (false, b))) =
      c.path taps ++ bits := by
  induction bits generalizing taps with
  | nil => exact (List.append_nil _).symm
  | cons b bs ih =>
    rw [List.map_cons, samplesOf, chainAfter_cons, List.cons_append, ih (h.clock b) (clockChain_ne_nil hne _ _),
      ← List.cons_append, h.sample_clock hne, List.append_assoc, List.singleton_append]

/-- Settles O32: for either column, the samples are as many as the bits shifted in. -/
theorem chainIsOneShiftRegister : Obligations.ChainIsOneShiftRegister := by
  intro taps bits hne hf
  have hsplit (c : Column) (hs : ∀ t ∈ taps, t.state = c.shift) :
      samplesOf taps (bits.map fun b => (false, b)) = (c.path taps ++ bits).take bits.length ∧
        c.path (chainAfter taps (bits.map fun b => (false, b))) = (c.path taps ++ bits).drop bits.length := by
    have hlen : (samplesOf taps (bits.map fun b => (false, b))).length = bits.length := by simp
    rw [← Column.Shifting.shift ⟨hf, hs⟩ hne bits]
    exact ⟨(List.take_left' hlen).symm, (List.drop_left' hlen).symm⟩
  exact ⟨hsplit .dr, hsplit .ir⟩

end Sys2Proof.Machine
end

section
/-! The scans of a register access on a chain (42_tap_controller.md R160 to R167, 46_client_procedures.md R230, R231,
45_reference_target.md R202 (d)): the IR scan leaves the address in the target and the all-ones instruction elsewhere,
the DR scan reads and writes the target's register between the other TAPs' bypass bits. -/

namespace Sys2Proof.Machine

open Sys2Proof Sys2Proof.Safety

/-! ## A whole scan of a chain -/

theorem chainAfter_fits {taps : List Tap} (h : ChainFits taps) (cs : List (Bool × Bool)) :
    ChainFits (chainAfter taps cs) := by
  induction cs generalizing taps with
  | nil => exact h
  | cons k ks ih => exact ih (clockChain_fits k.1 k.2 h)

@[simp] theorem chainAfter_length (taps : List Tap) (cs : List (Bool × Bool)) :
    (chainAfter taps cs).length = taps.length := by
  induction cs generalizing taps with
  | nil => rfl
  | cons k ks ih => rw [chainAfter_cons, ih, clockChain_length]

/-- The clocks of the exit walk, TDI 0 throughout (42_tap_controller.md R160). -/
def exitClocks : List (Bool × Bool) := [(true, false), (false, false)]

/-- A TAP after the column's entry walk. -/
def Column.captured : Column → Tap → Tap
  | .ir, t => { t with state := .shIr, irSr := 1 }
  | .dr, t => { t with state := .shDr, drSr := t.captureValue }

@[simp] theorem Column.captured_kept (c : Column) (t : Tap) : (c.captured t).kept = t.kept := by cases c <;> rfl

@[simp] theorem Column.captured_state (c : Column) (t : Tap) : (c.captured t).state = c.shift := by cases c <;> rfl

theorem Column.path_length (c : Column) (taps : List Tap) : (c.path taps).length = (taps.map c.width).sum := by
  simp [Column.path, List.length_flatMap]

theorem tdiClocks_length {data : List Byte} {n : Nat} (hn : n ≠ 0) (pin : Bool) :
    (tdiClocks data n pin).length = n := by
  simp [tdiClocks, Nat.sub_add_cancel (Nat.one_le_iff_ne_zero.mpr hn)]

section
variable {c : Column} {taps : List Tap} {n : Nat} {data : List Byte}

theorem Column.entry_chain {s : TapState} (hs : s = .rti ∨ s = .tlr) (h : ∀ t ∈ taps, t.state = s) :
    chainAfter taps (entryClocks (single s) c.walked) = taps.map c.captured := by
  obtain rfl | rfl := hs
  · cases c <;> exact chainAfter_walk _ false (by decide) h
  · cases c <;> exact chainAfter_walk (false :: _) false (by decide) h

/-- From the shift state, the data clocks of a data shift keep the chain there. -/
theorem Column.Shifting.dataClocks (h : c.Shifting taps) (bits : List Bool) :
    c.Shifting (chainAfter taps (bits.map fun b => (false, b))) ∧
      (chainAfter taps (bits.map fun b => (false, b))).map Tap.kept = taps.map Tap.kept := by
  induction bits generalizing taps with
  | nil => exact ⟨h, rfl⟩
  | cons b bs ih =>
    obtain ⟨hshifting, hkept⟩ := ih (h.clock b)
    exact ⟨hshifting, hkept.trans (h.clock_kept false b)⟩

/-- A data shift from the shift state: what was in comes out first, then what is shifted in, and the chain ends in the
column's first exit state. -/
theorem Column.Shifting.dataShift (h : c.Shifting taps) (hne : taps ≠ []) (hn : n ≠ 0) :
    samplesOf taps (tdiClocks data n false) ++ c.path (chainAfter taps (tdiClocks data n false)) =
        c.path taps ++ bufBits data n ∧
      (chainAfter taps (tdiClocks data n false)).map Tap.kept = taps.map Tap.kept ∧
      ∀ t ∈ chainAfter taps (tdiClocks data n false), t.state = c.exit1 := by
  obtain ⟨m, rfl⟩ := Nat.exists_eq_succ_of_ne_zero hn
  obtain ⟨hlast, hkept⟩ := h.dataClocks (bufBits data m)
  have hmid := h.shift hne (bufBits data m)
  have hclocks : tdiClocks data (m + 1) false =
      (bufBits data m).map (fun b => (false, b)) ++ [(true, bufBit data m)] := rfl
  have hne' : chainAfter taps ((bufBits data m).map fun b => (false, b)) ≠ [] := by
    rwa [← List.length_pos_iff_ne_nil, chainAfter_length, List.length_pos_iff_ne_nil]
  rw [hclocks, samplesOf_append, chainAfter_append]
  generalize chainAfter taps ((bufBits data m).map fun b => (false, b)) = mid at hlast hkept hmid hne'
  refine ⟨?_, (hlast.clock_kept true _).trans hkept, fun u hu => ?_⟩
  · have hsample := hlast.sample_clock hne' true (bufBit data m)
    calc (samplesOf taps _ ++ [chainTdo mid]) ++ c.path (clockChain mid true (bufBit data m))
        = samplesOf taps _ ++ (c.path mid ++ [bufBit data m]) := by rw [List.append_assoc, ← hsample]; rfl
      _ = c.path taps ++ bufBits data (m + 1) := by
        rw [← List.append_assoc, hmid, List.append_assoc, ← bufBits_succ]
  · obtain ⟨t, ht, d, rfl⟩ := mem_clockChain hu
    rw [Tap.clock_state, hlast.2 t ht]
    cases c <;> rfl

/-- A scan of as many bits as the chain's registers hold, up to its exit walk: what was captured comes out, the payload
goes in. -/
theorem Column.scan_chain {s : TapState} (hs : s = .rti ∨ s = .tlr) (h : ∀ t ∈ taps, t.state = s)
    (hf : ChainFits taps) (hne : taps ≠ []) (hn : n ≠ 0) (hlen : (taps.map c.width).sum = n) :
    let entry := entryClocks (single s) c.walked
    let mid := chainAfter taps (entry ++ tdiClocks data n false)
    samplesOf (chainAfter taps entry) (tdiClocks data n false) = c.path (taps.map c.captured) ∧
      c.path mid = bufBits data n ∧ mid.map Tap.kept = taps.map Tap.kept ∧ ChainFits mid ∧
      ∀ t ∈ mid, t.state = c.exit1 := by
  intro entry mid
  have hentry : chainAfter taps entry = taps.map c.captured := Column.entry_chain hs h
  have hshifting : c.Shifting (taps.map c.captured) := ⟨hentry ▸ chainAfter_fits hf entry, by simp⟩
  obtain ⟨hbits, hkept, hstate⟩ := hshifting.dataShift (data := data) (by simpa using hne) hn
  have hmid : mid = chainAfter (taps.map c.captured) (tdiClocks data n false) := by
    rw [← hentry]; exact chainAfter_append _ _ _
  have hwidth : (taps.map c.captured).map c.width = taps.map c.width := by
    rw [List.map_map]
    exact List.map_congr_left fun t _ => c.width_congr (Column.captured_kept c t)
  have hsamples : (samplesOf (taps.map c.captured) (tdiClocks data n false)).length =
      (c.path (taps.map c.captured)).length := by
    rw [samplesOf_length, tdiClocks_length hn, Column.path_length, hwidth, hlen]
  obtain ⟨hout, hin⟩ := List.append_inj hbits hsamples
  rw [hentry, hmid]
  exact ⟨hout, hin, hkept.trans (by simp), hmid ▸ chainAfter_fits hf _, hstate⟩

/-- The exit walk moves every TAP on its own. -/
theorem Column.exit_chain (h : ∀ t ∈ taps, t.state = c.exit1) :
    chainAfter taps exitClocks = taps.map (Tap.walk c.exit1 [true, false]) :=
  chainAfter_walk [true, false] false (by cases c <;> rfl) h

end

end Sys2Proof.Machine
end

section
/-! The requests of a register access (46_client_procedures.md R230, R231) and what the two scans make of them on a chain
with the target between the TAPs before and after it. -/

namespace Sys2Proof.Machine

open Sys2Proof Sys2Proof.Safety

/-! ## Requests as bits -/

theorem bufBits_natBytes {w n : Nat} (v : Nat) (h : w ≤ 8 * n) : bufBits (natBytes n v) w = valueBits w v :=
  List.map_congr_left fun i hi => by
    have := List.mem_range.mp hi
    rw [natBytes_bufBit, decide_eq_true (by omega), Bool.true_and]

/-- The bits of a number in three fields, the outer two constant. -/
theorem valueBits_fields {a b d v m : Nat} {x y : Bool} (hlow : ∀ i < a, v.testBit i = x)
    (hmid : ∀ i < b, v.testBit (a + i) = m.testBit i) (hhigh : ∀ i < d, v.testBit (a + b + i) = y) :
    valueBits (a + b + d) v = List.replicate a x ++ (valueBits b m ++ List.replicate d y) := by
  have hconst (k : Nat) (f : Nat → Bool) (z : Bool) (h : ∀ i < k, f i = z) :
      (List.range k).map f = List.replicate k z := by
    rw [List.map_congr_left fun i hi => h i (List.mem_range.mp hi), List.map_const', List.length_range]
  rw [valueBits, List.range_add, List.range_add, List.map_append, List.map_append, List.map_map, List.map_map,
    hconst a _ x hlow, hconst d (v.testBit ∘ fun i => a + b + i) y hhigh, List.append_assoc]
  exact congrArg (fun l => _ ++ (l ++ _)) (List.map_congr_left fun i hi => hmid i (List.mem_range.mp hi))

/-- The layout of the IR value (46_client_procedures.md R230). -/
theorem irValue_testBit (c : ChainParameters) {address : Nat} (h : address < 2 ^ c.irLength) (i : Nat) :
    (irValue c address).testBit i =
      (if i < c.irPre then true
      else if i < c.irPre + c.irLength then address.testBit (i - c.irPre)
      else decide (i < c.irPre + c.irLength + c.irPost)) := by
  simp only [irValue, Nat.testBit_or, Nat.testBit_shiftLeft, Nat.testBit_two_pow_sub_one]
  split
  · simp [*]
  split
  · simp [*, Nat.not_lt.mp ‹¬ i < c.irPre›, Nat.not_le.mpr ‹i < c.irPre + c.irLength›]
  · have hhigh : address.testBit (i - c.irPre) = false :=
      Nat.testBit_lt_two_pow (h.trans_le (Nat.pow_le_pow_right (by decide) (by omega)))
    rw [hhigh, decide_eq_false ‹¬ i < c.irPre›, Bool.and_false, Bool.false_or, Bool.false_or, ← Bool.decide_and]
    exact decide_eq_decide.mpr (by omega)

theorem valueBits_irValue (c : ChainParameters) {address : Nat} (h : address < 2 ^ c.irLength) :
    valueBits (c.irPre + c.irLength + c.irPost) (irValue c address) =
      List.replicate c.irPre true ++ (valueBits c.irLength address ++ List.replicate c.irPost true) := by
  refine valueBits_fields (fun i hi => ?_) (fun i hi => ?_) fun i hi => ?_
  · rw [irValue_testBit c h, if_pos hi]
  · rw [irValue_testBit c h, if_neg (by omega), if_pos (by omega), Nat.add_sub_cancel_left]
  · rw [irValue_testBit c h, if_neg (by omega), if_neg (by omega), decide_eq_true (by omega)]

/-- The layout of the DR request (46_client_procedures.md R231). -/
theorem valueBits_drValue (c : ChainParameters) (value len : Nat) :
    valueBits (c.drPre + len + c.drPost) (drValue c value len) =
      List.replicate c.drPre false ++ (valueBits len (value % 2 ^ len) ++ List.replicate c.drPost false) := by
  have hbit (i : Nat) : (drValue c value len).testBit i =
      (decide (c.drPre ≤ i) && (decide (i - c.drPre < len) && value.testBit (i - c.drPre))) := by
    rw [drValue, Nat.testBit_shiftLeft, Nat.testBit_mod_two_pow]
  refine valueBits_fields (fun i hi => ?_) (fun i hi => ?_) fun i hi => ?_
  · rw [hbit, decide_eq_false (by omega), Bool.false_and]
  · rw [hbit, decide_eq_true (by omega), Nat.add_sub_cancel_left, Bool.true_and, Nat.testBit_mod_two_pow]
  · rw [hbit, decide_eq_false (show ¬ c.drPre + len + i - c.drPre < len by omega), Bool.false_and, Bool.and_false]

theorem valueBits_inj {w a b : Nat} (ha : a < 2 ^ w) (hb : b < 2 ^ w) (h : valueBits w a = valueBits w b) : a = b := by
  refine Nat.eq_of_testBit_eq fun i => ?_
  by_cases hi : i < w
  · exact List.map_inj_left.mp h i (List.mem_range.mpr hi)
  · have hpow : 2 ^ w ≤ 2 ^ i := Nat.pow_le_pow_right (by decide) (Nat.not_lt.mp hi)
    rw [Nat.testBit_lt_two_pow (ha.trans_le hpow), Nat.testBit_lt_two_pow (hb.trans_le hpow)]

theorem valueBits_allOnes (w : Nat) : valueBits w (2 ^ w - 1) = List.replicate w true := by
  simpa [valueBits] using valueBits_fields (a := w) (b := 0) (d := 0) (m := 0) (y := true) (x := true)
    (v := 2 ^ w - 1) (fun i hi => by simp [hi]) nofun nofun

/-! ## A chain around its target -/

/-- A TAP with an instruction. -/
def Tap.withIr (t : Tap) (ir : Nat) : Tap := { t with ir := ir }

/-- A TAP with the all-ones instruction. -/
def Tap.bypassed (t : Tap) : Tap := t.withIr (2 ^ t.irLength - 1)

/-- A chain whose target holds an address and whose other TAPs are bypassed. -/
def addressedChain (address : Nat) (pre : List Tap) (target : Tap) (post : List Tap) : List Tap :=
  pre.map Tap.bypassed ++ target.withIr address :: post.map Tap.bypassed

section
variable {β : Type} {f : Tap → β}

/-- A chain that looks like another splits where the other does. -/
theorem map_eq_around {taps pre post : List Tap} {target : Tap} (h : taps.map f = (pre ++ target :: post).map f) :
    ∃ pre' target' post', taps = pre' ++ target' :: post' ∧ pre'.map f = pre.map f ∧ f target' = f target ∧
      post'.map f = post.map f := by
  rw [List.map_append, List.map_cons, List.map_eq_append_iff] at h
  obtain ⟨pre', rest, rfl, hpre, hrest⟩ := h
  obtain ⟨target', post', rfl, htarget, hpost⟩ := List.map_eq_cons_iff.mp hrest
  exact ⟨pre', target', post', rfl, hpre, htarget, hpost⟩

/-- What depends on one part of a TAP is the same on chains that agree in that part. -/
theorem map_eq_of_map_eq {γ : Type} {g : Tap → γ} (hg : ∀ t u : Tap, f t = f u → g t = g u) {as bs : List Tap}
    (h : as.map f = bs.map f) : as.map g = bs.map g := by
  induction as generalizing bs with
  | nil => rw [List.map_eq_nil_iff.mp h.symm]
  | cons a as ih =>
    obtain ⟨b, bs, rfl, hb, hbs⟩ := List.map_eq_cons_iff.mp h.symm
    rw [List.map_cons, List.map_cons, hg a b hb.symm, ih hbs.symm]

end

/-- The bits of a chain around its target. -/
theorem Column.path_around {c : Column} {pre post : List Tap} {target : Tap} {low mid high : List Bool}
    (h : c.path (pre ++ target :: post) = low ++ (mid ++ high)) (hlow : low.length = (pre.map c.width).sum)
    (hmid : mid.length = c.width target) :
    c.path pre = low ∧ valueBits (c.width target) (c.value target) = mid ∧ c.path post = high := by
  have hpath : c.path (pre ++ target :: post) =
      c.path pre ++ (valueBits (c.width target) (c.value target) ++ c.path post) := by
    simp [Column.path, List.flatMap_append, List.flatMap_cons]
  rw [hpath] at h
  obtain ⟨hpre, hrest⟩ := List.append_inj h ((c.path_length pre).trans hlow.symm)
  obtain ⟨htarget, hpost⟩ := List.append_inj hrest ((valueBits_length _ _).trans hmid.symm)
  exact ⟨hpre, htarget, hpost⟩

/-! ## After the IR scan -/

/-- TAPs whose instruction path is all ones hold the all-ones instruction. -/
theorem irSr_of_path_ones {taps : List Tap} {k : Nat} (hf : ChainFits taps)
    (h : Column.ir.path taps = List.replicate k true) {t : Tap} (ht : t ∈ taps) : t.irSr = 2 ^ t.irLength - 1 := by
  obtain ⟨-, hirSr, -, -⟩ := (Tap.fits_iff t).mp (hf t ht).2
  refine valueBits_inj hirSr (Nat.sub_lt (Nat.two_pow_pos _) Nat.one_pos) ?_
  rw [valueBits_allOnes]
  refine List.eq_replicate_iff.mpr ⟨valueBits_length _ _, fun b hb => ?_⟩
  have hmem : b ∈ Column.ir.path taps := List.mem_flatMap.mpr ⟨t, ht, hb⟩
  rw [h] at hmem
  exact List.eq_of_mem_replicate hmem

/-- The exit walk of the IR scan takes the instruction over. -/
theorem Tap.walk_exitIr (t : Tap) : Tap.walk .ex1Ir [true, false] t = { t with state := .rti, ir := t.irSr } := rfl

/-- Chains that agree in what a data shift keeps, the first with all-ones in its instruction path. -/
theorem map_exitIr_bypassed {us taps : List Tap} {k : Nat} (hf : ChainFits us)
    (hk : us.map Tap.kept = taps.map Tap.kept) (h : Column.ir.path us = List.replicate k true) :
    (us.map (Tap.walk .ex1Ir [true, false])).map Tap.kept = (taps.map Tap.bypassed).map Tap.kept := by
  have hbypassed : us.map (Tap.kept ∘ Tap.bypassed) = taps.map (Tap.kept ∘ Tap.bypassed) :=
    map_eq_of_map_eq (fun t u htu => by
      simp only [Tap.kept, Tap.fixed, Prod.mk.injEq] at htu
      simp [Tap.kept, Tap.fixed, Tap.bypassed, Tap.withIr, htu]) hk
  rw [List.map_map, List.map_map, ← hbypassed]
  exact List.map_congr_left fun t ht => by
    rw [Function.comp, Tap.walk_exitIr, irSr_of_path_ones hf h ht]; rfl

/-- After an IR scan of ones, an address and ones, the target holds the address and the other TAPs are bypassed. -/
theorem irScan_addresses {us pre post : List Tap} {target : Tap} {address : Nat} (hf : ChainFits us)
    (hk : us.map Tap.kept = (pre ++ target :: post).map Tap.kept) (ha : address < 2 ^ target.irLength)
    (h : Column.ir.path us = List.replicate (pre.map Tap.irLength).sum true ++
      (valueBits target.irLength address ++ List.replicate (post.map Tap.irLength).sum true)) :
    (us.map (Tap.walk .ex1Ir [true, false])).map Tap.kept =
      (addressedChain address pre target post).map Tap.kept := by
  obtain ⟨pre', target', post', rfl, hpre, htarget, hpost⟩ := map_eq_around hk
  have hwidth : pre'.map Column.ir.width = pre.map Tap.irLength :=
    map_eq_of_map_eq (fun _ _ => Column.ir.width_congr) hpre
  have hL : Column.ir.width target' = target.irLength := Column.ir.width_congr htarget
  obtain ⟨hlow, hmid, hhigh⟩ := Column.path_around h (by simp [hwidth]) (by simp [hL])
  obtain ⟨hfpre, hfrest⟩ := List.forall_mem_append.mp hf
  obtain ⟨hft, hfpost⟩ := List.forall_mem_cons.mp hfrest
  have hir : target'.irSr = address := by
    obtain ⟨-, hirSr, -, -⟩ := (Tap.fits_iff target').mp hft.2
    rw [hL] at hmid
    exact valueBits_inj (hL ▸ hirSr) ha hmid
  have hkept : (Tap.walk .ex1Ir [true, false] target').kept = (target.withIr address).kept := by
    simp only [Tap.kept, Prod.mk.injEq] at htarget
    obtain ⟨hfixed, -, hecho⟩ := htarget
    rw [Tap.walk_exitIr, hir]
    change (target'.fixed, address, target'.echo) = (target.fixed, address, target.echo)
    rw [hfixed, hecho]
  rw [addressedChain, List.map_append, List.map_cons, List.map_append, List.map_cons, List.map_append, List.map_cons,
    map_exitIr_bypassed hfpre hpre hlow, hkept, map_exitIr_bypassed hfpost hpost hhigh]

/-! ## The DR scan -/

/-- The path after Capture-DR depends on what a data shift keeps. -/
theorem capturedDr_path (taps : List Tap) :
    Column.dr.path (taps.map Column.dr.captured) = (taps.map fun t => valueBits t.drWidth t.captureValue).flatten := by
  rw [Column.path, List.flatMap_map, List.flatMap_def]
  rfl

theorem Tap.drRegister_congr {t u : Tap} (h : t.kept = u.kept) :
    t.drWidth = u.drWidth ∧ t.captureValue = u.captureValue ∧ t.selected = u.selected := by
  simp only [Tap.kept, Tap.fixed, Prod.mk.injEq] at h
  obtain ⟨⟨hidcode, hL, hidcodeInstr, hechoInstr, hechoLen⟩, hir, hecho⟩ := h
  have hsel : t.selected = u.selected := by rw [Tap.selected, Tap.selected, hL, hidcodeInstr, hechoInstr, hir]
  exact ⟨by rw [Tap.drWidth, Tap.drWidth, hsel, hechoLen],
    by rw [Tap.captureValue, Tap.captureValue, hsel, hidcode, hecho], hsel⟩

theorem Tap.bypassed_selected (t : Tap) : t.bypassed.selected = .bypass := Tap.selected_allOnes rfl

theorem Tap.bypassed_drWidth (t : Tap) : t.bypassed.drWidth = 1 := by rw [Tap.drWidth, Tap.bypassed_selected]

theorem bypassed_drWidths (taps : List Tap) : ((taps.map Tap.bypassed).map Tap.drWidth).sum = taps.length := by
  simp [Function.comp_def, Tap.bypassed_drWidth]

theorem Tap.bypassed_captureValue (t : Tap) : t.bypassed.captureValue = 0 := by
  rw [Tap.captureValue, Tap.bypassed_selected]

section
variable {taps pre post : List Tap} {target : Tap} {address : Nat}
  (hk : taps.map Tap.kept = (addressedChain address pre target post).map Tap.kept)
include hk

/-- The bits in the data path of an addressed chain. -/
theorem addressed_drWidths :
    (taps.map Tap.drWidth).sum = pre.length + (target.withIr address).drWidth + post.length := by
  rw [map_eq_of_map_eq (fun _ _ h => (Tap.drRegister_congr h).1) hk, addressedChain, List.map_append, List.map_cons,
    List.sum_append, List.sum_cons, bypassed_drWidths, bypassed_drWidths, Nat.add_assoc]

/-- What an addressed chain captures: the target's register between the bypass bits, which are 0. -/
theorem addressed_captured : Column.dr.path (taps.map Column.dr.captured) =
    List.replicate pre.length false ++
      (valueBits (target.withIr address).drWidth (target.withIr address).captureValue ++
        List.replicate post.length false) := by
  have hzero (l : List Tap) : ((l.map Tap.bypassed).map fun t => valueBits t.drWidth t.captureValue).flatten =
      List.replicate l.length false := by
    induction l with
    | nil => rfl
    | cons t ts ih =>
      rw [List.map_cons, List.map_cons, List.flatten_cons, ih, Tap.bypassed_drWidth, Tap.bypassed_captureValue]
      rfl
  rw [capturedDr_path, map_eq_of_map_eq (g := fun t => valueBits t.drWidth t.captureValue) (fun t u h => by
    obtain ⟨hwidth, hvalue, -⟩ := Tap.drRegister_congr h
    rw [hwidth, hvalue]) hk, addressedChain, List.map_append, List.map_cons, List.flatten_append, List.flatten_cons,
    hzero, hzero]

end

/-- What a TAP holds from one access to the next. -/
def Tap.lasting (t : Tap) : (BitVec 32 × Nat × Nat × Option Nat × Nat) × Nat := (t.fixed, t.echo)

/-- The exit walk of the DR scan: the selected ECHO register takes the shifted value over. -/
theorem Tap.walk_exitDr (t : Tap) : (Tap.walk .ex1Dr [true, false] t).lasting =
    (t.fixed, if t.selected = .echo then t.drSr else t.echo) := by
  change ((t.enter .upDr).enter .rti).lasting = _
  rw [Tap.enter_eq t]
  simp [Tap.enter_eq, Tap.lasting, Tap.fixed]

/-- Bypassed TAPs keep their ECHO registers. -/
theorem map_exitDr_bypassed {us taps : List Tap} (hk : us.map Tap.kept = (taps.map Tap.bypassed).map Tap.kept) :
    (us.map (Tap.walk .ex1Dr [true, false])).map Tap.lasting = taps.map Tap.lasting := by
  have hsel : us.map Tap.selected = (taps.map Tap.bypassed).map Tap.selected :=
    map_eq_of_map_eq (fun _ _ h => (Tap.drRegister_congr h).2.2) hk
  have hlasting : us.map Tap.lasting = (taps.map Tap.bypassed).map Tap.lasting :=
    map_eq_of_map_eq (fun t u h => by
      simp only [Tap.kept, Prod.mk.injEq] at h
      rw [Tap.lasting, Tap.lasting, h.1, h.2.2]) hk
  have hbypass : ∀ t ∈ us, t.selected = .bypass := fun t ht => by
    have hmem : t.selected ∈ us.map Tap.selected := List.mem_map_of_mem ht
    rw [hsel, List.map_map] at hmem
    obtain ⟨u, -, hu⟩ := List.mem_map.mp hmem
    exact hu.symm.trans (Tap.bypassed_selected u)
  rw [List.map_map, List.map_congr_left (g := Tap.lasting) fun t ht => by
    rw [Function.comp, Tap.walk_exitDr, hbypass t ht]; rfl, hlasting, List.map_map]
  rfl

/-- A TAP after an access with an address and a value. -/
def Tap.accessed (t : Tap) (address value : Nat) : Tap :=
  { t with echo := if (t.withIr address).selected = .echo then value % 2 ^ t.echoLen else t.echo }

/-- After a DR scan of zeros, a value and zeros on an addressed chain, the target's ECHO register, if it is the selected
one, holds the value, and the other TAPs are as before. -/
theorem drScan_writes {us pre post : List Tap} {target : Tap} {address value : Nat} (hf : ChainFits us)
    (hst : ∀ t ∈ us, t.state = .ex1Dr)
    (hk : us.map Tap.kept = (addressedChain address pre target post).map Tap.kept)
    (h : Column.dr.path us = List.replicate pre.length false ++
      (valueBits (target.withIr address).drWidth (value % 2 ^ (target.withIr address).drWidth) ++
        List.replicate post.length false)) :
    (us.map (Tap.walk .ex1Dr [true, false])).map Tap.lasting =
      (pre ++ target.accessed address value :: post).map Tap.lasting := by
  obtain ⟨pre', target', post', rfl, hpre, htarget, hpost⟩ := map_eq_around hk
  obtain ⟨hwidth, -, hsel⟩ := Tap.drRegister_congr htarget
  have hones : (pre'.map Column.dr.width).sum = pre.length := by
    rw [map_eq_of_map_eq (fun _ _ => Column.dr.width_congr) hpre]
    exact bypassed_drWidths pre
  obtain ⟨-, hmid, -⟩ := Column.path_around h (by simp [hones]) (by simp [Column.width, hwidth])
  have hdrSr : target'.drSr = value % 2 ^ (target.withIr address).drWidth := by
    obtain ⟨-, -, -, hfits⟩ := (Tap.fits_iff target').mp (hf target' (by simp)).2
    have hlt := hfits (by rw [hst target' (by simp)]; rfl)
    simp only [Column.width, Column.value, hwidth] at hmid
    exact valueBits_inj (hwidth ▸ hlt) (Nat.mod_lt _ (Nat.two_pow_pos _)) hmid
  have hlasting : (Tap.walk .ex1Dr [true, false] target').lasting = (target.accessed address value).lasting := by
    simp only [Tap.kept, Prod.mk.injEq] at htarget
    obtain ⟨hfixed, -, hecho⟩ := htarget
    rw [Tap.walk_exitDr, hfixed, hecho, hsel, hdrSr]
    refine congrArg (Prod.mk target.fixed) ?_
    change _ = if (target.withIr address).selected = .echo then value % 2 ^ target.echoLen else target.echo
    split
    · rename_i hs
      rw [Tap.drWidth, hs]
      rfl
    · rfl
  rw [List.map_append, List.map_cons, List.map_append, List.map_cons, List.map_append, List.map_cons,
    map_exitDr_bypassed hpre, hlasting, map_exitDr_bypassed hpost]

end Sys2Proof.Machine
end

section
/-! Operations on an engine that still holds commands (40_engine_commands.md R100): it runs them before the new ones, so an
operation sees the chain that they leave. -/

namespace Sys2Proof.Machine

open Sys2Proof Sys2Proof.Safety

/-! ## Emitted commands run after the queued ones -/

/-- An engine that can run all it holds runs what is emitted to it after that. -/
theorem engineDrain_emitted_queued {is : List Instr} {s : State} (hp : s.params.distinct) (hc : Commands is)
    (hq : (engineDrain s).cmdQueue = []) : engineDrain (emitted is s) = executed is (engineDrain s) := by
  let b : State := { emitted is s with cmdQueue := s.cmdQueue }
  have hsame : SameEngine b s := ⟨rfl, rfl, rfl, rfl, rfl, rfl⟩
  obtain ⟨hb, hbq⟩ := engineDrain_congr hsame rfl
  have hrun : engineDrain (emitted is s) = runCommands is { engineDrain b with cmdQueue := [] } :=
    (engineDrain_append b _ (hbq.trans hq)).trans
      (engineDrain_commands is _ (by rw [engineDrain_frame b]; exact hp) hc (by rw [engineDrain_frame b]; rfl))
  obtain ⟨htap, htms⟩ := shadowCommands_congr is (engineDrain s) s (by simp) (by simp)
  rw [hrun, executed, issued, emitted, htap, htms, engineDrain_frame b, engineDrain_frame s, hb.tmsPin, hb.replyQueue,
    hb.taps, hb.freeCount]
  rfl

/-- A read depends on what the engine's run leaves. -/
theorem receive_congr {expected : Nat} {rebuilt : List Byte → List Byte} {s t : State}
    (h : engineDrain s = engineDrain t) : receive expected rebuilt s = receive expected rebuilt t := by
  rw [receive, receive, h]

/-! ## Commands without capture, outside loopback -/

/-- The form of a command that captures nothing. -/
def uncaptured : Instr → Instr
  | .tmsInout l d => .tmsOut l d
  | .bytesInout payload => .bytesOut payload
  | .bitsInout l d => .bitsOut l d
  | i => i

theorem runCommand_uncaptured (i : Instr) {s : State} (h : s.loopback = false) : runCommand (uncaptured i) s = { s with
    tmsPin := (runCommand i s).tmsPin, taps := (runCommand i s).taps } := by
  cases i
  case tmsOut l d | tmsInout l d =>
    simp only [uncaptured, runCommand, replyPartial, reply_tmsPin, reply_taps, tmsCommand_chain l d h]
  case bytesOut p | bytesInout p =>
    simp only [uncaptured, runCommand, reply_tmsPin, reply_taps, (bytesClocks_chain p s h).2]
  case bitsOut l d | bitsInout l d =>
    simp only [uncaptured, runCommand, replyPartial, reply_tmsPin, reply_taps, bitsCommand_chain l d h]
  all_goals rfl

theorem SameMoves.runCommands {s t : State} (h : SameMoves s t) (is : List Instr) :
    SameMoves (runCommands is s) (runCommands is t) := by
  induction is generalizing s t with
  | nil => exact h
  | cons i is ih => exact ih (h.runCommand i)

theorem runCommands_uncaptured (is : List Instr) {s : State} (h : s.loopback = false) :
    runCommands (is.map uncaptured) s = { s with
      tmsPin := (runCommands is s).tmsPin, taps := (runCommands is s).taps } := by
  induction is generalizing s with
  | nil => rfl
  | cons i is ih =>
    have hi := runCommand_uncaptured i h
    have hm : SameMoves (runCommand (uncaptured i) s) (runCommand i s) := by
      rw [hi]
      exact ⟨(runCommand_params i s).symm, ⟨h, (runCommand_loopback i s).trans h⟩, rfl, (runCommand_cmdQueue i s).symm,
        rfl⟩
    have his := hm.runCommands is
    rw [List.map_cons, runCommands_cons, runCommands_cons, ih hm.loopback.1, his.tmsPin, his.taps, hi]

theorem tdiPlan_uncaptured (data : List Byte) (n : Nat) :
    tdiPlan false data n = (tdiPlan true data n).map uncaptured := by
  simp only [tdiPlan, bytesPlan, List.map_append, List.map_map, List.map_singleton]
  split
  · rfl
  · rfl

/-- The engine's run of a data shift that captures nothing. -/
theorem runShift_chain {data : List Byte} {n : Nat} {s : State} (hp : DataHolds n data) (h : s.loopback = false) :
    runCommands (tdiPlan false data n) s = { s with
      tmsPin := true, taps := chainAfter s.taps (tdiClocks data n s.tmsPin) } := by
  obtain ⟨_, _, _, _, _, -, -, -, hrun⟩ := runTransfer_chain hp.1 hp.2 h
  rw [tdiPlan_uncaptured, runCommands_uncaptured _ h, hrun]

theorem runCommand_exit {s : State} (h : s.loopback = false) : runCommand exitCommand s = { s with
    tmsPin := false, taps := chainAfter s.taps exitClocks } := by
  rw [exitCommand, runCommand, tmsCommand_chain _ _ h]
  rfl

/-- The clocks of a whole scan from a known shadow. -/
def Column.scanClocks (c : Column) (S : TapSet) (data : List Byte) (n : Nat) : List (Bool × Bool) :=
  entryClocks S c.walked ++ tdiClocks data n false ++ exitClocks

/-- The commands of a whole scan that captures nothing. -/
def Column.shiftCommands (c : Column) (data : List Byte) (n : Nat) (S : TapSet) : List Instr :=
  c.front false data n S ++ [exitCommand]

section
variable {c : Column} {data : List Byte} {n : Nat} {s : State}

theorem shiftCommands_commands (hp : DataHolds n data) (S : TapSet) : Commands (c.shiftCommands data n S) :=
  List.forall_mem_append.mpr ⟨front_commands hp S, by simp [exitCommand, Instr.wf, Instr.space]⟩

/-- The engine's run of a whole scan that captures nothing. -/
theorem runCommands_shiftCommands (hp : DataHolds n data) (S : TapSet) (hl : s.loopback = false) :
    runCommands (c.shiftCommands data n S) s = { s with
      tmsPin := false, taps := chainAfter s.taps (c.scanClocks S data n) } := by
  rw [Column.shiftCommands, Column.front, List.cons_append, runCommands_cons, runCommands_append, runCommand_entry S hl,
    runShift_chain hp, runCommands_cons, runCommands_nil, runCommand_exit, Column.scanClocks, chainAfter_append,
    chainAfter_append]
  all_goals exact hl

/-- A scan that captures nothing, its writes successful, emits its commands and returns. -/
theorem exec_shiftInstr_emits {count : Count} (ha : Accepting s) (hp : PayloadOk count data) (hk : ShadowKnown s)
    (hw : WritesOk (tdiCommands count.toNat + 2) s) : exec (c.shiftInstr count data) s =
      .next (withReply statusOk 0 [] (emitted (c.shiftCommands data count.toNat s.tapShadow) s)) := by
  rw [exec_shiftInstr_accepted ha hp hk, shiftScan_ok hw, Flow.returnedEmpty_run, Column.shiftCommands, emitted_append]
  rfl

/-- A capturing scan is that of a machine whose engine has run what it held. -/
theorem exec_transferInstr_drained {count : Count} (ha : Accepting s) (hp : PayloadOk count data)
    (hk : ShadowKnown s) (hw : WritesOk (tdiCommands count.toNat + 1) s) (hd : s.params.distinct)
    (hq : (engineDrain s).cmdQueue = []) :
    exec (c.transferInstr count data) s = exec (c.transferInstr count data) (engineDrain s) := by
  have hn := dataHolds_of_payloadOk hp
  have ha' : Accepting (engineDrain s) := by rw [engineDrain_frame]; exact ha
  have hk' : ShadowKnown (engineDrain s) := by rw [engineDrain_frame]; exact hk
  have hw' : WritesOk (tdiCommands count.toNat + 1) (engineDrain s) := by rw [engineDrain_frame]; exact hw
  have hrun : engineDrain (emitted (c.front true data count.toNat s.tapShadow) s) =
      engineDrain (emitted (c.front true data count.toNat s.tapShadow) (engineDrain s)) := by
    rw [engineDrain_emitted_queued hd (front_commands hn _) hq,
      engineDrain_emitted (by simpa using hd) (front_commands hn _) hq]
  rw [exec_transferInstr_accepted ha hp hk, exec_transferInstr_accepted ha' hp hk', transferScan_reads hw,
    transferScan_reads hw', engineDrain_tapShadow, engineDrain_params, receive_congr hrun]

end

/-! ## IDLE in Run-Test/Idle (42_tap_controller.md R163) -/

/-- A TMS-0 command leaves a chain in Run-Test/Idle as it is. -/
theorem runCommand_zeros {s : State} (l : LenField) (hl : s.loopback = false) (h : ∀ t ∈ s.taps, t.state = .rti) :
    runCommand (.tmsOut l 0) s = { s with tmsPin := false } := by
  have hstay (k : Nat) : chainAfter s.taps (List.replicate k (false, false)) = s.taps := by
    have hclock : clockChain s.taps false false = s.taps := by
      rw [clockChain_outside false false (by decide) (by decide) h]
      refine (List.map_congr_left fun t ht => ?_).trans (List.map_id s.taps)
      obtain ⟨_, _, _, _, _, _, _, _, _, _⟩ := t
      obtain rfl := h _ ht
      rfl
    induction k with
    | zero => rfl
    | succ k ih => rw [List.replicate_succ, chainAfter_cons, hclock, ih]
  rw [runCommand, tmsCommand_chain _ _ hl]
  simp [hstay]

theorem runCommands_zeros {is : List Instr} (hi : ∀ i ∈ is, ∃ l, i = .tmsOut l 0) {s : State} (hl : s.loopback = false)
    (h : ∀ t ∈ s.taps, t.state = .rti) : ∃ pin, runCommands is s = { s with tmsPin := pin } := by
  induction is generalizing s with
  | nil => exact ⟨s.tmsPin, rfl⟩
  | cons i is ih =>
    obtain ⟨⟨l, rfl⟩, his⟩ := List.forall_mem_cons.mp hi
    rw [runCommands_cons, runCommand_zeros l hl h]
    exact ih his (s := { s with tmsPin := false }) hl h

/-- The commands of `idle(k)` from Run-Test/Idle, none for `k = 0`. -/
def idleCommands (k : Nat) : List Instr := tmsPlan (zeroBits k) k

theorem idleCommands_zeros (k : Nat) : ∀ i ∈ idleCommands k, ∃ l, i = .tmsOut l 0 := by
  intro i hi
  obtain ⟨g, -, rfl⟩ := List.mem_map.mp hi
  refine ⟨lenField (min Config.tmsGroupMax (k - 8 * g)), ?_⟩
  rw [memByte, zeroBits_getD]
  simp [lowBits]

/-- IDLE from Run-Test/Idle, its writes successful, emits its commands and returns. -/
theorem exec_idle_emits {s : State} {cycles : Count} (ha : Accepting s) (hS : s.tapShadow = single .rti)
    (hw : WritesOk ((cycles.toNat + 7) / 8) s) : exec (.idle cycles) s =
      .next (withReply statusOk 0 [] (emitted (idleCommands cycles.toNat) s)) := by
  by_cases hc : cycles = 0
  · subst hc
    rw [execIdle_zero ha.1]
    simp [idleCommands, tmsPlan, ceilDiv8, withReply]
  · rw [execIdle_accepted ha (.inl hS) hc, idlePhase_rti _ hS, shiftTmsPhase, emitAll_ok (by simpa using hw),
      Flow.returnedEmpty_run]
    rfl

/-- The shadows after IDLE from Run-Test/Idle, the TMS level 0. -/
theorem shadowCommands_idle {s : State} (k : Nat) (hS : s.tapShadow = single .rti) (hlow : s.tmsShadow = .low) :
    (shadowCommands (idleCommands k) s).tapShadow = single .rti ∧
      (shadowCommands (idleCommands k) s).tmsShadow = .low := by
  cases k with
  | zero => exact ⟨hS, hlow⟩
  | succ k =>
    obtain ⟨htap, htms⟩ := shadowCommands_tms (data := zeroBits (k + 1)) s (Nat.succ_ne_zero k)
    rw [bufBits_zeroBits, hS, walk_single, foldl_next_rti_low] at htap
    rw [bufBit_zeroBits] at htms
    exact ⟨htap, htms⟩

end Sys2Proof.Machine
end

section
/-! Proofs about register accesses that succeed (46_client_procedures.md R229 to R233): each operation of an access leaves
the machine ready for the next, and the two scans read and write the target's register. -/

namespace Sys2Proof.Machine

open Sys2Proof Sys2Proof.Safety

/-! ## A machine that is ready for an access -/

/-- Chain parameters describe every chain with the parameters of the one they were computed for. -/
theorem describes_congr {c : ChainParameters} {taps us : List Tap} (h : us.map Tap.fixed = taps.map Tap.fixed)
    (hd : Describes c taps) : Describes c us := by
  obtain ⟨target, ht, hL, hpre, hpost, hlast⟩ := hd
  have hlens : us.map Tap.irLength = taps.map Tap.irLength :=
    map_eq_of_map_eq (fun _ _ hf => congrArg (·.2.1) hf) h
  have hlen : us.length = taps.length := by simpa using congrArg List.length h
  have hu : (us[c.drPre]?).map Tap.irLength = some target.irLength := by
    rw [← List.getElem?_map, hlens, List.getElem?_map, ht, Option.map_some]
  obtain ⟨u, hu, hirLength⟩ := Option.map_eq_some_iff.mp hu
  refine ⟨u, hu, hL.trans hirLength.symm, ?_, ?_, by rw [hlast, hlen]⟩
  · rw [hpre, List.map_take, List.map_take, hlens]
  · rw [hpost, List.map_drop, List.map_drop, hlens]

/-- The chain around the target that chain parameters describe. -/
theorem describes_around {c : ChainParameters} {pre post : List Tap} {target : Tap} (hp : pre.length = c.drPre)
    (hd : Describes c (pre ++ target :: post)) : c.irLength = target.irLength ∧ c.irPre = (pre.map Tap.irLength).sum ∧
      c.irPost = (post.map Tap.irLength).sum ∧ c.drPost = post.length := by
  obtain ⟨t, ht, hL, hpre, hpost, hlast⟩ := hd
  rw [← hp] at ht hpre hpost hlast
  obtain rfl : target = t := by simpa using ht
  have hdrop : (pre ++ target :: post).drop (pre.length + 1) = post := by
    rw [← List.drop_drop, List.drop_left, List.drop_one, List.tail_cons]
  have hlen : (pre ++ target :: post).length - pre.length - 1 = post.length := by
    rw [List.length_append, List.length_cons, Nat.add_sub_cancel_left, Nat.add_sub_cancel]
  exact ⟨hL, by rw [hpre, List.take_left], by rw [hpost, hdrop], hlast.trans hlen⟩

section
variable {c : ChainParameters} {s t : State}

/-- The port's operands and the client's reply play no part. -/
theorem engineDrain_withPort (s : State) (op : Byte) (count : Count) (data : List Byte) (r : ClientReply) :
    engineDrain { s with op := op, count := count, data := data, clientReply := r } =
      { engineDrain s with op := op, count := count, data := data, clientReply := r } := by
  have hsame : SameEngine { s with op := op, count := count, data := data, clientReply := r } s :=
    ⟨rfl, rfl, rfl, rfl, rfl, rfl⟩
  obtain ⟨h, hq⟩ := engineDrain_congr hsame rfl
  rw [engineDrain_frame { s with op := op, count := count, data := data, clientReply := r }, engineDrain_frame s,
    h.tmsPin, hq, h.replyQueue, h.taps, h.freeCount]

theorem ready_withPort (h : ReadyForAccess c s) (op : Byte) (count : Count) (data : List Byte) (r : ClientReply) :
    ReadyForAccess c { s with op := op, count := count, data := data, clientReply := r } := by
  obtain ⟨ha, hcf, hsel, hd, htr, hk, hf, hrep, hw, hr, hidle⟩ := h
  exact ⟨ha, hcf, hsel, hd, tracks_of_same_fields htr, hk, hf, by rw [engineDrain_withPort]; exact hrep, hw, hr, hidle⟩

theorem ready_loadPort (h : ReadyForAccess c s) (op : Byte) (count : Count) (data : List Byte) :
    ReadyForAccess c (loadPort op count data s) := ready_withPort h op count data s.clientReply

theorem engineDrain_loadPort_taps (op : Byte) (count : Count) (data : List Byte) (s : State) :
    (engineDrain (loadPort op count data s)).taps = (engineDrain s).taps :=
  (congrArg State.taps (engineDrain_withPort s op count data s.clientReply)).trans rfl

/-- What an operation may leave: the machine is ready again if the block accepts operations from a known shadow, the
registers fit, no reply is left over and the transport's outcomes are still none. -/
theorem ready_of_exec (h : ReadyForAccess c s) {i : Instr} (hi : i.space = .port) (he : exec i s = .next t)
    (ha : Accepting t) (hk : ShadowKnown t) (hf : ChainFits t.taps) (hrep : (engineDrain t).replyQueue = [])
    (hw : t.writeFails = []) (hr : t.readDraws = []) : ReadyForAccess c t := by
  obtain ⟨-, hcf, hsel, hd, htr, -, -, -, -, -, hidle⟩ := h
  have hframe := exec_operationFrame he
  exact ⟨ha, hframe.clientFault.trans hcf, hframe.selection.trans hsel, describes_congr hframe.taps hd,
    exec_tracks hi he htr, hk, hf, hrep, hw, hr, hframe.params ▸ hidle⟩

theorem writesOk_of_nil (h : s.writeFails = []) (k : Nat) : WritesOk k s := by rw [WritesOk, h]; trivial

theorem readFull_of_nil (h : s.readDraws = []) : ReadFull s := by rw [ReadFull, h]; trivial

/-- The chain that the engine's run leaves is in the one state of a known shadow. -/
theorem ready_states (h : ReadyForAccess c s) {σ : TapState} (hS : s.tapShadow = single σ) :
    ∀ u ∈ (engineDrain s).taps, u.state = σ := by
  obtain ⟨ha, -, -, -, htr, -⟩ := h
  obtain ⟨-, hcov⟩ := settles_of_tracks htr ha.2
  intro u hu
  have hin := hcov.taps u hu
  rw [hS, holds_single, decide_eq_true_eq] at hin
  exact hin.symm

/-! ## The operations of an access -/

/-- An operation that only emits commands, which leave the engine its replies, and that ends in Run-Test/Idle. -/
theorem ready_of_emits (h : ReadyForAccess c s) {i : Instr} {is : List Instr} {taps : List Tap} (hi : i.space = .port)
    (hc : Commands is) (he : exec i s = .next (withReply statusOk 0 [] (emitted is s)))
    (hS : (emitted is s).tapShadow = single .rti)
    (hrun : ∀ e : State, e.loopback = false → e.taps = (engineDrain s).taps →
      ∃ pin, runCommands is e = { e with tmsPin := pin, taps := taps }) :
    ReadyForAccess c (withReply statusOk 0 [] (emitted is s)) ∧
      (engineDrain (withReply statusOk 0 [] (emitted is s))).taps = taps := by
  have hready := h
  obtain ⟨ha, -, -, -, htr, -, hf, hrep, hw, hr, -⟩ := h
  obtain ⟨hq, -⟩ := settles_of_tracks htr ha.2
  obtain ⟨pin, hpin⟩ := hrun (issued is (engineDrain s)) ((engineDrain_loopback s).trans (tracks_loopback htr)) rfl
  have hdrain : engineDrain (emitted is s) = { issued is (engineDrain s) with tmsPin := pin, taps := taps } := by
    rw [engineDrain_emitted_queued (tracks_distinct htr) hc hq, executed, hpin]
  refine ⟨ready_of_exec hready hi he ha (.inl hS) hf ?_ ?_ hr, ?_⟩
  · rw [engineDrain_withReply, hdrain]; exact hrep
  · change spendWrites _ s.writeFails = []
    rw [hw, spendWrites]
  · rw [engineDrain_withReply, hdrain]; rfl

/-- A scan that captures nothing. -/
theorem ready_shiftInstr (h : ReadyForAccess c s) (col : Column) {count : Count} {data : List Byte}
    (hp : PayloadOk count data) : ∃ t, exec (col.shiftInstr count data) s = .next t ∧ t.status = statusOk ∧
      ReadyForAccess c t ∧ t.tapShadow = single .rti ∧
      (engineDrain t).taps = chainAfter (engineDrain s).taps (col.scanClocks s.tapShadow data count.toNat) := by
  have hn := dataHolds_of_payloadOk hp
  have hready := h
  obtain ⟨ha, -, -, -, -, hk, -, -, hw, -, -⟩ := h
  have hexec := exec_shiftInstr_emits (c := col) ha hp hk (writesOk_of_nil hw _)
  have hrti : (emitted (col.shiftCommands data count.toNat s.tapShadow) s).tapShadow = single .rti := by
    rw [Column.shiftCommands, emitted_append, emitted_front hn hk, emitted_exit col rfl]
  obtain ⟨ht, htaps⟩ := ready_of_emits hready (by cases col <;> rfl) (shiftCommands_commands hn _) hexec hrti
    fun e hl he => ⟨false, by rw [runCommands_shiftCommands hn _ hl, he]⟩
  exact ⟨_, hexec, rfl, ht, hrti, htaps⟩

/-- The engine's run of an exit walk, all that it holds. -/
theorem engineDrain_exit (hd : s.params.distinct) (hl : s.loopback = false) (hq : s.cmdQueue = exitBytes s.params) :
    engineDrain s = { s with cmdQueue := [], tmsPin := false, taps := chainAfter s.taps exitClocks } := by
  have hexit : Commands [exitCommand] := by simp [Commands, exitCommand, Instr.wf, Instr.space]
  rw [engineDrain_commands [exitCommand] s hd hexit hq]
  exact runCommand_exit (s := { s with cmdQueue := [] }) hl

/-- A capturing scan: its RESULT samples the chain that the engine's run leaves. -/
theorem ready_transferInstr (h : ReadyForAccess c s) (col : Column) {count : Count} {data : List Byte}
    (hp : PayloadOk count data) : ∃ t, exec (col.transferInstr count data) s = .next t ∧ t.status = statusOk ∧
      ReadyForAccess c t ∧ t.tapShadow = single .rti ∧ t.tmsShadow = .low ∧
      HoldsSamples t.result count.toNat (samplesOf (chainAfter (engineDrain s).taps (entryClocks s.tapShadow col.walked))
        (tdiClocks data count.toNat false)) ∧
      t.taps = chainAfter (engineDrain s).taps
        (entryClocks s.tapShadow col.walked ++ tdiClocks data count.toNat false) ∧
      (engineDrain t).taps = chainAfter t.taps exitClocks := by
  have hready := h
  obtain ⟨ha, -, -, -, htr, hk, hf, hrep, hw, hr, -⟩ := h
  obtain ⟨hq, -⟩ := settles_of_tracks htr ha.2
  have hd : (engineDrain s).params.distinct := by simpa using tracks_distinct htr
  have hl : (engineDrain s).loopback = false := by simpa using tracks_loopback htr
  have hwd : (engineDrain s).writeFails = [] := by rw [engineDrain_frame]; exact hw
  have hrd : (engineDrain s).readDraws = [] := by rw [engineDrain_frame]; exact hr
  have had : Accepting (engineDrain s) := by rw [engineDrain_frame]; exact ha
  have hkd : ShadowKnown (engineDrain s) := by rw [engineDrain_frame]; exact hk
  obtain ⟨rx, result, -, hsamples, hexec⟩ := exec_transferInstr_ok (c := col) had hp hkd (writesOk_of_nil hwd _) hd hl
    ⟨hq, hrep⟩ (readFull_of_nil hrd)
  rw [engineDrain_tapShadow] at hsamples hexec
  rw [← exec_transferInstr_drained ha hp hk (writesOk_of_nil hw _) (tracks_distinct htr) hq] at hexec
  refine ⟨_, hexec, rfl, ready_of_exec hready (by cases col <;> rfl) hexec had (.inl rfl)
    (chainAfter_fits (engineDrain_fits s hf) _) ?_ ?_ ?_, rfl, rfl, hsamples, rfl, ?_⟩
  · exact (congrArg State.replyQueue (engineDrain_exit (by exact hd) (by exact hl) rfl)).trans hrep
  · change spendWrites _ (engineDrain s).writeFails = []
    rw [hwd, spendWrites]
  · change (engineDrain s).readDraws.tail = []
    rw [hrd, List.tail_nil]
  · exact congrArg State.taps (engineDrain_exit (by exact hd) (by exact hl) rfl)

/-- The settle idle in Run-Test/Idle changes no TAP. -/
theorem ready_idle (h : ReadyForAccess c s) (hS : s.tapShadow = single .rti) (hlow : s.tmsShadow = .low)
    (cycles : Count) : ∃ t, exec (.idle cycles) s = .next t ∧ t.status = statusOk ∧ ReadyForAccess c t ∧
      t.tapShadow = single .rti ∧ t.tmsShadow = .low ∧ t.taps = s.taps ∧
      (engineDrain t).taps = (engineDrain s).taps := by
  have hready := h
  obtain ⟨ha, -, -, -, -, -, -, -, hw, -, -⟩ := h
  have hexec := exec_idle_emits (cycles := cycles) ha hS (writesOk_of_nil hw _)
  obtain ⟨htap, htms⟩ := shadowCommands_idle cycles.toNat hS hlow
  obtain ⟨ht, htaps⟩ := ready_of_emits hready rfl (tmsPlan_commands _ _) hexec htap fun e hl he => by
    obtain ⟨pin, hpin⟩ := runCommands_zeros (idleCommands_zeros cycles.toNat) hl (he ▸ ready_states hready hS)
    exact ⟨pin, he ▸ hpin⟩
  exact ⟨_, hexec, rfl, ht, htap, htms, rfl, htaps⟩

end

end Sys2Proof.Machine
end

section
/-! Proofs about the register access as a whole (46_client_procedures.md R229 to R233, 45_reference_target.md R200): the IR
scan, the DR scan and the settle idle, one after another, and an access that follows another. -/

namespace Sys2Proof.Machine

open Sys2Proof Sys2Proof.Safety

/-! ## One operation of the client (46_client_procedures.md R220) -/

theorem issue_done {op : Byte} {n : Nat} {data : List Byte} {s t : State} {i : Instr} (hn : n < 2 ^ 32)
    (hi : decodeRequest op (BitVec.ofNat 32 n) data = i) (h : exec i (loadPort op (BitVec.ofNat 32 n) data s) = .next t)
    (ok : t.status = statusOk) : issue op n data s = .done t.result t := by
  rw [issue, if_pos hn, accept, hi, h]
  exact if_pos ok

/-- A request of `n ≥ 1` bits as the client lays it out. -/
theorem payloadOk_natBytes {n : Nat} (h0 : n ≠ 0) (hn : n < 2 ^ 32) (v : Nat) :
    PayloadOk (BitVec.ofNat 32 n) (natBytes (ceilDiv8 n) v) := by
  have hcount := count_toNat hn
  refine ⟨fun h => h0 ?_, by rw [hcount, natBytes_length, ceilDiv8]⟩
  rw [← hcount, h]
  rfl

theorem bufBits_request (n v : Nat) : bufBits (natBytes (ceilDiv8 n) v) n = valueBits n v :=
  bufBits_natBytes v (by unfold ceilDiv8; omega)

/-! ## The three operations of an access -/

section
variable {c : ChainParameters} {s : State} {pre post : List Tap} {target : Tap} {address : Nat}

/-- The known state of the chain that the engine's run leaves. -/
theorem ready_state_known (h : ReadyForAccess c s) : ∃ σ, (σ = .rti ∨ σ = .tlr) ∧ s.tapShadow = single σ := by
  obtain ⟨-, -, -, -, -, hk, -⟩ := h
  obtain hS | hS := hk
  · exact ⟨.rti, .inl rfl, hS⟩
  · exact ⟨.tlr, .inr rfl, hS⟩

theorem ready_fits (h : ReadyForAccess c s) : ChainFits (engineDrain s).taps := by
  obtain ⟨-, -, -, -, -, -, hf, -⟩ := h
  exact engineDrain_fits s hf

/-- What the chain parameters say of the chain that the engine's run leaves. -/
theorem ready_around (h : ReadyForAccess c s) (hs : (engineDrain s).taps = pre ++ target :: post)
    (hp : pre.length = c.drPre) : c.irLength = target.irLength ∧ c.irPre = (pre.map Tap.irLength).sum ∧
      c.irPost = (post.map Tap.irLength).sum ∧ c.drPost = post.length := by
  obtain ⟨-, -, -, hd, -⟩ := h
  exact describes_around hp (hs ▸ describes_congr (engineDrain_fixed s) hd)

/-- The IR scan of an access (46_client_procedures.md R230). -/
theorem issue_address (h : ReadyForAccess c s) (hs : (engineDrain s).taps = pre ++ target :: post)
    (hp : pre.length = c.drPre) (ha : address < 2 ^ c.irLength) {w : Nat} (hw : w = c.irPre + c.irLength + c.irPost)
    (hw32 : w < 2 ^ 32) : ∃ t, issue 0x12 w (natBytes (ceilDiv8 w) (irValue c address)) s = .done t.result t ∧
      ReadyForAccess c t ∧ t.tapShadow = single .rti ∧
      (engineDrain t).taps.map Tap.kept = (addressedChain address pre target post).map Tap.kept := by
  obtain ⟨hL, hpre, hpost, -⟩ := ready_around h hs hp
  obtain ⟨σ, hσ, hS⟩ := ready_state_known h
  have hf : ChainFits (pre ++ target :: post) := hs ▸ ready_fits h
  have hne : w ≠ 0 := by
    have := Tap.legal_irLength (hf target (by simp)).1
    omega
  have hcount := count_toNat hw32
  obtain ⟨t, hexec, ok, ht, hrti, htaps⟩ := ready_shiftInstr
    (ready_loadPort h 0x12 (BitVec.ofNat 32 w) (natBytes (ceilDiv8 w) (irValue c address))) .ir
    (payloadOk_natBytes hne hw32 (irValue c address))
  refine ⟨t, issue_done hw32 rfl hexec ok, ht, hrti, ?_⟩
  rw [engineDrain_loadPort_taps, hs, loadPort_tapShadow, hS, hcount, Column.scanClocks,
    chainAfter_append] at htaps
  obtain ⟨-, hbits, hkept, hfits, hstate⟩ := Column.scan_chain (c := .ir)
    (data := natBytes (ceilDiv8 w) (irValue c address)) hσ (hs ▸ ready_states h hS) hf (by simp) hne
    (show ((pre ++ target :: post).map Tap.irLength).sum = w by
      rw [List.map_append, List.map_cons, List.sum_append, List.sum_cons]; omega)
  have hrequest : bufBits (natBytes (ceilDiv8 w) (irValue c address)) w =
      List.replicate (pre.map Tap.irLength).sum true ++
        (valueBits target.irLength address ++ List.replicate (post.map Tap.irLength).sum true) := by
    rw [bufBits_request, hw, valueBits_irValue c ha, hL, hpre, hpost]
  rw [htaps, Column.exit_chain hstate]
  exact irScan_addresses hfits hkept (hL ▸ ha) (hbits.trans hrequest)

/-- The DR scan of an access (46_client_procedures.md R231): it reads what the target captures, and writes the target. -/
theorem issue_value (h : ReadyForAccess c s) (hS : s.tapShadow = single .rti)
    (hk : (engineDrain s).taps.map Tap.kept = (addressedChain address pre target post).map Tap.kept)
    (hp : pre.length = c.drPre) (hq : c.drPost = post.length) (value : Nat) {len d : Nat}
    (hlen : len = (target.withIr address).drWidth) (hd : d = c.drPre + len + c.drPost) (hd32 : d < 2 ^ 32) :
    ∃ t, issue 0x15 d (natBytes (ceilDiv8 d) (drValue c value len)) s = .done t.result t ∧ ReadyForAccess c t ∧
      t.tapShadow = single .rti ∧ t.tmsShadow = .low ∧
      bufNat t.result c.drPre len = (target.withIr address).captureValue ∧
      t.taps.map Tap.kept = (addressedChain address pre target post).map Tap.kept ∧
      (engineDrain t).taps.map Tap.lasting = (pre ++ target.accessed address value :: post).map Tap.lasting := by
  have hf := ready_fits h
  obtain ⟨pre', target', post', haround, -, htarget, -⟩ := map_eq_around hk
  obtain ⟨hwidth, hvalue, -⟩ := Tap.drRegister_congr htarget
  obtain ⟨hlegal, hfit⟩ := hf target' (by simp [haround])
  have hlt : (target.withIr address).captureValue < 2 ^ len := by
    rw [hlen, ← hvalue, ← hwidth]
    exact Tap.captureValue_lt hfit
  have hne : d ≠ 0 := by
    have := Tap.legal_drWidth hlegal
    omega
  have hcount := count_toNat hd32
  obtain ⟨t, hexec, ok, ht, hrti, hlow, hsamples, htaps, hdrain⟩ := ready_transferInstr
    (ready_loadPort h 0x15 (BitVec.ofNat 32 d) (natBytes (ceilDiv8 d) (drValue c value len))) .dr
    (payloadOk_natBytes hne hd32 (drValue c value len))
  rw [engineDrain_loadPort_taps, loadPort_tapShadow, hS, hcount] at hsamples htaps
  obtain ⟨hout, hbits, hkept, hfits, hstate⟩ := Column.scan_chain (c := .dr)
    (data := natBytes (ceilDiv8 d) (drValue c value len)) (.inl rfl) (ready_states h hS) hf (by simp [haround]) hne
    ((addressed_drWidths hk).trans (by omega))
  rw [← htaps] at hbits hkept hfits hstate
  rw [bufBits_request, hd, valueBits_drValue, ← hp, hq, hlen] at hbits
  rw [hout, addressed_captured hk, ← hlen] at hsamples
  obtain ⟨-, -, hresult⟩ := hsamples
  refine ⟨t, issue_done hd32 rfl hexec ok, ht, hrti, hlow, ?_, hkept.trans hk, ?_⟩
  · refine Nat.eq_of_testBit_eq fun i => ?_
    rw [bufNat_testBit, hresult, ← hp, List.getD_append_right _ _ _ _ (by simp), List.length_replicate,
      Nat.add_sub_cancel_left]
    by_cases hi : i < len
    · rw [List.getD_append _ _ _ _ (by simpa using hi), decide_eq_true hi, Bool.true_and]
      simp [valueBits, hi]
    · rw [decide_eq_false hi, Bool.false_and, Nat.testBit_lt_two_pow
        (hlt.trans_le (Nat.pow_le_pow_right (by decide) (Nat.not_lt.mp hi)))]
  · rw [hdrain, Column.exit_chain hstate]
    exact drScan_writes hfits hstate (hkept.trans hk) hbits

/-- Before the exit walk the target's selected register has the width of the access. -/
theorem lengthFits_addressed {t : State} {len : Nat} (hp : pre.length = c.drPre)
    (hk : t.taps.map Tap.kept = (addressedChain address pre target post).map Tap.kept)
    (hlen : len = (target.withIr address).drWidth) : lengthFits c len t = true := by
  have hwidths := map_eq_of_map_eq (fun _ _ h => (Tap.drRegister_congr h).1) hk
  have hat : (t.taps[c.drPre]?).map Tap.drWidth = some len := by
    rw [← List.getElem?_map, hwidths, ← hp, hlen]
    simp [addressedChain]
  obtain ⟨u, hu, hwidth⟩ := Option.map_eq_some_iff.mp hat
  simp [lengthFits, hu, hwidth]

/-- A register access on a ready machine: it answers with what the target's selected register captures, writes that
register if it is ECHO, and leaves the machine ready for the next access. -/
theorem access_done (h : ReadyForAccess c s) (hs : (engineDrain s).taps = pre ++ target :: post)
    (hp : pre.length = c.drPre) (ha : address ≤ 2 ^ c.irLength - 1) (hw : c.irPre + c.irLength + c.irPost ≤ 32)
    {len : Nat} (hlen : len = (target.withIr address).drWidth) (hd : c.drPre + len + c.drPost < 2 ^ 32)
    (write : Bool) (value : Nat) :
    ∃ t, access write address value len s = .done (target.withIr address).captureValue t ∧ ReadyForAccess c t ∧
      t.tapShadow = single .rti ∧ t.tmsShadow = .low ∧
      (engineDrain t).taps.map Tap.lasting = (pre ++ target.accessed address value :: post).map Tap.lasting := by
  have hlegal : (target.withIr address).legal = true := ((ready_fits h) target (by simp [hs])).1
  have hne : len ≠ 0 := by
    have := Tap.legal_drWidth hlegal
    omega
  have haddress : address < 2 ^ c.irLength := by
    have := Nat.two_pow_pos c.irLength
    omega
  obtain ⟨-, -, -, hq⟩ := ready_around h hs hp
  obtain ⟨s1, h1, hr1, hS1, hk1⟩ := issue_address h hs hp haddress rfl (by omega)
  obtain ⟨s2, h2, hr2, hS2, hlow2, hvalue, hk2, hlast2⟩ := issue_value hr1 hS1 hk1 hp hq value hlen rfl hd
  have hidle : s2.params.idleCycles < 2 ^ 32 := by
    obtain ⟨-, -, -, -, -, -, -, -, -, -, hidle⟩ := hr2
    exact hidle
  obtain ⟨s3, hexec, ok, hr3, hS3, hlow3, htaps3, hdrain3⟩ := ready_idle
    (ready_loadPort hr2 0x11 (BitVec.ofNat 32 s2.params.idleCycles) []) hS2 hlow2 (BitVec.ofNat 32 s2.params.idleCycles)
  have h3 : issue 0x11 s2.params.idleCycles [] s2 = .done s3.result s3 := issue_done hidle rfl hexec ok
  have hfits : lengthFits c len s3 = true := lengthFits_addressed hp (by rw [htaps3]; exact hk2) hlen
  refine ⟨s3, ?_, hr3, hS3, hlow3, by rw [hdrain3, engineDrain_loadPort_taps, hlast2]⟩
  obtain ⟨-, -, hsel, -⟩ := h
  simp only [access, hsel, if_neg (Nat.not_lt.mpr ha), if_neg (Nat.not_lt.mpr hw), Config.irWidthMax, if_neg hne, h1, h2,
    h3, Client.andThen, accessResult_fits hfits, hvalue]

end

/-! ## A write and a read of an ECHO register (45_reference_target.md R200) -/

theorem clientTurn_done {p : ClientProc} {s t : State} {r : ClientReply} (hc : s.clientFault = none)
    (h : runProc p s = .done r t) : clientTurn p s = .next { t with clientReply := r } := by
  simp only [clientTurn, hc, h]

/-- The ECHO instruction selects the ECHO register. -/
theorem Tap.withIr_echo {t : Tap} {address : Nat} (hl : t.legal = true) (h : t.echoInstr = some address) :
    (t.withIr address).selected = .echo ∧ (t.withIr address).drWidth = t.echoLen ∧
      (t.withIr address).captureValue = t.echo := by
  have hsel : (t.withIr address).selected = .echo := Tap.selected_echo hl h
  refine ⟨hsel, ?_, ?_⟩
  · rw [Tap.drWidth, hsel]; rfl
  · rw [Tap.captureValue, hsel]; rfl

theorem around_of_getElem? {taps : List Tap} {k : Nat} {target : Tap} (h : taps[k]? = some target) :
    ∃ pre post, taps = pre ++ target :: post ∧ pre.length = k := by
  obtain ⟨hk, rfl⟩ := List.getElem?_eq_some_iff.mp h
  refine ⟨taps.take k, taps.drop (k + 1), ?_, List.length_take_of_le (Nat.le_of_lt hk)⟩
  rw [← List.drop_eq_getElem_cons hk, List.take_append_drop]

/-- A write access of an ECHO register, then a read access at the same address. -/
theorem echo_write_read {c : ChainParameters} {s : State} {target : Tap} {address : Nat} (h : ReadyForAccess c s)
    (ht : (engineDrain s).taps[c.drPre]? = some target) (he : target.echoInstr = some address)
    (ha : address ≤ 2 ^ c.irLength - 1) (hw : c.irPre + c.irLength + c.irPost ≤ 32)
    (hd : c.drPre + target.echoLen + c.drPost < 2 ^ 32) (value : Nat) :
    ∃ v t u, access true address value target.echoLen s = .done v t ∧ t.clientFault = none ∧
      access false address 0 target.echoLen { t with clientReply := .written } =
        .done (value % 2 ^ target.echoLen) u := by
  obtain ⟨pre, post, hs, hp⟩ := around_of_getElem? ht
  obtain ⟨hsel, hwidth, -⟩ := Tap.withIr_echo ((ready_fits h) target (by simp [hs])).1 he
  obtain ⟨t, hwrite, hready, -, -, hlast⟩ := access_done h hs hp ha hw hwidth.symm hd true value
  obtain ⟨pre', target', post', hs', hpre', htarget', -⟩ := map_eq_around hlast
  have hp' : pre'.length = c.drPre := by rw [← hp]; simpa using congrArg List.length hpre'
  simp only [Tap.lasting, Tap.accessed, hsel, if_true, Prod.mk.injEq] at htarget'
  obtain ⟨hfixed, hecho⟩ := htarget'
  have he' : target'.echoInstr = some address := (congrArg (·.2.2.2.1) hfixed).trans he
  have hlen' : target'.echoLen = target.echoLen := congrArg (·.2.2.2.2) hfixed
  have hready' := ready_withPort hready t.op t.count t.data .written
  have hdrain' := congrArg State.taps (engineDrain_withPort t t.op t.count t.data .written)
  obtain ⟨-, hwidth', hvalue'⟩ := Tap.withIr_echo ((ready_fits hready) target' (by simp [hs'])).1 he'
  obtain ⟨u, hread, -⟩ := access_done hready' (hdrain'.trans hs') hp' ha hw (hlen'.symm.trans hwidth'.symm) hd false 0
  rw [hvalue', hecho] at hread
  obtain ⟨-, hcf, -⟩ := hready
  exact ⟨_, t, u, hwrite, hcf, hread⟩

/-- Settles O56: the write leaves the machine ready for the read, which captures what the write shifted in. -/
theorem echoRegisterRoundTrip : Obligations.EchoRegisterRoundTrip := by
  intro s c target address value h ht he ha hw hd
  have hcf : s.clientFault = none := by
    obtain ⟨-, hcf, -⟩ := h
    exact hcf
  refine ⟨?_, fun w h32 => ?_⟩
  · obtain ⟨v, t, u, hwrite, htf, hread⟩ := echo_write_read h ht he ha hw hd value
    exact ⟨_, _, clientTurn_done (t := t) (r := .written) hcf (by rw [runProc, hwrite]; rfl),
      clientTurn_done htf (by rw [runProc, hread]; rfl), rfl⟩
  · obtain ⟨v, t, u, hwrite, htf, hread⟩ := echo_write_read h ht he ha hw hd w.toNat
    rw [h32, Nat.mod_eq_of_lt w.isLt] at hread
    rw [h32] at hwrite
    exact ⟨_, _, clientTurn_done (t := t) (r := .written) hcf (by rw [runProc, hwrite]; rfl),
      clientTurn_done htf (by rw [runProc, hread]; rfl), rfl⟩

end Sys2Proof.Machine
end

section
/-! Proofs about what the client decodes (46_client_procedures.md R225, R227, R230): the IR value's layout, the IDCODE
parse and the IR-length decoder. -/

namespace Sys2Proof.Machine

open Sys2Proof Sys2Proof.Safety

/-- Settles O51, for any address within the IR length. -/
theorem irValueLayout : Obligations.IrValueLayout := fun c _ i h => irValue_testBit c h i

/-! ## The IDCODE parse (46_client_procedures.md R225) -/

/-- The parse from word `w` on. -/
theorem parseIdcodes_eq (cap : List Byte) (m w : Nat) : parseIdcodes cap m w =
    ((List.range m).map fun i => BitVec.ofNat 32 (bufNat cap (32 * (w + i)) 32)).takeWhile (· ≠ 0xFFFFFFFF) := by
  induction m generalizing w with
  | zero => rfl
  | succ m ih =>
    rw [parseIdcodes, ih, List.range_succ_eq_map, List.map_cons, List.map_map, List.takeWhile_cons]
    have hshift : (fun i => BitVec.ofNat 32 (bufNat cap (32 * (w + i)) 32)) ∘ Nat.succ =
        fun i => BitVec.ofNat 32 (bufNat cap (32 * (w + 1 + i)) 32) := by
      funext i
      rw [Function.comp, Nat.succ_eq_add_one, Nat.add_comm i 1, Nat.add_assoc]
    rw [hshift, Nat.add_zero]
    by_cases hv : BitVec.ofNat 32 (bufNat cap (32 * w) 32) = 0xFFFFFFFF <;> simp [hv]

/-- Settles O48, for the parse from the first word. -/
theorem idcodeParseStopsAtTheSentinel : Obligations.IdcodeParseStopsAtTheSentinel := by
  intro cap m
  simpa using parseIdcodes_eq cap m 0

/-! ## Numbers as bit lists -/

theorem natOfBits_lt (bs : List Bool) : natOfBits bs < 2 ^ bs.length := by
  refine Nat.lt_pow_two_of_testBit _ fun i hi => ?_
  rw [natOfBits_testBit, List.getD_eq_default _ _ hi]

theorem natOfBits_byteBits (b : Byte) : natOfBits (byteBits 8 b) = b.toNat := by
  refine Nat.eq_of_testBit_eq fun i => ?_
  rw [natOfBits_testBit, byteBits_getD, BitVec.testBit_toNat]
  by_cases hi : i < 8
  · rw [decide_eq_true hi, Bool.true_and]
  · rw [decide_eq_false hi, Bool.false_and, BitVec.getLsbD_of_ge _ _ (Nat.not_lt.mp hi)]

theorem natOfBits_eq_zero {bs : List Bool} : natOfBits bs = 0 ↔ ∀ b ∈ bs, b = false := by
  induction bs with
  | nil => simp [natOfBits]
  | cons b bs ih => cases b <;> simp [natOfBits, ih]

theorem natOfBits_div_two_pow (zeros : Nat) (bs : List Bool) :
    natOfBits (List.replicate zeros false ++ bs) / 2 ^ zeros = natOfBits bs := by
  have hzero : natOfBits (List.replicate zeros false) = 0 := natOfBits_eq_zero.mpr fun _ => List.eq_of_mem_replicate
  rw [natOfBits_append, hzero, Nat.zero_add, List.length_replicate, Nat.mul_div_cancel_left _ (Nat.two_pow_pos zeros)]

/-- Below the first 1 of a number all its bits are 0. -/
theorem trailingZeros_natOfBits {fuel zeros : Nat} (bs : List Bool) (h : zeros < fuel) :
    trailingZeros fuel (natOfBits (List.replicate zeros false ++ true :: bs)) = zeros := by
  induction zeros generalizing fuel with
  | zero =>
    obtain ⟨k, rfl⟩ := Nat.exists_eq_add_of_le' (Nat.one_le_of_lt h)
    rw [trailingZeros]
    exact if_pos (by simp [natOfBits])
  | succ z ih =>
    obtain ⟨k, rfl⟩ := Nat.exists_eq_add_of_le' (Nat.one_le_of_lt h)
    have hhalf (n : Nat) : (false.toNat + 2 * n) / 2 = n := by simp
    have hodd (n : Nat) : (false.toNat + 2 * n) % 2 ≠ 1 := by simp
    rw [List.replicate_succ, List.cons_append, natOfBits, trailingZeros, if_neg (hodd _), hhalf, ih (by omega),
      Nat.add_comm]

/-! ## The IR-length decoder (46_client_procedures.md R227) -/

/-- The accumulator after a byte is pulled. -/
theorem natOfBits_pull (bits : List Bool) (b : Byte) :
    natOfBits bits ||| b.toNat <<< bits.length = natOfBits (bits ++ byteBits 8 b) := by
  rw [natOfBits_append, natOfBits_byteBits, Nat.or_comm, ← Nat.shiftLeft_add_eq_or_of_lt (natOfBits_lt bits),
    Nat.shiftLeft_eq, Nat.mul_comm, Nat.add_comm]

/-- A stream that begins with zeros and a 1, cut in two: the 1 is in the first part, or that part is all zeros. -/
theorem boundary_split {bits later rest : List Bool} {zeros : Nat}
    (h : bits ++ later = List.replicate zeros false ++ true :: rest) :
    (∃ low, bits = List.replicate zeros false ++ true :: low ∧ low ++ later = rest) ∨ ∀ b ∈ bits, b = false := by
  obtain ⟨xs, hzeros, -⟩ | ⟨xs, rfl, hrest⟩ := List.append_eq_append_iff.mp h
  · exact .inr fun b hb => List.eq_of_mem_replicate (hzeros ▸ List.mem_append_left xs hb)
  · cases xs with
    | nil => exact .inr fun b hb => List.eq_of_mem_replicate (List.append_nil _ ▸ hb)
    | cons x low =>
      obtain ⟨rfl, rfl⟩ := List.cons.inj hrest
      exact .inl ⟨low, rfl, rfl⟩

section
variable {cap : List Byte} {bits : List Bool}

theorem natOfBits_true_odd (bits : List Bool) : natOfBits (true :: bits) % 2 = 1 := by simp [natOfBits]

theorem natOfBits_true_clear (bits : List Bool) : natOfBits (true :: bits) - 1 = natOfBits (false :: bits) := by
  simp [natOfBits]

theorem natOfBits_clear_mod (bits : List Bool) :
    natOfBits (false :: bits) % 2 ^ (bits.length + 1) = natOfBits (false :: bits) :=
  Nat.mod_eq_of_lt (natOfBits_lt (false :: bits))

/-- The inner loop stops at a boundary among the valid bits. -/
theorem findBoundary_valid (h : ∃ b ∈ bits, b = true) : findBoundary cap (natOfBits (true :: bits)) (bits.length + 1) =
    some (natOfBits (false :: bits), bits.length + 1, cap) := by
  have hne : natOfBits (false :: bits) ≠ 0 := fun h0 => by
    obtain ⟨b, hb, rfl⟩ := h
    exact Bool.true_eq_false.mp (natOfBits_eq_zero.mp h0 true (List.mem_cons_of_mem _ hb))
  rw [findBoundary.eq_def]
  simp only [natOfBits_true_odd, natOfBits_true_clear, natOfBits_clear_mod, hne, ne_eq, not_false_iff, if_true]

/-- With no boundary among the valid bits it pulls a byte. -/
theorem findBoundary_pull (b : Byte) (h : ∀ b ∈ bits, b = false) :
    findBoundary (b :: cap) (natOfBits (true :: bits)) (bits.length + 1) =
      findBoundary cap (natOfBits (true :: (bits ++ byteBits 8 b))) ((bits ++ byteBits 8 b).length + 1) := by
  have hzero : natOfBits (false :: bits) = 0 := natOfBits_eq_zero.mpr (List.forall_mem_cons.mpr ⟨rfl, h⟩)
  rw [findBoundary.eq_def]
  simp only [natOfBits_true_odd, natOfBits_true_clear, hzero, Nat.zero_mod, ne_eq, not_true, if_true, if_false]
  rw [← List.cons_append, ← natOfBits_pull, List.length_append, byteBits_length, List.length_cons, Nat.add_right_comm]

/-- Where the inner loop stops, counted from the boundary. -/
theorem findBoundary_stops (cap : List Byte) (zeros : Nat) (low : List Bool) :
    findBoundary cap (natOfBits (true :: (List.replicate zeros false ++ true :: low)))
        ((List.replicate zeros false ++ true :: low).length + 1) =
      some (natOfBits (List.replicate (zeros + 1) false ++ true :: low), zeros + 1 + (low.length + 1), cap) := by
  have hlen : (List.replicate zeros false ++ true :: low).length + 1 = zeros + 1 + (low.length + 1) := by
    rw [List.length_append, List.length_replicate, List.length_cons, Nat.add_right_comm]
  rw [findBoundary_valid ⟨true, by simp, rfl⟩, hlen, List.replicate_succ, List.cons_append]

/-- The inner loop finds the next boundary of the bit stream, which is the valid bits of the accumulator and then the
bytes left. -/
theorem findBoundary_finds {rest : List Bool} {zeros : Nat}
    (h : bits ++ payloadBits cap = List.replicate zeros false ++ true :: rest) :
    ∃ low cap', findBoundary cap (natOfBits (true :: bits)) (bits.length + 1) =
        some (natOfBits (List.replicate (zeros + 1) false ++ true :: low), zeros + 1 + (low.length + 1), cap') ∧
      low ++ payloadBits cap' = rest := by
  induction cap generalizing bits with
  | nil =>
    obtain rfl : bits = _ := (List.append_nil bits).symm.trans h
    exact ⟨rest, [], findBoundary_stops [] zeros rest, List.append_nil rest⟩
  | cons b cap ih =>
    obtain ⟨low, rfl, hrest⟩ | hzeros := boundary_split h
    · exact ⟨low, b :: cap, findBoundary_stops (b :: cap) zeros low, hrest⟩
    · rw [findBoundary_pull b hzeros]
      exact ih (by rw [List.append_assoc]; exact h)

end

/-- What a TAP of `l` instruction bits captures (45_reference_target.md R202 (a)). -/
def capturedIr (l : Nat) : List Bool := true :: List.replicate (l - 1) false

/-- The decoder pulls a byte before it looks for a boundary, if fewer than eight bits are valid and a byte is left. The
stream stays, and its first bit is then a valid one. -/
theorem decodeIrLengths_pulls (k : Nat) {cap : List Byte} {bits stream : List Bool}
    (h : bits ++ payloadBits cap = true :: stream) : ∃ bits' cap', bits' ++ payloadBits cap' = stream ∧
      ∀ {a nb cap'' lens}, findBoundary cap' (natOfBits (true :: bits')) (bits'.length + 1) = some (a, nb, cap'') →
        decodeIrLengths k cap'' (a / 2 ^ trailingZeros nb a) (nb - trailingZeros nb a) = some lens →
        decodeIrLengths (k + 1) cap (natOfBits bits) bits.length = some (trailingZeros nb a :: lens) := by
  have hfront {bits : List Bool} {cap : List Byte} (hne : bits ≠ []) (h : bits ++ payloadBits cap = true :: stream) :
      ∃ bits', bits = true :: bits' ∧ bits' ++ payloadBits cap = stream := by
    obtain ⟨rfl, -⟩ | ⟨bits', rfl, hrest⟩ := List.append_eq_cons_iff.mp h
    · exact absurd rfl hne
    · exact ⟨bits', rfl, hrest.symm⟩
  cases cap with
  | nil =>
    obtain ⟨bits', rfl, hrest⟩ := hfront (fun hnil => by rw [hnil] at h; cases h) h
    refine ⟨bits', [], hrest, fun hfind hlens => ?_⟩
    rw [decodeIrLengths]
    simp only [ite_self, List.length_cons, hfind, hlens]
  | cons b cap =>
    by_cases h8 : bits.length < 8
    · obtain ⟨bits', hbits, hrest⟩ := hfront (bits := bits ++ byteBits 8 b) (cap := cap)
        (fun hnil => by simpa using congrArg List.length hnil) (by rw [List.append_assoc]; exact h)
      have hlength : bits.length + 8 = bits'.length + 1 := by simpa using congrArg List.length hbits
      refine ⟨bits', cap, hrest, fun hfind hlens => ?_⟩
      rw [decodeIrLengths]
      simp only [if_pos h8, natOfBits_pull, hbits, hlength, hfind, hlens]
    · obtain ⟨bits', rfl, hrest⟩ := hfront (fun hnil => by simp [hnil] at h8) h
      refine ⟨bits', b :: cap, hrest, fun hfind hlens => ?_⟩
      have h8 : ¬ bits'.length + 1 < 8 := h8
      rw [decodeIrLengths]
      simp only [if_neg h8, List.length_cons, hfind, hlens]

/-- The decoder on a bit stream, the valid bits of the accumulator and then the bytes left. -/
theorem decodeIrLengths_stream {lens : List Nat} (hl : ∀ l ∈ lens, 1 ≤ l) {cap : List Byte} {bits rest : List Bool}
    (h : bits ++ payloadBits cap = lens.flatMap capturedIr ++ true :: rest) :
    decodeIrLengths lens.length cap (natOfBits bits) bits.length = some lens := by
  induction lens generalizing cap bits with
  | nil => rfl
  | cons l lens ih =>
    obtain ⟨hl1, hls⟩ := List.forall_mem_cons.mp hl
    obtain ⟨next, hnext⟩ : ∃ next, lens.flatMap capturedIr ++ true :: rest = true :: next := by
      cases lens with
      | nil => exact ⟨rest, rfl⟩
      | cons l' ls => exact ⟨_, rfl⟩
    rw [List.flatMap_cons, capturedIr, List.cons_append, List.cons_append, List.append_assoc, hnext] at h
    obtain ⟨bits', cap', hstream, hstep⟩ := decodeIrLengths_pulls lens.length h
    obtain ⟨low, cap'', hfind, hlow⟩ := findBoundary_finds hstream
    rw [Nat.sub_add_cancel hl1] at hfind
    have hlen := trailingZeros_natOfBits low (show l < l + (low.length + 1) by omega)
    refine (hstep hfind ?_).trans (by rw [hlen])
    rw [hlen, natOfBits_div_two_pow, Nat.add_sub_cancel_left]
    exact ih hls (bits := true :: low) ((congrArg (true :: ·) hlow).trans hnext.symm)

/-- Settles O47: the decoder begins with no valid bit, so its stream is the bytes. -/
theorem irDecoderMeasuresLengths : Obligations.IrDecoderMeasuresLengths := by
  intro lens cap hl hbits hlen
  refine decodeIrLengths_stream (bits := []) hl (rest := (payloadBits cap).drop (lens.sum + 1)) ?_
  have htake : (payloadBits cap).take (lens.sum + 1) = bufBits cap (lens.sum + 1) := by
    rw [payloadBits_eq, bufBits, ← List.map_take, List.take_range, Nat.min_eq_left hlen, bufBits]
  calc payloadBits cap
      = (payloadBits cap).take (lens.sum + 1) ++ (payloadBits cap).drop (lens.sum + 1) :=
        (List.take_append_drop _ _).symm
    _ = lens.flatMap capturedIr ++ true :: (payloadBits cap).drop (lens.sum + 1) := by
        rw [htake, hbits, List.append_assoc]
        rfl

end Sys2Proof.Machine
end

section
/-! Proofs about target selection (46_client_procedures.md R222, R228) and the checks of a register access (R229). -/

namespace Sys2Proof.Machine

open Sys2Proof Sys2Proof.Safety

/-! ## Parts of a procedure -/

theorem Client.andThen_done {α β : Type} {c : Client α} {g : α → State → Client β} {b : β} {t : State}
    (h : c.andThen g = .done b t) : ∃ a u, c = .done a u ∧ g a u = .done b t := by
  cases c with
  | done a u => exact ⟨a, u, rfl, h⟩
  | error | contract | fault | refused => cases h

/-! ## Target selection (46_client_procedures.md R228) -/

/-- A selection that succeeds selects the first TAP of its scan with the IDCODE. -/
theorem selectTarget_done {id : BitVec 32} {s t : State} (h : selectTarget id s = .done () t) :
    ∃ taps s1 p target, scan { s with selection := none } = .done taps s1 ∧
      p = taps.findIdx (fun u => u.idcode == id) ∧ taps[p]? = some target ∧
      t.selection = some (chainParameters taps p target) := by
  obtain ⟨taps, s1, hscan, hrest⟩ := Client.andThen_done h
  cases htarget : taps[taps.findIdx fun u => u.idcode == id]? with
  | none => simp only [htarget] at hrest; cases hrest
  | some target =>
    simp only [htarget] at hrest
    cases hrest
    exact ⟨taps, s1, _, target, hscan, rfl, htarget, rfl⟩

/-- A list of TAPs around one of them: the sums of R222. -/
theorem chainParameters_sums {taps : List TapDescriptor} {p : Nat} {target : TapDescriptor}
    (h : taps[p]? = some target) :
    irLengthSum (taps.take p) + target.irLength + irLengthSum (taps.drop (p + 1)) = irLengthSum taps := by
  obtain ⟨hp, rfl⟩ := List.getElem?_eq_some_iff.mp h
  have hsplit : taps.take p ++ taps[p] :: taps.drop (p + 1) = taps := by
    rw [← List.drop_eq_getElem_cons hp, List.take_append_drop]
  rw [← congrArg irLengthSum hsplit]
  simp only [irLengthSum, List.map_append, List.map_cons, List.sum_append, List.sum_cons, Nat.add_assoc]

/-- Settles O49: the first match splits the list of TAPs. -/
theorem selectionObeysItsInvariants : Obligations.SelectionObeysItsInvariants := by
  intro id s t h
  obtain ⟨taps, s1, p, target, hscan, hp, htarget, hsel⟩ := selectTarget_done h
  obtain ⟨hlt, hget⟩ := List.getElem?_eq_some_iff.mp htarget
  refine ⟨taps, p, target, _, htarget, ?_, fun q u hq hu => ?_, ⟨s1, hscan⟩, hsel, rfl, rfl, rfl,
    chainParameters_sums htarget, ?_⟩
  · subst hp
    rw [← hget]
    exact eq_of_beq (List.findIdx_getElem (w := hlt))
  · subst hp
    obtain ⟨_, rfl⟩ := List.getElem?_eq_some_iff.mp hu
    exact ne_of_beq_false (by simpa using List.not_of_lt_findIdx hq)
  · change p + (taps.length - p - 1) + 1 = taps.length
    omega

/-! ## The checks of a register access (46_client_procedures.md R229) -/

section
variable {s : State} {address value len : Nat} {write : Bool}

theorem access_unselected (h : s.selection = none) :
    access write address value len s = .error 0x05 0 s := by
  simp only [access, h]
  rfl

variable {c : ChainParameters} (h : s.selection = some c)
include h

theorem access_outOfRange (ha : 2 ^ c.irLength - 1 < address) :
    access write address value len s = .error 0x04 0 s := by
  simp only [access, h, if_pos ha]
  rfl

theorem access_tooWide (ha : address ≤ 2 ^ c.irLength - 1) (hw : 32 < c.irPre + c.irLength + c.irPost) :
    access write address value len s = .contract .irWidthExceeded s := by
  simp only [access, h, if_neg (Nat.not_lt.mpr ha), Config.irWidthMax]
  exact if_pos hw

theorem access_empty (ha : address ≤ 2 ^ c.irLength - 1) (hw : c.irPre + c.irLength + c.irPost ≤ 32) (hl : len = 0) :
    access write address value len s = .contract .zeroLength s := by
  simp only [access, h, if_neg (Nat.not_lt.mpr ha), Config.irWidthMax, if_neg (Nat.not_lt.mpr hw), if_pos hl]

end

/-- A read and a write are an access and what they answer after it. -/
theorem runProc_access {p : ClientProc} {address len value : Nat}
    (hp : p = .readRegister address len ∨ p = .writeRegister address value len) (s : State) :
    ∃ write v g, runProc p s = (access write address v len s).andThen g := by
  obtain rfl | rfl := hp
  · exact ⟨false, 0, _, rfl⟩
  · exact ⟨true, value, _, rfl⟩

/-- Settles O50: check by check, each before any operation. -/
theorem registerAccessChecksFirst : Obligations.RegisterAccessChecksFirst := by
  intro s address len value p hcf hp
  obtain ⟨write, v, g, hproc⟩ := runProc_access hp s
  have herror {code sub : Byte} (h : access write address v len s = .error code sub s) :
      clientTurn p s = .next { s with clientReply := .error code sub } := by
    simp only [clientTurn, hcf, hproc, h, Client.andThen]
  have hcontract {k : ContractFault} (h : access write address v len s = .contract k s) :
      clientTurn p s = .next { s with clientReply := .contractFault k, clientFault := some k } := by
    simp only [clientTurn, hcf, hproc, h, Client.andThen]
  exact ⟨fun h => herror (access_unselected h), fun c h => ⟨fun ha => herror (access_outOfRange h ha),
    fun ha => ⟨fun hw => hcontract (access_tooWide h ha hw), fun hw hl => hcontract (access_empty h ha hw hl)⟩⟩⟩

end Sys2Proof.Machine
end

section
/-! Proofs about register accesses that succeed (46_client_procedures.md R229 to R233): an access is its three
operations and the decode, and on a chain as selected it reaches the target's register. -/

namespace Sys2Proof.Machine

open Sys2Proof Sys2Proof.Safety

/-! ## The requests of an access (46_client_procedures.md R230, R231) -/

/-- A bit buffer is known by its length and its bits. -/
theorem buffer_ext {a b : List Byte} (hl : a.length = b.length) (h : ∀ i, bufBit a i = bufBit b i) : a = b := by
  induction a generalizing b with
  | nil => exact (List.length_eq_zero_iff.mp hl.symm).symm
  | cons x xs ih =>
    obtain ⟨y, ys, rfl⟩ := List.exists_cons_of_length_eq_add_one hl.symm
    congr 1
    · refine BitVec.eq_of_getLsbD_eq fun i hi => ?_
      simpa only [bufBit_cons, if_pos hi] using h i
    · refine ih (Nat.succ.inj hl) fun i => ?_
      simpa only [bufBit_cons, if_neg (show ¬ i + 8 < 8 by omega), Nat.add_sub_cancel] using h (i + 8)

/-- The buffer that lays out a number is the one with the number's bits, if these fit. -/
theorem eq_natBytes {buf : List Byte} {n v : Nat} (hl : buf.length = n) (hv : ∀ i, 8 * n ≤ i → v.testBit i = false)
    (h : ∀ i, bufBit buf i = v.testBit i) : buf = natBytes n v := by
  refine buffer_ext (hl.trans (natBytes_length n v).symm) fun i => ?_
  rw [h, natBytes_bufBit]
  by_cases hi : i < 8 * n
  · rw [decide_eq_true hi, Bool.true_and]
  · rw [decide_eq_false hi, Bool.false_and, hv i (Nat.not_lt.mp hi)]

theorem irRequest_eq {c : ChainParameters} {address : Nat} {buf : List Byte} (h : IrRequest c address buf)
    (ha : address < 2 ^ c.irLength) : buf =
      natBytes (ceilDiv8 (c.irPre + c.irLength + c.irPost)) (irValue c address) := by
  obtain ⟨hl, hbits⟩ := h
  refine eq_natBytes hl (fun i hi => ?_) fun i => (hbits i).trans (irValue_testBit c ha i).symm
  unfold ceilDiv8 at hi
  rw [irValue_testBit c ha, if_neg (by omega), if_neg (by omega), decide_eq_false (by omega)]

theorem drValue_testBit (c : ChainParameters) (value len i : Nat) : (drValue c value len).testBit i =
    (decide (c.drPre ≤ i ∧ i < c.drPre + len) && value.testBit (i - c.drPre)) := by
  rw [drValue, Nat.testBit_shiftLeft, Nat.testBit_mod_two_pow, ← Bool.and_assoc, ← Bool.decide_and]
  congr 1
  exact decide_eq_decide.mpr (by omega)

theorem drRequest_eq {c : ChainParameters} {value len : Nat} {buf : List Byte} (h : DrRequest c value len buf) :
    buf = natBytes (ceilDiv8 (c.drPre + len + c.drPost)) (drValue c value len) := by
  obtain ⟨hl, hbits⟩ := h
  refine eq_natBytes hl (fun i hi => ?_) fun i => (hbits i).trans (drValue_testBit c value len i).symm
  unfold ceilDiv8 at hi
  rw [drValue_testBit, decide_eq_false (by omega), Bool.false_and]

theorem bufNat_lt (buf : List Byte) (o w : Nat) : bufNat buf o w < 2 ^ w :=
  Nat.lt_pow_two_of_testBit _ fun i hi => by rw [bufNat_testBit, decide_eq_false (by omega), Bool.false_and]

/-! ## An access as its operations (46_client_procedures.md R229) -/

section
variable {s s1 s2 s3 : State} {c : ChainParameters} {address value len : Nat} {ir cap idle : List Byte} {write : Bool}

/-- An access whose operations succeed ends with the decode. -/
theorem access_operations (h : s.selection = some c) (ha : address ≤ 2 ^ c.irLength - 1)
    (hw : c.irPre + c.irLength + c.irPost ≤ 32) (hl : len ≠ 0)
    (h1 : issue 0x12 (c.irPre + c.irLength + c.irPost)
      (natBytes (ceilDiv8 (c.irPre + c.irLength + c.irPost)) (irValue c address)) s = .done ir s1)
    (h2 : issue 0x15 (c.drPre + len + c.drPost)
      (natBytes (ceilDiv8 (c.drPre + len + c.drPost)) (drValue c value len)) s1 = .done cap s2)
    (h3 : issue 0x11 s2.params.idleCycles [] s2 = .done idle s3) :
    access write address value len s = accessResult write c cap len s3 := by
  simp only [access, h, if_neg (Nat.not_lt.mpr ha), Config.irWidthMax, if_neg (Nat.not_lt.mpr hw), if_neg hl, h1, h2,
    h3, Client.andThen]

/-- The end of an access whose length does not fit (93_implementation_defined.md I14). -/
theorem accessResult_misfits (cap : List Byte) (h : lengthFits c len s ≠ true) : accessResult write c cap len s =
    .done (Config.freeResult s.freeCount % 2 ^ len) (if write then spoilTarget c s else drawResult s) :=
  if_neg h

/-- A read ends with a value of `len` bits, the decoded one if the length fits, and changes at most the draws. -/
theorem accessResult_value (c : ChainParameters) (cap : List Byte) (len : Nat) (s : State) :
    ∃ v n, accessResult false c cap len s = .done v { s with freeCount := n } ∧ v < 2 ^ len ∧
      (lengthFits c len s = true → n = s.freeCount ∧
        ∀ i, v.testBit i = (decide (i < len) && bufBit cap (c.drPre + i))) := by
  by_cases h : lengthFits c len s = true
  · exact ⟨_, _, accessResult_fits h, bufNat_lt _ _ _, fun _ => ⟨rfl, bufNat_testBit cap c.drPre len⟩⟩
  · exact ⟨_, s.freeCount + 1, accessResult_misfits cap h, Nat.mod_lt _ (Nat.two_pow_pos len),
      fun hfits => absurd hfits h⟩

/-- A write ends with the machine as its operations left it, if the length fits. -/
theorem accessResult_written (c : ChainParameters) (cap : List Byte) (len : Nat) (s : State) :
    ∃ v t, accessResult true c cap len s = .done v t ∧ (lengthFits c len s = true → t = s) := by
  by_cases h : lengthFits c len s = true
  · exact ⟨_, s, accessResult_fits h, fun _ => rfl⟩
  · exact ⟨_, _, accessResult_misfits cap h, fun hfits => absurd hfits h⟩

end

/-- Settles O54: the requests are those that the client lays out, so the three operations are those it issues. -/
theorem registerAccessIsItsOperations : Obligations.RegisterAccessIsItsOperations := by
  intro s s1 s2 s3 c address value len ir dr hcf hsel ha w d hw hlen hd hidle hir hdr wc dc ic h1 ok1 h2 ok2 h3 ok3
  have haddress : address < 2 ^ c.irLength := by
    have := Nat.two_pow_pos c.irLength
    omega
  obtain rfl := irRequest_eq hir haddress
  obtain rfl := drRequest_eq hdr
  have hparams : s2.params = s.params := (exec_operationFrame h2).params.trans (exec_operationFrame h1).params
  have i1 := issue_done (op := 0x12) (s := s) (show w < 2 ^ 32 by omega) rfl h1 ok1
  have i2 := issue_done (op := 0x15) hd rfl h2 ok2
  have i3 : issue 0x11 s2.params.idleCycles [] s2 = .done s3.result s3 := by
    rw [hparams]
    exact issue_done hidle rfl h3 ok3
  have haccess (write : Bool) : access write address value len s = accessResult write c s2.result len s3 :=
    access_operations hsel ha hw hlen i1 i2 i3
  refine ⟨?read, ?write⟩
  case read =>
    rintro rfl
    obtain ⟨v, n, hresult, hlt, hfits⟩ := accessResult_value c s2.result len s3
    rw [← haccess] at hresult
    refine ⟨v, n, hlt, hfits, clientTurn_done (t := { s3 with freeCount := n }) (r := .value v) hcf
      (by rw [runProc, hresult]; rfl), ?_⟩
    rintro rfl
    exact clientTurn_done (t := { s3 with freeCount := n }) (r := .value v) hcf (by rw [runProc, hresult]; rfl)
  case write =>
    obtain ⟨v, t, hresult, hfits⟩ := accessResult_written c s2.result len s3
    rw [← haccess] at hresult
    refine ⟨_, clientTurn_done (t := t) (r := .written) hcf (by rw [runProc, hresult]; rfl), rfl,
      fun h => by rw [hfits h], ?_⟩
    rintro rfl hvalue
    exact clientTurn_done (t := t) (r := .written) hcf (by
      rw [runProc, BitVec.toNat_ofNat, Nat.mod_eq_of_lt hvalue, hresult]
      rfl)

/-! ## An access on a chain as selected (45_reference_target.md R196, R200, R202 (d)) -/

section
variable {t : Tap} {address : Nat}

theorem Tap.withIr_idcode (hl : t.legal = true) (h : address = t.idcodeInstr) :
    (t.withIr address).drWidth = 32 ∧ (t.withIr address).captureValue = t.idcode.toNat := by
  have hsel : (t.withIr address).selected = .idcode := Tap.selected_idcode hl h
  rw [Tap.drWidth, Tap.captureValue, hsel]
  exact ⟨rfl, rfl⟩

theorem Tap.withIr_bypass (hi : address ≠ t.idcodeInstr) (he : t.echoInstr ≠ some address) :
    (t.withIr address).drWidth = 1 ∧ (t.withIr address).captureValue = 0 := by
  have hsel : (t.withIr address).selected = .bypass := Tap.selected_bypass hi he
  rw [Tap.drWidth, Tap.captureValue, hsel]
  exact ⟨rfl, rfl⟩

theorem Tap.withIr_selects_echo (hl : t.legal = true) :
    (t.withIr address).selected = .echo ↔ t.echoInstr = some address := by
  refine ⟨fun hsel => ?_, fun h => (Tap.withIr_echo hl h).1⟩
  by_contra he
  by_cases hi : address = t.idcodeInstr
  · rw [Tap.selected_idcode (t := t.withIr address) hl hi] at hsel
    cases hsel
  · rw [Tap.selected_bypass (t := t.withIr address) hi he] at hsel
    cases hsel

/-- The register that an address selects, its width and what it captures. -/
theorem Tap.withIr_register {len v : Nat} (hl : t.legal = true)
    (h : (address = t.idcodeInstr ∧ len = 32 ∧ v = t.idcode.toNat) ∨
      (t.echoInstr = some address ∧ len = t.echoLen ∧ v = t.echo) ∨
      (address ≠ t.idcodeInstr ∧ t.echoInstr ≠ some address ∧ len = 1 ∧ v = 0)) :
    len = (t.withIr address).drWidth ∧ (t.withIr address).captureValue = v := by
  obtain ⟨hi, rfl, rfl⟩ | ⟨he, rfl, rfl⟩ | ⟨hi, he, rfl, rfl⟩ := h
  · exact (Tap.withIr_idcode hl hi).imp_left Eq.symm
  · obtain ⟨-, hwidth, hvalue⟩ := Tap.withIr_echo hl he
    exact ⟨hwidth.symm, hvalue⟩
  · exact (Tap.withIr_bypass hi he).imp_left Eq.symm

end

/-- A function that looks at the position only to tell one place of a list apart. -/
theorem mapIdx_around {f : Nat → Tap → Nat} {g : Tap → Nat} {pre post : List Tap} (target : Tap)
    (h : ∀ p u, p ≠ pre.length → f p u = g u) :
    (pre ++ target :: post).mapIdx f = pre.map g ++ f pre.length target :: post.map g := by
  have hmap (l : List Tap) (k : Nat) (hk : ∀ i < l.length, i + k ≠ pre.length) :
      l.mapIdx (fun i => f (i + k)) = l.map g :=
    List.ext_getElem (by simp) fun i h1 h2 => by
      rw [List.getElem_mapIdx, List.getElem_map]
      exact h _ _ (hk i (by simpa using h2))
  have hpre := hmap pre 0 fun i hi => Nat.ne_of_lt hi
  have hpost := hmap post (1 + pre.length) fun i hi => by omega
  rw [List.mapIdx_append, List.mapIdx_cons, Nat.zero_add]
  simp only [Nat.add_zero, ← Nat.add_assoc] at hpre hpost
  rw [hpre, hpost]

/-- Settles O55: one access of the target between the TAPs before and after it. -/
theorem registerAccessReachesTheTarget : Obligations.RegisterAccessReachesTheTarget := by
  intro s c target address value len v h ht ha hw hd hreg
  obtain ⟨pre, post, hs, hp⟩ := around_of_getElem? ht
  have hlegal : target.legal = true := (ready_fits h target (by simp [hs])).1
  obtain ⟨hlen, hvalue⟩ := Tap.withIr_register hlegal hreg
  have hcf : s.clientFault = none := by
    obtain ⟨-, hcf, -⟩ := h
    exact hcf
  refine ⟨?read, ?write⟩
  case read =>
    obtain ⟨t, hread, -, htap, htms, -⟩ := access_done h hs hp ha hw hlen hd false 0
    exact ⟨_, clientTurn_done (t := t) (r := .value v) hcf (by rw [runProc, hread, hvalue]; rfl), rfl, htap, htms⟩
  case write =>
    obtain ⟨t, hwrite, -, htap, htms, hlast⟩ := access_done h hs hp ha hw hlen hd true value
    refine ⟨_, clientTurn_done (t := t) (r := .written) hcf (by rw [runProc, hwrite]; rfl), rfl, htap, htms, ?_⟩
    have htaps : (engineDrain { t with clientReply := .written }).taps = (engineDrain t).taps :=
      (congrArg State.taps (engineDrain_withPort t t.op t.count t.data .written)).trans rfl
    have hecho : (target.accessed address value).echo =
        if target.echoInstr = some address then value % 2 ^ len else target.echo := by
      change (if (target.withIr address).selected = .echo then _ else _) = _
      simp only [Tap.withIr_selects_echo hlegal]
      split
      · rw [hlen, (Tap.withIr_echo hlegal ‹_›).2.1]
      · rfl
    rw [htaps, map_eq_of_map_eq (g := Tap.echo) (fun _ _ => congrArg Prod.snd) hlast, hs,
      mapIdx_around (g := Tap.echo) target]
    · simp [hecho, hp]
    · intro p u hpu
      exact if_neg fun hat => hpu (hat.1.trans hp.symm)

end Sys2Proof.Machine
end

section
/-! Proofs about the operations of a scan (46_client_procedures.md R223, R224, R226): a reset of a chain in any state, then
a capturing scan that shifts in ones. -/

namespace Sys2Proof.Machine

open Sys2Proof Sys2Proof.Safety

/-! ## A machine that a scan can run on -/

/-- The state that a pass of the scan needs, with its parameters and the chain whose TAPs it has: the block accepts
operations, in step with a chain of legal TAPs in any state, and every write and read succeeds. -/
structure Scannable (p : Params) (chain : List Tap) (s : State) : Prop where
  params : s.params = p
  chain : s.taps.map Tap.fixed = chain.map Tap.fixed
  accepting : Accepting s
  distinct : s.params.distinct
  loopback : s.loopback = false
  shadow : s.tapShadow ≠ 0
  queue : (engineDrain s).cmdQueue = []
  replies : (engineDrain s).replyQueue = []
  writes : s.writeFails = []
  reads : s.readDraws = []
  fits : ChainFits s.taps

/-- The engine's run ends with every TAP in Test-Logic-Reset and IDCODE selected (45_reference_target.md R199). -/
def ChainReset (s : State) : Prop :=
  s.tapShadow = single .tlr ∧ ∀ t ∈ (engineDrain s).taps, t.state = .tlr ∧ t.ir = t.idcodeInstr

section
variable {p : Params} {chain : List Tap} {s t : State}

theorem scannable_loadPort (h : Scannable p chain s) (op : Byte) (count : Count) (data : List Byte) :
    Scannable p chain (loadPort op count data s) where
  params := h.params
  chain := h.chain
  accepting := h.accepting
  distinct := h.distinct
  loopback := h.loopback
  shadow := h.shadow
  queue := (congrArg State.cmdQueue (engineDrain_withPort s op count data s.clientReply)).trans h.queue
  replies := (congrArg State.replyQueue (engineDrain_withPort s op count data s.clientReply)).trans h.replies
  writes := h.writes
  reads := h.reads
  fits := h.fits

/-- What an operation may leave. -/
theorem scannable_of_exec (h : Scannable p chain s) {i : Instr} (he : exec i s = .next t) (ha : Accepting t)
    (hS : t.tapShadow ≠ 0) (hq : (engineDrain t).cmdQueue = []) (hrep : (engineDrain t).replyQueue = [])
    (hw : t.writeFails = []) (hr : t.readDraws = []) (hf : ChainFits t.taps) : Scannable p chain t := by
  have hframe := exec_operationFrame he
  exact ⟨hframe.params.trans h.params, hframe.taps.trans h.chain, ha, hframe.params ▸ h.distinct,
    hframe.loopback.trans h.loopback, hS, hq, hrep, hw, hr, hf⟩

/-! ## reset() (42_tap_controller.md R162, 45_reference_target.md R199) -/

/-- The commands of TAP_RESET: eight TMS-1 clocks each, TDI 1. -/
theorem tmsPlan_reset : tmsPlan resetSeq 40 = List.replicate 5 (.tmsOut 7 0xFF) := by decide

theorem runCommand_reset (hl : s.loopback = false) : runCommand (.tmsOut 7 0xFF) s = { s with
    tmsPin := true, taps := chainAfter s.taps (List.replicate 8 (true, true)) } := by
  rw [runCommand, tmsCommand_chain _ _ hl]
  rfl

theorem runCommands_reset (hl : s.loopback = false) : runCommands (tmsPlan resetSeq 40) s = { s with
    tmsPin := true, taps := chainAfter s.taps (List.replicate 40 (true, true)) } := by
  have hrun (k : Nat) : ∀ {s : State}, s.loopback = false →
      runCommands (List.replicate (k + 1) (.tmsOut 7 0xFF)) s = { s with
        tmsPin := true, taps := chainAfter s.taps (List.replicate (8 * (k + 1)) (true, true)) } := by
    induction k with
    | zero => exact fun hl => runCommand_reset hl
    | succ k ih =>
      intro s hl
      rw [List.replicate_succ, runCommands_cons, runCommand_reset hl, ih (by exact hl), Nat.mul_succ 8 (k + 1),
        Nat.add_comm _ 8, List.replicate_add, chainAfter_append]
  rw [tmsPlan_reset]
  exact hrun 4 hl

/-- The clocks of TAP_RESET reset every TAP. -/
theorem chainAfter_reset (taps : List Tap) :
    ∀ t ∈ chainAfter taps (List.replicate 40 (true, true)), t.state = .tlr ∧ t.ir = t.idcodeInstr := by
  rw [show 40 = 35 + 5 from rfl, List.replicate_add, chainAfter_append]
  exact fiveHighClocksResetEveryTap _ true

/-- The engine's run of commands that leave it no reply and the chain in a state of their own. -/
theorem engineDrain_emits {is : List Instr} (h : Scannable p chain s) (hc : Commands is) {pin : Bool} {taps : List Tap}
    (hrun : ∀ e : State, e.loopback = false → e.taps = (engineDrain s).taps →
      runCommands is e = { e with tmsPin := pin, taps := taps }) :
    (engineDrain (emitted is s)).cmdQueue = [] ∧ (engineDrain (emitted is s)).replyQueue = [] ∧
      (engineDrain (emitted is s)).taps = taps := by
  rw [engineDrain_emitted_queued h.distinct hc h.queue, executed,
    hrun (issued is (engineDrain s)) ((engineDrain_loopback s).trans h.loopback) rfl]
  exact ⟨rfl, h.replies, rfl⟩

/-- TAP_RESET resets the chain, whatever state it is in. -/
theorem scannable_reset (h : Scannable p chain s) :
    ∃ t, exec .tapReset s = .next t ∧ t.status = statusOk ∧ Scannable p chain t ∧ ChainReset t := by
  have hexec : exec .tapReset s = .next (withReply statusOk 0 [] (emitted (tmsPlan resetSeq 40) s)) := by
    rw [execTapReset_accepted h.accepting, shiftTmsPhase, emitAll_ok (writesOk_of_nil h.writes _),
      Flow.returnedEmpty_run]
    rfl
  have hS : (shadowCommands (tmsPlan resetSeq 40) s).tapShadow = single .tlr := by
    rw [(shadowCommands_tms s (by decide)).1, walk_resetSeq h.shadow]
  have hrun : ∀ e : State, e.loopback = false → e.taps = (engineDrain s).taps →
      runCommands (tmsPlan resetSeq 40) e = { e with
        tmsPin := true, taps := chainAfter (engineDrain s).taps (List.replicate 40 (true, true)) } :=
    fun e hl htaps => by rw [runCommands_reset hl, htaps]
  obtain ⟨hq, hrep, htaps⟩ := engineDrain_emits h (tmsPlan_commands _ _) hrun
  refine ⟨_, hexec, rfl, scannable_of_exec h hexec h.accepting ?_ ?_ ?_ ?_ h.reads h.fits, hS, ?_⟩
  · exact hS ▸ single_ne_zero .tlr
  · rw [engineDrain_withReply]; exact hq
  · rw [engineDrain_withReply]; exact hrep
  · change spendWrites _ s.writeFails = []
    rw [h.writes, spendWrites]
  · rw [engineDrain_withReply]
    exact htaps ▸ chainAfter_reset _

/-- The first operation of a pass. -/
theorem issueReset_done (h : Scannable p chain s) :
    ∃ t, issueReset s = .done t.result t ∧ Scannable p chain t ∧ ChainReset t := by
  obtain ⟨t, hexec, ok, ht, hreset⟩ := scannable_reset (scannable_loadPort h 0x10 (BitVec.ofNat 32 0) [])
  exact ⟨t, issue_done (by decide) rfl hexec ok, ht, hreset⟩

/-! ## A capturing scan of ones -/

theorem bufBits_ones {n k : Nat} (h : n ≤ 8 * k) : bufBits (ones k) n = List.replicate n true := by
  refine List.eq_replicate_iff.mpr ⟨bufBits_length _ _, fun b hb => ?_⟩
  obtain ⟨i, hi, rfl⟩ := List.mem_map.mp hb
  have hlt : i / 8 < k := by
    have := List.mem_range.mp hi
    omega
  have hbyte : ∀ j < 8, (0xFF : Byte).getLsbD j = true := by decide
  rw [bufBit, ones, List.getD_replicate (h := hlt)]
  exact hbyte _ (Nat.mod_lt _ (by decide))

/-- No TAP drives TDO of an empty chain, which reads 1 (45_reference_target.md R193). -/
theorem samplesOf_empty (cs : List (Bool × Bool)) : samplesOf [] cs = List.replicate cs.length true := by
  induction cs with
  | nil => rfl
  | cons k ks ih => rw [samplesOf, clockChain, ih]; rfl

/-- What a scan of ones samples of a chain that has been reset, of any length: what the chain captured, then ones. -/
theorem Column.samples_ones {c : Column} {taps : List Tap} {n : Nat} {data : List Byte}
    (h : ∀ t ∈ taps, t.state = .tlr) (hf : ChainFits taps) (hn : n ≠ 0)
    (hones : bufBits data n = List.replicate n true) :
    samplesOf (chainAfter taps (entryClocks (single .tlr) c.walked)) (tdiClocks data n false) =
      (c.path (taps.map c.captured) ++ List.replicate n true).take n := by
  have hentry : chainAfter taps (entryClocks (single .tlr) c.walked) = taps.map c.captured :=
    Column.entry_chain (.inr rfl) h
  rw [hentry]
  by_cases hne : taps = []
  · subst hne
    rw [List.map_nil, samplesOf_empty, tdiClocks_length hn]
    simp [Column.path]
  · have hshifting : c.Shifting (taps.map c.captured) := ⟨hentry ▸ chainAfter_fits hf _, by simp⟩
    obtain ⟨hbits, -, -⟩ := hshifting.dataShift (data := data) (by simpa using hne) hn
    rw [← hones, ← hbits, List.take_left' (by rw [samplesOf_length, tdiClocks_length hn])]

/-- A capturing scan of ones of a chain that has been reset. -/
theorem scannable_transfer (h : Scannable p chain s) (hreset : ChainReset s) (col : Column) {count : Count}
    {data : List Byte} (hp : PayloadOk count data)
    (hones : bufBits data count.toNat = List.replicate count.toNat true) :
    ∃ t, exec (col.transferInstr count data) s = .next t ∧ t.status = statusOk ∧ Scannable p chain t ∧
      t.tapShadow = single .rti ∧ t.tmsShadow = .low ∧ HoldsSamples t.result count.toNat
        ((col.path ((engineDrain s).taps.map col.captured) ++ List.replicate count.toNat true).take count.toNat) := by
  obtain ⟨hS, hstates⟩ := hreset
  have hk : ShadowKnown s := .inr hS
  have hd : (engineDrain s).params.distinct := by simpa using h.distinct
  have hl : (engineDrain s).loopback = false := by simpa using h.loopback
  have hwd : (engineDrain s).writeFails = [] := by rw [engineDrain_frame]; exact h.writes
  have hrd : (engineDrain s).readDraws = [] := by rw [engineDrain_frame]; exact h.reads
  have had : Accepting (engineDrain s) := by rw [engineDrain_frame]; exact h.accepting
  have hkd : ShadowKnown (engineDrain s) := by rw [engineDrain_frame]; exact hk
  obtain ⟨rx, result, -, hsamples, hexec⟩ := exec_transferInstr_ok (c := col) had hp hkd (writesOk_of_nil hwd _) hd hl
    ⟨h.queue, h.replies⟩ (readFull_of_nil hrd)
  rw [← exec_transferInstr_drained h.accepting hp hk (writesOk_of_nil h.writes _) h.distinct h.queue] at hexec
  rw [engineDrain_tapShadow, hS, Column.samples_ones (fun t ht => (hstates t ht).1) (engineDrain_fits s h.fits)
    (count_toNat_ne_zero hp.1) hones] at hsamples
  refine ⟨_, hexec, rfl, scannable_of_exec h hexec had (single_ne_zero .rti) ?_ ?_ ?_ ?_
    (chainAfter_fits (engineDrain_fits s h.fits) _), rfl, rfl, hsamples⟩
  · exact congrArg State.cmdQueue (engineDrain_exit (by exact hd) (by exact hl) rfl)
  · exact (congrArg State.replyQueue (engineDrain_exit (by exact hd) (by exact hl) rfl)).trans h.replies
  · change spendWrites _ (engineDrain s).writeFails = []
    rw [hwd, spendWrites]
  · change (engineDrain s).readDraws.tail = []
    rw [hrd, List.tail_nil]

/-- The second operation of a pass. -/
theorem issue_ones (h : Scannable p chain s) (hreset : ChainReset s) (col : Column) {op : Byte}
    (hop : ∀ count data, decodeRequest op count data = col.transferInstr count data) {n : Nat} (hn : n ≠ 0)
    (hn32 : n < 2 ^ 32) : ∃ t, issue op n (ones (ceilDiv8 n)) s = .done t.result t ∧ Scannable p chain t ∧
      t.tapShadow = single .rti ∧ t.tmsShadow = .low ∧ HoldsSamples t.result n
        ((col.path ((engineDrain s).taps.map col.captured) ++ List.replicate n true).take n) := by
  have hcount := count_toNat hn32
  have hp : PayloadOk (BitVec.ofNat 32 n) (ones (ceilDiv8 n)) :=
    ⟨fun h0 => hn (by rw [← hcount, h0]; rfl), by rw [hcount, ones, List.length_replicate, ceilDiv8]⟩
  have hones : bufBits (ones (ceilDiv8 n)) n = List.replicate n true := bufBits_ones (by unfold ceilDiv8; omega)
  have hdrain : (engineDrain (loadPort op (BitVec.ofNat 32 n) (ones (ceilDiv8 n)) s)).taps = (engineDrain s).taps :=
    engineDrain_loadPort_taps _ _ _ s
  obtain ⟨t, hexec, ok, ht, hrti, hlow, hsamples⟩ := scannable_transfer
    (scannable_loadPort h op (BitVec.ofNat 32 n) (ones (ceilDiv8 n))) ⟨hreset.1, hdrain ▸ hreset.2⟩ col hp
    (by rw [hcount]; exact hones)
  rw [hcount, hdrain] at hsamples
  exact ⟨t, issue_done hn32 (hop _ _) hexec ok, ht, hrti, hlow, hsamples⟩

end

end Sys2Proof.Machine
end

section
/-! Proofs about the scan (46_client_procedures.md R223 to R227, 45_reference_target.md R202): what its two passes capture
of a chain that has been reset, and what they decode from it. -/

namespace Sys2Proof.Machine

open Sys2Proof Sys2Proof.Safety

/-! ## Captured words and lengths -/

/-- A word of a bit buffer is the number that has its bits. -/
theorem bufNat_word {cap : List Byte} {o : Nat} {v : BitVec 32} (h : ∀ i < 32, bufBit cap (o + i) = v.getLsbD i) :
    BitVec.ofNat 32 (bufNat cap o 32) = v := by
  refine BitVec.eq_of_getLsbD_eq fun i hi => ?_
  rw [BitVec.getLsbD_ofNat, bufNat_testBit, decide_eq_true hi, Bool.true_and, Bool.true_and, h i hi]

theorem Tap.legal_idcode {t : Tap} (h : t.legal = true) : t.idcode ≠ 0xFFFFFFFF := by
  simp only [Tap.legal, Bool.and_eq_true, bne_iff_ne] at h
  obtain ⟨⟨⟨⟨hid, -⟩, -⟩, -⟩, -⟩ := h
  exact hid

/-- What a TAP captures in a pass of IDCODEs. -/
def capturedId (id : BitVec 32) : List Bool := valueBits 32 id.toNat

theorem capturedId_getD {id : BitVec 32} {rest : List Bool} {i : Nat} (hi : i < 32) :
    (capturedId id ++ rest).getD i false = id.getLsbD i := by
  rw [List.getD_append _ _ _ _ (by simpa [capturedId] using hi)]
  simp [capturedId, valueBits, hi, BitVec.testBit_toNat]

/-- The parse of captured IDCODEs and then ones, from word `w` on. -/
theorem parseIdcodes_captured {ids : List (BitVec 32)} (hne : ∀ id ∈ ids, id ≠ 0xFFFFFFFF) {cap : List Byte}
    {k n w : Nat} (hk : 32 * k ≤ n) (h : ∀ i < 32 * (ids.length + k), bufBit cap (32 * w + i) =
      (ids.flatMap capturedId ++ List.replicate n true).getD i false) :
    parseIdcodes cap (ids.length + k) w = ids := by
  induction ids generalizing w with
  | nil =>
    cases k with
    | zero => rfl
    | succ k =>
      have hword : BitVec.ofNat 32 (bufNat cap (32 * w) 32) = 0xFFFFFFFF := bufNat_word fun i hi => by
        have hones : ∀ j < 32, (0xFFFFFFFF : BitVec 32).getLsbD j = true := by decide
        rw [h i (by simp only [List.length_nil]; omega), hones i hi]
        change (List.replicate n true).getD i false = true
        exact List.getD_replicate true (by omega)
      rw [List.length_nil, Nat.zero_add, parseIdcodes]
      exact if_pos hword
  | cons id ids ih =>
    obtain ⟨hid, hids⟩ := List.forall_mem_cons.mp hne
    rw [List.flatMap_cons, List.append_assoc, List.length_cons] at h
    have hword : BitVec.ofNat 32 (bufNat cap (32 * w) 32) = id := bufNat_word fun i hi => by
      rw [h i (by omega), capturedId_getD hi]
    have hrest : parseIdcodes cap (ids.length + k) (w + 1) = ids := ih hids fun i hi => by
      have hlater := h (32 + i) (by omega)
      rw [List.getD_append_right _ _ _ _ (by simp [capturedId])] at hlater
      rw [show 32 * (w + 1) + i = 32 * w + (32 + i) by omega, hlater]
      congr 1
      simp [capturedId]
    rw [List.length_cons, Nat.add_right_comm, parseIdcodes]
    simp only [hword, hid, if_false, hrest]

theorem holdsSamples_bufBit {result : List Byte} {n i : Nat} {stream : List Bool}
    (h : HoldsSamples result n (stream.take n)) (hi : i < n) : bufBit result i = stream.getD i false := by
  obtain ⟨-, -, hbits⟩ := h
  rw [hbits, List.getD_eq_getElem?_getD, List.getElem?_take_of_lt hi, List.getD_eq_getElem?_getD]

theorem holdsSamples_bufBits {result : List Byte} {n k : Nat} {stream : List Bool}
    (h : HoldsSamples result n (stream.take n)) (hk : k ≤ n) (hs : k ≤ stream.length) :
    bufBits result k = stream.take k := by
  refine List.ext_getElem (by simpa using hs) fun i h1 h2 => ?_
  have hi : i < k := by simpa using h1
  have hbit := holdsSamples_bufBit h (hi.trans_le hk)
  rw [List.getElem_take]
  simpa [bufBits, hi.trans_le hs] using hbit

/-! ## The two passes (46_client_procedures.md R224, R226) -/

section
variable {p : Params} {chain : List Tap} {s : State}

/-- What depends on a TAP's parameters is the same on the chain that the engine's run leaves. -/
theorem scannable_drained {β : Type} {g : Tap → β} (hg : ∀ t u : Tap, t.fixed = u.fixed → g t = g u)
    (h : Scannable p chain s) : (engineDrain s).taps.map g = chain.map g :=
  map_eq_of_map_eq hg ((engineDrain_fixed s).trans h.chain)

theorem capturedIr_length {lens : List Nat} (h : ∀ l ∈ lens, 1 ≤ l) : (lens.flatMap capturedIr).length = lens.sum := by
  rw [List.length_flatMap]
  refine congrArg List.sum ((List.map_congr_left fun l hl => ?_).trans (List.map_id lens))
  simp [capturedIr, Nat.sub_add_cancel (h l hl)]

/-- A chain that has been reset captures its IDCODEs. -/
theorem path_ids (h : Scannable p chain s) (hreset : ChainReset s) :
    Column.dr.path ((engineDrain s).taps.map Column.dr.captured) = (chain.map Tap.idcode).flatMap capturedId := by
  have hregister : ∀ t ∈ (engineDrain s).taps, valueBits t.drWidth t.captureValue = capturedId t.idcode := by
    intro t ht
    rw [Tap.drWidth, Tap.captureValue, Tap.selected_idcode (engineDrain_fits s h.fits t ht).1 (hreset.2 t ht).2]
    rfl
  calc Column.dr.path ((engineDrain s).taps.map Column.dr.captured)
      = ((engineDrain s).taps.map fun t => capturedId t.idcode).flatten := by
        rw [capturedDr_path, List.map_congr_left hregister]
    _ = ((engineDrain s).taps.map Tap.idcode).flatMap capturedId := by rw [List.flatMap_map, List.flatMap_def]
    _ = (chain.map Tap.idcode).flatMap capturedId := by
        rw [scannable_drained (g := Tap.idcode) (fun _ _ => congrArg Prod.fst) h]

/-- A chain captures its IR lengths (45_reference_target.md R202 (a)). -/
theorem path_lengths (h : Scannable p chain s) :
    Column.ir.path ((engineDrain s).taps.map Column.ir.captured) = (chain.map Tap.irLength).flatMap capturedIr := by
  have hregister : ∀ t ∈ (engineDrain s).taps, valueBits t.irLength 1 = capturedIr t.irLength := fun t ht =>
    valueBits_one (Tap.legal_irLength (engineDrain_fits s h.fits t ht).1)
  calc Column.ir.path ((engineDrain s).taps.map Column.ir.captured)
      = (engineDrain s).taps.flatMap fun t => valueBits t.irLength 1 := List.flatMap_map _ _ _
    _ = (engineDrain s).taps.flatMap fun t => capturedIr t.irLength := List.flatMap_congr hregister
    _ = ((engineDrain s).taps.map Tap.irLength).flatMap capturedIr := (List.flatMap_map _ _ _).symm
    _ = (chain.map Tap.irLength).flatMap capturedIr := by
        rw [scannable_drained (g := Tap.irLength) (fun _ _ hf => congrArg (·.2.1) hf) h]

/-- The IDCODE pass lists the IDCODEs. -/
theorem idcodePass_done (h : Scannable p chain s) (hlegal : ∀ t ∈ chain, t.legal = true)
    (hlen : chain.length ≤ p.maxDeviceCount) (h0 : p.maxDeviceCount ≠ 0) (h32 : 32 * p.maxDeviceCount < 2 ^ 32) :
    ∃ t, idcodePass s = .done (chain.map Tap.idcode) t ∧ Scannable p chain t := by
  obtain ⟨s1, h1, hs1, hreset⟩ := issueReset_done h
  obtain ⟨s2, h2, hs2, -, -, hsamples⟩ := issue_ones hs1 hreset .dr (op := 0x15) (fun _ _ => rfl)
    (show 32 * p.maxDeviceCount ≠ 0 by omega) h32
  rw [path_ids hs1 hreset] at hsamples
  obtain ⟨k, hk⟩ := Nat.exists_eq_add_of_le hlen
  have hparse : parseIdcodes s2.result p.maxDeviceCount 0 = chain.map Tap.idcode := by
    have hne : ∀ id ∈ chain.map Tap.idcode, id ≠ 0xFFFFFFFF :=
      List.forall_mem_map.mpr fun t ht => Tap.legal_idcode (hlegal t ht)
    have hcap := parseIdcodes_captured hne (cap := s2.result) (k := k) (n := 32 * p.maxDeviceCount) (w := 0) (by omega)
      fun i hi => by
        rw [Nat.mul_zero, Nat.zero_add, holdsSamples_bufBit hsamples (by simpa [hk] using hi)]
    rwa [List.length_map, ← hk] at hcap
  have hones : ceilDiv8 (32 * p.maxDeviceCount) = 4 * p.maxDeviceCount := by unfold ceilDiv8; omega
  refine ⟨s2, ?_, hs2⟩
  rw [hones] at h2
  simp only [idcodePass, h.params, h1, h2, Client.andThen, hparse]

/-- The IR-length pass lists the lengths, if it is wide enough. -/
theorem irLengthPass_done (h : Scannable p chain s) (hlegal : ∀ t ∈ chain, t.legal = true)
    (hwide : (chain.map Tap.irLength).sum + 1 ≤ p.irScanBits) (h32 : p.irScanBits < 2 ^ 32) :
    ∃ t, irLengthPass chain.length s = .done (chain.map Tap.irLength) t ∧ t.tapShadow = single .rti ∧
      t.tmsShadow = .low := by
  obtain ⟨s1, h1, hs1, hreset⟩ := issueReset_done h
  obtain ⟨s2, h2, -, hrti, hlow, hsamples⟩ := issue_ones hs1 hreset .ir (op := 0x13) (fun _ _ => rfl)
    (show p.irScanBits ≠ 0 by omega) h32
  have hlens : ∀ l ∈ chain.map Tap.irLength, 1 ≤ l :=
    List.forall_mem_map.mpr fun t ht => Tap.legal_irLength (hlegal t ht)
  rw [path_lengths hs1] at hsamples
  have hdecode : decodeIrLengths chain.length s2.result 0 0 = some (chain.map Tap.irLength) := by
    have hlen := capturedIr_length hlens
    have hbits := holdsSamples_bufBits hsamples hwide (by simp [hlen]; omega)
    rw [← hlen, List.take_length_add_append, List.take_replicate, Nat.min_eq_left (by omega), hlen] at hbits
    obtain ⟨hbytes, -⟩ := hsamples
    have hmeasured := irDecoderMeasuresLengths _ s2.result hlens hbits (by omega)
    rwa [List.length_map] at hmeasured
  exact ⟨s2, by simp only [irLengthPass, h.params, h1, h2, Client.andThen, hdecode], hrti, hlow⟩

end

/-- Settles O52: the IDCODE pass and then the IR-length pass, each from a reset of the chain. -/
theorem scanFindsEveryTap : Obligations.ScanFindsEveryTap := by
  intro s ha hcf hwf hl hS hq hrep hw hr hf hlen h32 hwide hir
  obtain ⟨hd, -, hpos⟩ := hwf
  have hs : Scannable s.params s.taps s := ⟨rfl, rfl, ha, hd, hl, hS, hq, hrep, hw, hr, hf⟩
  have hlegal : ∀ t ∈ s.taps, t.legal = true := fun t ht => (hf t ht).1
  obtain ⟨s1, hids, hs1⟩ := idcodePass_done hs hlegal hlen (Nat.ne_of_gt hpos) h32
  obtain ⟨s2, hlens, hrti, hlow⟩ := irLengthPass_done hs1 hlegal hwide hir
  have hscan : scan s = .done (s.taps.map fun u => { idcode := u.idcode, irLength := u.irLength }) s2 := by
    rw [scan, if_neg (Nat.ne_of_gt hpos), hids]
    simp only [Client.andThen, List.length_map, hlens]
    simp [List.zipWith_map, List.zipWith_self]
  exact ⟨_, clientTurn_done hcf (by rw [runProc, hscan]; rfl), rfl, hrti, hlow⟩

end Sys2Proof.Machine
end

section
/-! Proofs about the two kinds of exception (60_exceptions.md R261 to R264): what sets `desync` is a transport error,
what sets `fault` is a contract fault of the check, and a failed write ends SHIFT_TMS. -/

namespace Sys2Proof.Machine

open Sys2Proof Sys2Proof.Safety

/-! ## The instruction that raises (60_exceptions.md R261, R262) -/

theorem raiseError_transportErrorState (e : ErrorKind) {s : State} (hf : s.fault = none) :
    TransportErrorState (raiseError e s) e.code e.subcause := ⟨rfl, rfl, rfl, rfl, rfl, rfl, hf⟩

/-- An instruction that sets `desync` ends by raising a transport error, in a block without a fault. -/
theorem exec_sets_desync {i : Instr} {s t : State} (h : exec i s = .next t) (hs : s.desync = false)
    (ht : t.desync = true) : ∃ u e, u.fault = none ∧ IsTransportError e ∧ t = raiseError e u := by
  cases exec_returns phaseFrame_stepwise h with
  | command => rw [runCommand_frame, hs] at ht; cases ht
  | contract => exact absurd (hs.symm.trans ht) Bool.false_ne_true
  | done u _ _ hu => exact absurd ((hu.desync.trans hs).symm.trans ht) Bool.false_ne_true
  | error u e hf _ hu he => exact ⟨u, e, hu.fault.trans hf, he, rfl⟩

/-- An instruction that sets `fault` does nothing but raise a contract fault: its phases and the engine leave
`fault` alone. -/
theorem exec_sets_fault {i : Instr} {s t : State} (h : exec i s = .next t) (hs : s.fault = none)
    (ht : t.fault ≠ none) : ∃ k, t = raiseFault k s := by
  cases exec_returns phaseFrame_stepwise h with
  | command => rw [runCommand_frame] at ht; exact absurd hs ht
  | contract k => exact ⟨k, rfl⟩
  | done u _ _ hu => exact absurd (hu.fault.trans hs) ht
  | error u e _ _ hu => exact absurd (hu.fault.trans hs) ht

/-- Settles O23: the error raised is one of the three of a transport. -/
theorem desyncIsSetOnlyByATransportError : Obligations.DesyncIsSetOnlyByATransportError := by
  intro i s t h hs ht
  obtain ⟨u, e, hf, he, rfl⟩ := exec_sets_desync h hs ht
  have herr := raiseError_transportErrorState e hf
  obtain rfl | rfl | rfl := he
  · exact .inl herr
  · exact .inr (.inl herr)
  · exact .inr (.inr herr)

/-- Settles O42: raising a contract fault writes `fault` and the reply, and nothing else. -/
theorem contractFaultWritesNoByte : Obligations.ContractFaultWritesNoByte := by
  intro i s t h hs ht
  obtain ⟨k, rfl⟩ := exec_sets_fault h hs ht
  exact ⟨rfl, rfl, rfl, rfl, rfl, rfl, rfl⟩

/-! ## A failed write (60_exceptions.md R263, 10_state.md R32) -/

theorem writeFailed_transportErrorState (before : List Instr) (i : Instr) (later : List Nat) {s : State}
    (hf : s.fault = none) : TransportErrorState (writeFailed before i later s) 0x01 0 :=
  raiseError_transportErrorState .transportIoError hf

/-- The failed write of command `k` is logged after those before it. -/
theorem writeFailed_txLog {is : List Instr} {k : Nat} (hk : k < is.length) (later : List Nat) (s : State) :
    (writeFailed (is.take k) is[k] later s).txLog = s.txLog ++ (is.take (k + 1)).flatMap (encode s.params) := by
  rw [← List.take_concat_get' is k hk, List.flatMap_append, ← List.append_assoc]
  simp [writeFailed, emitted]

/-- Each command of a TMS walk is three bytes, so the first `k` commands are the first `3 k` bytes. -/
theorem tmsBytes_take (p : Params) (data : List Byte) {n k : Nat} (hk : k ≤ (n + 7) / 8) :
    (tmsBytes p data n).take (3 * k) = ((tmsPlan data n).take k).flatMap (encode p) := by
  have hthree : ∀ i ∈ tmsPlan data n, (encode p i).length = 3 := by
    intro i hi
    obtain ⟨_, -, rfl⟩ := List.mem_map.mp hi
    rfl
  have hlen : (((tmsPlan data n).take k).flatMap (encode p)).length = 3 * k := by
    rw [List.length_flatMap, List.map_congr_left fun i hi => hthree i (List.mem_of_mem_take hi)]
    simp [hk, Nat.mul_comm]
  have hsplit : tmsBytes p data n =
      ((tmsPlan data n).take k).flatMap (encode p) ++ ((tmsPlan data n).drop k).flatMap (encode p) := by
    rw [← List.flatMap_append, List.take_append_drop, tmsPlan_bytes]
  rw [hsplit, List.take_left' hlen]

/-- Settles O20: the walk's commands are emitted up to the one whose write fails. -/
theorem failedWriteEndsShiftTms : Obligations.FailedWriteEndsShiftTms := by
  intro s count data k later ha hp hw hk
  have hplan : k < (tmsPlan data count.toNat).length := by rwa [tmsPlan_length]
  refine ⟨writeFailed ((tmsPlan data count.toNat).take k) (tmsPlan data count.toNat)[k] later s, ?_,
    writeFailed_transportErrorState _ _ later ha.1, ?_, rfl, rfl⟩
  · rw [execShiftTms_accepted ha hp, shiftTmsPhase, emitAll_fails hw hplan, Flow.returnedEmpty_ended]
  · rw [writeFailed_txLog hplan, tmsBytes_take s.params data hk]

end Sys2Proof.Machine
end

section
/-! Proofs about the TX byte counts (70_reset_and_hazards.md R297) and about power-up (R290, R292): a command is three
bytes and its payload, an operation that succeeds has written every command of its plan, and a power-up writes each
register of the block. -/

namespace Sys2Proof.Machine

open Sys2Proof Sys2Proof.Safety

/-! ## The bytes of commands (30_encoding.md R75) -/

/-- The payload of an engine command: only the bulk layout has one. -/
def bulkPayload : Instr → List Byte
  | .bytesOut payload | .bytesInout payload => payload
  | _ => []

theorem encode_command_length (p : Params) {i : Instr} (hi : i.space = .tx) :
    (encode p i).length = 3 + (bulkPayload i).length := by
  cases i
  case bytesOut payload | bytesInout payload => exact Nat.add_comm payload.length 3
  case tmsOut | tmsInout | bitsOut | bitsInout => rfl
  all_goals cases hi

theorem encode_commands_length (p : Params) {is : List Instr} (hc : Commands is) :
    (is.flatMap (encode p)).length = 3 * is.length + (is.flatMap bulkPayload).length := by
  induction is with
  | nil => rfl
  | cons i is ih =>
    obtain ⟨⟨-, hi⟩, hc⟩ := List.forall_mem_cons.mp hc
    simp only [List.flatMap_cons, List.length_append, List.length_cons, encode_command_length p hi, ih hc]
    omega

theorem tmsPlan_payload (data : List Byte) (n : Nat) : (tmsPlan data n).flatMap bulkPayload = [] := by
  rw [tmsPlan, List.flatMap_map]
  exact List.flatMap_eq_nil_iff.mpr fun _ _ => rfl

theorem bytesInstr_payload (capture : Bool) (payload : List Byte) :
    bulkPayload (bytesInstr capture payload) = payload := by
  cases capture <;> rfl

theorem bitsInstr_payload (capture : Bool) (l : LenField) (d : Byte) : bulkPayload (bitsInstr capture l d) = [] := by
  cases capture <;> rfl

theorem finalInstr_payload (capture : Bool) (d : Byte) : bulkPayload (finalInstr capture d) = [] := by
  cases capture <;> rfl

/-- The bulk commands of a data shift carry its whole bytes. -/
theorem tdiPlan_payload (capture : Bool) (data : List Byte) (n : Nat) :
    (tdiPlan capture data n).flatMap bulkPayload = data.take (wholeBytes n) := by
  have hwhole : (bytesPlan Config.bulkMaxBytes capture data (wholeBytes n)).flatMap bulkPayload =
      data.take (wholeBytes n) := by
    simp only [bytesPlan, List.flatMap_map, bytesInstr_payload]
    exact bytesPlan_payloads data (by decide)
  have hbits (b : Prop) [Decidable b] (l : LenField) (d : Byte) :
      (if b then [bitsInstr capture l d] else []).flatMap bulkPayload = [] := by
    split
    · rw [List.flatMap_singleton, bitsInstr_payload]
    · rfl
  rw [tdiPlan]
  simp only [List.flatMap_append, hwhole, hbits, List.flatMap_singleton, finalInstr_payload, List.append_nil]

/-- The TX bytes of a data shift of `n` bits: three for each of its commands, and the whole bytes. -/
def tdiByteCount (n : Nat) : Nat := 3 * tdiCommands n + wholeBytes n

/-! ## The bytes of phases that run through -/

/-- The block has written `k` bytes from the one state to the other. -/
def Writes (k : Nat) (s t : State) : Prop := t.txLog.length = s.txLog.length + k

theorem Writes.trans {j k : Nat} {s t u : State} (h : Writes j s t) (h' : Writes k t u) : Writes (j + k) s u := by
  unfold Writes at *
  omega

section
variable {count : Count} {n : Nat} {data : List Byte} {capture : Bool} {s t u : State}

theorem emitAll_run_writes {is : List Instr} (hc : Commands is) (h : emitAll is s = .run u) :
    Writes (3 * is.length + (is.flatMap bulkPayload).length) s u := by
  rw [emitted_of_emitAll_run h, ← encode_commands_length s.params hc]
  exact List.length_append

theorem shiftTmsPhase_run_writes (h : shiftTmsPhase data n s = .run u) : Writes (3 * ((n + 7) / 8)) s u := by
  have hw := emitAll_run_writes (tmsPlan_commands data n) h
  rwa [tmsPlan_length, tmsPlan_payload] at hw

theorem emitTdi_run_writes (hp : DataHolds n data) (h : emitAll (tdiPlan capture data n) s = .run u) :
    Writes (tdiByteCount n) s u := by
  have hw := emitAll_run_writes (tdiPlan_commands capture hp.1 hp.2) h
  rwa [tdiPlan_length, tdiPlan_payload, List.length_take_of_le (Nat.le_of_lt (whole_le hp.1 hp.2))] at hw

/-- A read that succeeds writes nothing. -/
theorem receive_run_writes {expected : Nat} {rebuilt : List Byte → List Byte}
    (h : receive expected rebuilt s = .run u) : Writes 0 s u := by
  obtain ⟨r, hr⟩ | ⟨rx, io, left, draws, ⟨-, hr⟩ | ⟨e, -, hr⟩⟩ := receive_cases expected rebuilt s
  · cases h.symm.trans hr
  · rw [Flow.run.inj (h.symm.trans hr), engineDrain_frame]
    rfl
  · cases h.symm.trans hr

theorem transferTdiPhase_run_writes (hp : DataHolds n data) (h : transferTdiPhase data n s = .run u) :
    Writes (tdiByteCount n) s u := by
  obtain ⟨v, hdata, hread⟩ := Flow.andThen_eq_run.mp h
  exact (emitTdi_run_writes hp hdata).trans (receive_run_writes hread)

/-! ## The bytes of operations that succeed (70_reset_and_hazards.md R297) -/

/-- An operation that is one TMS walk. -/
theorem tmsWalk_writes (h : (shiftTmsPhase data n s).returnedEmpty = .next t) (ok : t.status = statusOk) :
    Writes (3 * ((n + 7) / 8)) s t := by
  obtain ⟨u, hu, rfl⟩ := Flow.returnedEmpty_succeeds (shiftTmsPhase_follows phaseFrame_stepwise data n s) h ok
  exact shiftTmsPhase_run_writes (u := u) hu

theorem shiftTms_writes (h : exec (.shiftTms count data) s = .next t) (ok : t.status = statusOk) :
    Writes (3 * ((count.toNat + 7) / 8)) s t := by
  obtain ⟨-, -, hb⟩ := checked_succeeds (show execShiftTms count data s = _ from h) ok
  exact tmsWalk_writes hb ok

theorem tapReset_writes (h : exec .tapReset s = .next t) (ok : t.status = statusOk) : Writes 15 s t := by
  obtain ⟨-, -, hb⟩ := checked_succeeds (show execTapReset s = _ from h) ok
  exact tmsWalk_writes hb ok

theorem idle_writes (hc : count ≠ 0) (h : exec (.idle count) s = .next t) (ok : t.status = statusOk) :
    Writes (3 * ((idleClocks count.toNat s.tapShadow + 7) / 8)) s t := by
  rw [execIdle_checked hc] at h
  obtain ⟨-, -, hb⟩ := checked_succeeds h ok
  rw [idlePhase_eq] at hb
  exact tmsWalk_writes hb ok

theorem idle_zero_txLog (h : exec (.idle 0) s = .next t) : t.txLog = s.txLog := by
  cases hf : s.fault with
  | some k => rw [exec_stuck rfl hf] at h; cases h
  | none =>
    rw [execIdle_zero hf] at h
    obtain rfl := Host.Outcome.next.inj h
    rfl

theorem shiftTdi_writes (h : exec (.shiftTdi count data) s = .next t) (ok : t.status = statusOk) :
    Writes (tdiByteCount count.toNat) s t := by
  obtain ⟨-, hc, -⟩ := checked_succeeds (show execShiftTdi count data s = _ from h) ok
  obtain ⟨-, hp, -⟩ := contractCheck_none.mp hc
  obtain ⟨u, hu, rfl⟩ := execShiftTdi_succeeds h ok
  exact emitTdi_run_writes (u := u) (hp rfl) hu

theorem transferTdi_writes (h : exec (.transferTdi count data) s = .next t) (ok : t.status = statusOk) :
    Writes (tdiByteCount count.toNat) s t := by
  obtain ⟨-, hc, -⟩ := checked_succeeds (show execTransferTdi count data s = _ from h) ok
  obtain ⟨-, hp, -⟩ := contractCheck_none.mp hc
  obtain ⟨u, hu, rfl⟩ := execTransferTdi_succeeds h ok
  exact transferTdiPhase_run_writes (u := u) (hp rfl) hu

variable {c : Column}

theorem entryPhase_run_writes (h : entryPhase c.entry c.clocks s = .run u) : Writes 3 s u := by
  rw [entryPhase_eq] at h
  exact emitAll_run_writes (List.forall_mem_singleton.mpr ⟨rfl, rfl⟩) h

/-- A scan writes its entry walk, its data phase and its exit walk. -/
theorem scan_run_writes {phase : State → Flow} {k : Nat} (hd : ∀ v w, phase v = .run w → Writes k v w)
    (h : ((entryPhase c.entry c.clocks s).andThen phase).andThen exitPhase = .run u) : Writes (3 + k + 3) s u := by
  obtain ⟨w, hfront, hexit⟩ := Flow.andThen_eq_run.mp h
  obtain ⟨v, hentry, hdata⟩ := Flow.andThen_eq_run.mp hfront
  exact ((entryPhase_run_writes hentry).trans (hd v w hdata)).trans (shiftTmsPhase_run_writes hexit)

theorem shiftInstr_writes (h : exec (c.shiftInstr count data) s = .next t) (ok : t.status = statusOk) :
    Writes (3 + tdiByteCount count.toNat + 3) s t := by
  rw [exec_shiftInstr] at h
  obtain ⟨-, hc, hb⟩ := checked_succeeds h ok
  obtain ⟨-, hp, -⟩ := contractCheck_none.mp hc
  obtain ⟨u, hu, rfl⟩ :=
    Flow.returnedEmpty_succeeds (shiftScan_follows phaseFrame_stepwise c.entry c.clocks (hp rfl) s) hb ok
  exact scan_run_writes (u := u) (fun _ _ => emitTdi_run_writes (hp rfl)) hu

theorem transferInstr_writes (h : exec (c.transferInstr count data) s = .next t) (ok : t.status = statusOk) :
    Writes (3 + tdiByteCount count.toNat + 3) s t := by
  rw [exec_transferInstr] at h
  obtain ⟨-, hc, hb⟩ := checked_succeeds h ok
  obtain ⟨-, hp, -⟩ := contractCheck_none.mp hc
  obtain ⟨u, hu, rfl⟩ :=
    Flow.returned_succeeds (transferScan_follows phaseFrame_stepwise c.entry c.clocks (hp rfl) s) hb ok
  exact scan_run_writes (u := u) (fun _ _ => transferTdiPhase_run_writes (hp rfl)) hu

end

/-- R297's count of a data shift: its bulk commands and their payload, its bits command, its final command. -/
theorem tdiByteCount_eq (n : Nat) : tdiByteCount n =
    3 * (((n - 1) / 8 + 65535) / 65536) + (n - 1) / 8 + 3 * (if 2 ≤ n - 8 * ((n - 1) / 8) then 1 else 0) + 3 := by
  simp only [tdiByteCount, tdiCommands, wholeBytes]
  omega

/-- Settles O19: operation by operation. -/
theorem txByteCounts : Obligations.TxByteCounts := by
  intro s t count data i h ok n b tdi
  have htdi : tdiByteCount count.toNat = tdi := tdiByteCount_eq _
  rw [← htdi]
  refine ⟨?tms, ?tdi, ?scan, ?reset, ?idle, ?idleZero⟩
  case tms =>
    rintro rfl
    exact shiftTms_writes h ok
  case tdi =>
    rintro (rfl | rfl)
    · exact shiftTdi_writes h ok
    · exact transferTdi_writes h ok
  case scan =>
    rintro (rfl | rfl | rfl | rfl)
    · exact shiftInstr_writes (c := .ir) h ok
    · exact transferInstr_writes (c := .ir) h ok
    · exact shiftInstr_writes (c := .dr) h ok
    · exact transferInstr_writes (c := .dr) h ok
  case reset =>
    rintro rfl
    exact tapReset_writes h ok
  case idle =>
    rintro rfl hc
    exact idle_writes hc h ok
  case idleZero =>
    rintro rfl
    exact idle_zero_txLog h

/-! ## Power-up (70_reset_and_hazards.md R290, R292) -/

/-- The block powers up with every TAP state possible and no fault. -/
theorem powerOn_valid {p : Params} {taps : List Tap} (hp : p.wf)
    (ht : ∀ t ∈ taps, t.legal = true ∧ t.fits = true) : Valid (State.powerOn p taps) :=
  ⟨hp, allStates_ne_zero, nofun, nofun, ht⟩

/-- Settles O39: reset is the power-on of the default parameters and the empty chain. -/
theorem powerOnIsValid : Obligations.PowerOnIsValid :=
  ⟨powerOn_valid (by decide) nofun, fun _ _ => powerOn_valid⟩

/-- Settles O45: a waiting engine leaves the step to the host's request, whose action writes the power-up values over
an initialised engine. -/
theorem powerUpResult : Obligations.PowerUpResult := fun _ _ hw hp =>
  ⟨_, step_of_waits hw hp, rfl, rfl, rfl, rfl, rfl, rfl, rfl, rfl, rfl, rfl, rfl, rfl, rfl, rfl⟩

end Sys2Proof.Machine
end
